-- ==== Sys2Proof/Word.lean ====
section
/-! DEFINITION. The words of the CORE: bytes, 32-bit frame words, 64-bit lanes, byte strings (spec 00 R12). -/

namespace Sys2Proof

/-- A byte, 8 bits (00 R12). -/
abbrev Byte := BitVec 8

/-- A 32-bit header or operand word of a frame (30 R70). -/
abbrev Word := BitVec 32

/-- A lane, 64 bits unsigned (00 R12, 10 R21). -/
abbrev Lane := BitVec 64

/-- A byte string, byte 0 first (00 R12). -/
abbrev Bytes := List Byte

/-- A frame is a byte string handed over whole (30 R70, R78). -/
abbrev Frame := Bytes

/-- `zeros(n)`: `n` bytes `0x00` (00 R12). -/
def zeros (n : Nat) : Bytes := List.replicate n 0

end Sys2Proof
end

