-- ==== Sys2Proof/Syntax.lean ====
section
/-! DEFINITION. The 23 commands of the CORE (spec 30 R74), one constructor per row of the opcode table. A length field of the
encoding is the length of the byte string it counts, so it is not a field here; a length with no payload part of its own
(`olen`, `tlen` of `VM.TAG` and `AO.PACKAGE`, `adlen` of `SIV.CTX`) is. -/

namespace Sys2Proof

/-- A decoded command (30 R74). -/
inductive Instr where
  /-- `KF.PERMUTE ; st` (40 R100). -/
  | kfPermute (st : Bytes)
  /-- `KF.ROUND ir ; st` (40 R101). -/
  | kfRound (ir : Byte) (st : Bytes)
  /-- `SP.INIT rate, ds, fx, budget` (41 R117). -/
  | spInit (rate ds : Byte) (fx : Bool) (budget : Word)
  /-- `SP.ABSORB ; data` (41 R118). -/
  | spAbsorb (data : Bytes)
  /-- `SP.PAD dsb` (41 R119). -/
  | spPad (dsb : Byte)
  /-- `SP.SQUEEZE olen` (41 R120). -/
  | spSqueeze (olen : Word)
  /-- `SP.RESET` (41 R121). -/
  | spReset
  /-- `SP.SNAP` (41 R122). -/
  | spSnap
  /-- `SP.RESTORE` (41 R123). -/
  | spRestore
  /-- `VM.KEY ; key` (42 R146). -/
  | vmKey (key : Bytes)
  /-- `VM.INPUT ; x` (42 R147). -/
  | vmInput (x : Bytes)
  /-- `VM.TAG tlen` (42 R148). -/
  | vmTag (tlen : Word)
  /-- `VM.RESET` (42 R149). -/
  | vmReset
  /-- `SIV.CTX adlen ; key` (43 R167). -/
  | sivCtx (key : Bytes) (adlen : Word)
  /-- `SIV.SEAL ; nonce, ad, msg` (43 R168). -/
  | sivSeal (nonce ad msg : Bytes)
  /-- `SIV.UNSEAL ; nonce, ad, tag, ct` (43 R169). -/
  | sivUnseal (nonce ad tag ct : Bytes)
  /-- `ST.CTX ; key, cnonce` (44 R180). -/
  | stCtx (key cnonce : Bytes)
  /-- `ST.SEAL ; ad, pt` (44 R181). -/
  | stSeal (ad pt : Bytes)
  /-- `ST.OPEN ; ad, sealed` (44 R182). -/
  | stOpen (ad sealed : Bytes)
  /-- `AO.KEY ; key` (45 R196). -/
  | aoKey (key : Bytes)
  /-- `AO.PACKAGE tlen ; msg` (45 R197). -/
  | aoPackage (tlen : Byte) (msg : Bytes)
  /-- `AO.UNPACKAGE ; ct, tag` (45 R198). -/
  | aoUnpackage (ct tag : Bytes)
  /-- `RDSR n` (46 R205). -/
  | rdsr (n : Byte)
  deriving DecidableEq, Repr

/-- The 23 opcodes (30 R74), the name of a row of the opcode table. -/
inductive Op where
  | kfPermute | kfRound
  | spInit | spAbsorb | spPad | spSqueeze | spReset | spSnap | spRestore
  | vmKey | vmInput | vmTag | vmReset
  | sivCtx | sivSeal | sivUnseal
  | stCtx | stSeal | stOpen
  | aoKey | aoPackage | aoUnpackage
  | rdsr
  deriving DecidableEq, Repr

/-- The command formats (30 R72). -/
inductive Format where
  | Z | A1 | A2 | L1 | I1 | AL1 | L2 | L3 | AL3
  deriving DecidableEq, Repr

/-- Why a frame is illegal, in the order of the tests (30 R76). -/
inductive Illegal where
  /-- (1) the frame has fewer than 4 bytes. -/
  | shortHeader
  /-- (2) the opcode is not one of the 23. -/
  | unknownOpcode
  /-- (3) a must-be-zero header bit is 1. -/
  | mustBeZero
  /-- (4) the operand words are not all there. -/
  | operandsMissing
  /-- (5) the frame's length is not the one its header and operand words declare. -/
  | wrongLength
  deriving DecidableEq, Repr

/-- The parts a frame splits into: `Command(op, a, b, c, W1..Wn, P)` (30 R82). -/
structure Command where
  op : Op
  a : Byte
  b : Byte
  c : Byte
  words : List Word
  payload : Bytes
  deriving DecidableEq, Repr

end Sys2Proof
end

