-- ==== Sys2Proof/WellFormed.lean ====
section
/-! DEFINITION. Which terms of `Instr` a frame can encode: the lengths their fields can hold (spec 30 R73, R74). -/

namespace Sys2Proof

/-- The length fits an operand word, 0..2^32-1 (30 R73). -/
def fitsWord (s : Bytes) : Bool := decide (s.length < 2 ^ 32)

/-- The length fits an 8-bit header field (30 R71). -/
def fitsField (s : Bytes) : Bool := decide (s.length < 2 ^ 8)

/-- The payload lengths of 30 R74: a 200-byte state, a string counted by an operand word, a string counted by `a` or `b`. -/
def Instr.wellFormed : Instr → Bool
  | .kfPermute st => decide (st.length = 200)
  | .kfRound _ st => decide (st.length = 200)
  | .spInit _ _ _ _ => true
  | .spAbsorb data => fitsWord data
  | .spPad _ => true
  | .spSqueeze _ => true
  | .spReset => true
  | .spSnap => true
  | .spRestore => true
  | .vmKey key => fitsWord key
  | .vmInput x => fitsWord x
  | .vmTag _ => true
  | .vmReset => true
  | .sivCtx key _ => fitsField key
  | .sivSeal nonce ad msg => fitsWord nonce && fitsWord ad && fitsWord msg
  | .sivUnseal nonce ad tag ct => fitsWord nonce && fitsWord ad && fitsField tag && fitsWord ct
  | .stCtx key cnonce => fitsField key && fitsField cnonce
  | .stSeal ad pt => fitsWord ad && fitsWord pt
  | .stOpen ad sealed => fitsWord ad && fitsWord sealed
  | .aoKey key => fitsField key
  | .aoPackage _ msg => fitsWord msg
  | .aoUnpackage ct tag => fitsWord ct && fitsField tag
  | .rdsr _ => true

end Sys2Proof
end

