-- ==== Sys2Proof/Decode.lean ====
section
/-! DEFINITION. Frames to commands and back (spec 30 R70 to R82). The decoder is total on byte strings and rejects by name
(R76); the encoder is written from the same tables. -/

namespace Sys2Proof

/-- `le32(w)`: the 4-byte little-endian string of a 32-bit word (00 R12, 20 R53). -/
def le32 (w : Word) : Bytes :=
  [w.extractLsb' 0 8, w.extractLsb' 8 8, w.extractLsb' 16 8, w.extractLsb' 24 8]

/-- The 32-bit word whose little-endian bytes are `b0 b1 b2 b3` (20 R53). -/
def wordOfBytes (b0 b1 b2 b3 : Byte) : Word :=
  b0.setWidth 32 ||| b1.setWidth 32 <<< 8 ||| b2.setWidth 32 <<< 16 ||| b3.setWidth 32 <<< 24

/-- The header word, `op = H[31:24]`, `a = H[23:16]`, `b = H[15:8]`, `c = H[7:0]` (30 R71). -/
def headerWord (op a b c : Byte) : Word := wordOfBytes c b a op

/-- The opcode numbers (30 R74). -/
def Op.code : Op → Byte
  | .kfPermute => 0x01
  | .kfRound => 0x02
  | .spInit => 0x10
  | .spAbsorb => 0x11
  | .spPad => 0x12
  | .spSqueeze => 0x13
  | .spReset => 0x14
  | .spSnap => 0x15
  | .spRestore => 0x16
  | .vmKey => 0x20
  | .vmInput => 0x21
  | .vmTag => 0x22
  | .vmReset => 0x23
  | .sivCtx => 0x30
  | .sivSeal => 0x31
  | .sivUnseal => 0x32
  | .stCtx => 0x40
  | .stSeal => 0x41
  | .stOpen => 0x42
  | .aoKey => 0x50
  | .aoPackage => 0x51
  | .aoUnpackage => 0x52
  | .rdsr => 0x60

/-- Every opcode, in the table's order (30 R74). -/
def Op.all : List Op :=
  [.kfPermute, .kfRound, .spInit, .spAbsorb, .spPad, .spSqueeze, .spReset, .spSnap, .spRestore] ++
  [.vmKey, .vmInput, .vmTag, .vmReset, .sivCtx, .sivSeal, .sivUnseal, .stCtx, .stSeal, .stOpen] ++
  [.aoKey, .aoPackage, .aoUnpackage, .rdsr]

/-- The opcode a byte names; the other 233 values name none (30 R75). -/
def Op.ofCode (b : Byte) : Option Op := Op.all.find? fun op => op.code == b

/-- The format column of 30 R74. -/
def Op.format : Op → Format
  | .kfPermute => .Z
  | .kfRound => .A1
  | .spInit => .I1
  | .spAbsorb => .L1
  | .spPad => .A1
  | .spSqueeze => .L1
  | .spReset => .Z
  | .spSnap => .Z
  | .spRestore => .Z
  | .vmKey => .L1
  | .vmInput => .L1
  | .vmTag => .L1
  | .vmReset => .Z
  | .sivCtx => .AL1
  | .sivSeal => .L3
  | .sivUnseal => .AL3
  | .stCtx => .A2
  | .stSeal => .L2
  | .stOpen => .L2
  | .aoKey => .A1
  | .aoPackage => .AL1
  | .aoUnpackage => .AL1
  | .rdsr => .A1

/-- `mbz_mask` (30 R82). -/
def Format.mbzMask : Format → Word
  | .Z => 0x00ffffff
  | .L1 => 0x00ffffff
  | .L2 => 0x00ffffff
  | .L3 => 0x00ffffff
  | .A1 => 0x0000ffff
  | .AL1 => 0x0000ffff
  | .AL3 => 0x0000ffff
  | .A2 => 0x000000ff
  | .I1 => 0x000000fe

/-- The number of operand words of a format (30 R72). -/
def Format.words : Format → Nat
  | .Z => 0
  | .A1 => 0
  | .A2 => 0
  | .L1 => 1
  | .I1 => 1
  | .AL1 => 1
  | .L2 => 2
  | .L3 => 3
  | .AL3 => 3

/-- The column `plen` of 30 R74, in the natural numbers (30 R73). -/
def payloadLength (op : Op) (a b : Byte) (words : List Word) : Nat :=
  let w1 := (words.getD 0 0).toNat
  let w2 := (words.getD 1 0).toNat
  let w3 := (words.getD 2 0).toNat
  match op with
  | .kfPermute => 200
  | .kfRound => 200
  | .spInit => 0
  | .spAbsorb => w1
  | .spPad => 0
  | .spSqueeze => 0
  | .spReset => 0
  | .spSnap => 0
  | .spRestore => 0
  | .vmKey => w1
  | .vmInput => w1
  | .vmTag => 0
  | .vmReset => 0
  | .sivCtx => a.toNat
  | .sivSeal => w1 + w2 + w3
  | .sivUnseal => w1 + w2 + a.toNat + w3
  | .stCtx => a.toNat + b.toNat
  | .stSeal => w1 + w2
  | .stOpen => w1 + w2
  | .aoKey => a.toNat
  | .aoPackage => w1
  | .aoUnpackage => w1 + a.toNat
  | .rdsr => 0

/-- The first `n` operand words of a byte string and what follows them, or none where they are not all there (30 R82). -/
def takeWords : Nat → Bytes → Option (List Word × Bytes)
  | 0, rest => some ([], rest)
  | n + 1, b0 :: b1 :: b2 :: b3 :: rest =>
    match takeWords n rest with
    | some (words, tail) => some (wordOfBytes b0 b1 b2 b3 :: words, tail)
    | none => none
  | _ + 1, _ => none

/-- The tests of 30 R82 in its order, and the parts of a frame that passes them. A frame longer than 2^32 bytes whose length is the
declared one passes them too, as R82 writes the test; 30 R73 holds that no real frame is that long (DESIGN CHOICE, log 18). -/
def parseFrame : Frame → Except Illegal Command
  | f0 :: f1 :: f2 :: f3 :: rest =>
    let H := wordOfBytes f0 f1 f2 f3
    let a := H.extractLsb' 16 8
    let b := H.extractLsb' 8 8
    let c := H.extractLsb' 0 8
    match Op.ofCode (H.extractLsb' 24 8) with
    | none => .error .unknownOpcode
    | some op =>
      if H &&& op.format.mbzMask ≠ 0 then .error .mustBeZero
      else
        match takeWords op.format.words rest with
        | none => .error .operandsMissing
        | some (words, payload) =>
          if payload.length ≠ payloadLength op a b words then .error .wrongLength
          else .ok { op := op, a := a, b := b, c := c, words := words, payload := payload }
  | _ => .error .shortHeader

/-- The command the parts stand for: the payload cut in the order of the column "payload" of 30 R74. -/
def Command.instr (k : Command) : Instr :=
  let w1 := k.words.getD 0 0
  let w2 := k.words.getD 1 0
  let n1 := w1.toNat
  let n2 := w2.toNat
  let P := k.payload
  match k.op with
  | .kfPermute => .kfPermute P
  | .kfRound => .kfRound k.a P
  | .spInit => .spInit k.a k.b (k.c.getLsbD 0) w1
  | .spAbsorb => .spAbsorb P
  | .spPad => .spPad k.a
  | .spSqueeze => .spSqueeze w1
  | .spReset => .spReset
  | .spSnap => .spSnap
  | .spRestore => .spRestore
  | .vmKey => .vmKey P
  | .vmInput => .vmInput P
  | .vmTag => .vmTag w1
  | .vmReset => .vmReset
  | .sivCtx => .sivCtx P w1
  | .sivSeal => .sivSeal (P.take n1) ((P.drop n1).take n2) (P.drop (n1 + n2))
  | .sivUnseal => .sivUnseal (P.take n1) ((P.drop n1).take n2) ((P.drop (n1 + n2)).take k.a.toNat) (P.drop (n1 + n2 + k.a.toNat))
  | .stCtx => .stCtx (P.take k.a.toNat) (P.drop k.a.toNat)
  | .stSeal => .stSeal (P.take n1) (P.drop n1)
  | .stOpen => .stOpen (P.take n1) (P.drop n1)
  | .aoKey => .aoKey P
  | .aoPackage => .aoPackage k.a P
  | .aoUnpackage => .aoUnpackage (P.take n1) (P.drop n1)
  | .rdsr => .rdsr k.a

/-- The decoder: a total function from byte strings to `Command + Illegal`, independent of the CORE's state (30 R77, R82). -/
def decode (F : Frame) : Except Illegal Instr :=
  match parseFrame F with
  | .ok k => .ok k.instr
  | .error why => .error why

/-- The length of a byte string as a header field. -/
def lenField (s : Bytes) : Byte := BitVec.ofNat 8 s.length

/-- The length of a byte string as an operand word. -/
def lenWord (s : Bytes) : Word := BitVec.ofNat 32 s.length

/-- The flag `fx` as the field `c` of format `I1` (30 R72). -/
def flagField (fx : Bool) : Byte := if fx then 1 else 0

/-- The parts of a command's frame, field by field from the columns of 30 R74; a field a format does not use is zero (30 R71). -/
def Instr.command : Instr → Command
  | .kfPermute st => { op := .kfPermute, a := 0, b := 0, c := 0, words := [], payload := st }
  | .kfRound ir st => { op := .kfRound, a := ir, b := 0, c := 0, words := [], payload := st }
  | .spInit rate ds fx budget => { op := .spInit, a := rate, b := ds, c := flagField fx, words := [budget], payload := [] }
  | .spAbsorb data => { op := .spAbsorb, a := 0, b := 0, c := 0, words := [lenWord data], payload := data }
  | .spPad dsb => { op := .spPad, a := dsb, b := 0, c := 0, words := [], payload := [] }
  | .spSqueeze olen => { op := .spSqueeze, a := 0, b := 0, c := 0, words := [olen], payload := [] }
  | .spReset => { op := .spReset, a := 0, b := 0, c := 0, words := [], payload := [] }
  | .spSnap => { op := .spSnap, a := 0, b := 0, c := 0, words := [], payload := [] }
  | .spRestore => { op := .spRestore, a := 0, b := 0, c := 0, words := [], payload := [] }
  | .vmKey key => { op := .vmKey, a := 0, b := 0, c := 0, words := [lenWord key], payload := key }
  | .vmInput x => { op := .vmInput, a := 0, b := 0, c := 0, words := [lenWord x], payload := x }
  | .vmTag tlen => { op := .vmTag, a := 0, b := 0, c := 0, words := [tlen], payload := [] }
  | .vmReset => { op := .vmReset, a := 0, b := 0, c := 0, words := [], payload := [] }
  | .sivCtx key adlen => { op := .sivCtx, a := lenField key, b := 0, c := 0, words := [adlen], payload := key }
  | .sivSeal nonce ad msg =>
    { op := .sivSeal, a := 0, b := 0, c := 0, words := [lenWord nonce, lenWord ad, lenWord msg], payload := nonce ++ ad ++ msg }
  | .sivUnseal nonce ad tag ct =>
    { op := .sivUnseal, a := lenField tag, b := 0, c := 0, words := [lenWord nonce, lenWord ad, lenWord ct],
      payload := nonce ++ ad ++ tag ++ ct }
  | .stCtx key cnonce => { op := .stCtx, a := lenField key, b := lenField cnonce, c := 0, words := [], payload := key ++ cnonce }
  | .stSeal ad pt => { op := .stSeal, a := 0, b := 0, c := 0, words := [lenWord ad, lenWord pt], payload := ad ++ pt }
  | .stOpen ad sealed => { op := .stOpen, a := 0, b := 0, c := 0, words := [lenWord ad, lenWord sealed], payload := ad ++ sealed }
  | .aoKey key => { op := .aoKey, a := lenField key, b := 0, c := 0, words := [], payload := key }
  | .aoPackage tlen msg => { op := .aoPackage, a := tlen, b := 0, c := 0, words := [lenWord msg], payload := msg }
  | .aoUnpackage ct tag => { op := .aoUnpackage, a := lenField tag, b := 0, c := 0, words := [lenWord ct], payload := ct ++ tag }
  | .rdsr n => { op := .rdsr, a := n, b := 0, c := 0, words := [], payload := [] }

/-- `F = le32(H) || le32(W1) || ... || le32(Wn) || P` (30 R70). -/
def Command.frame (k : Command) : Frame :=
  le32 (headerWord k.op.code k.a k.b k.c) ++ k.words.flatMap le32 ++ k.payload

/-- The frame of a command (30 R70). -/
def encode (i : Instr) : Frame := i.command.frame

/-- The `n` little-endian bytes of a number (20 R53: every frame word is little-endian). -/
def leBytes : Nat → Nat → Bytes
  | 0, _ => []
  | n + 1, w => BitVec.ofNat 8 w :: leBytes n (w / 256)

/-- How long a frame that begins with these bytes is, `4 + 4n + plen`, words that are not there read as zero; 0 where the
opcode is not one of the 23 (30 R77). -/
def declaredLength (head : Bytes) : Nat :=
  let F := head ++ zeros 16
  match Op.ofCode (F.getD 3 0) with
  | none => 0
  | some op =>
    match takeWords op.format.words (F.drop 4) with
    | none => 0
    | some (words, _) => 4 + 4 * op.format.words + payloadLength op (F.getD 2 0) (F.getD 1 0) words

/-- The frame whose first `nbits` bits are `w`, bit 0 the least significant bit of the header word, and whose other bits are
zero: a table word laid out as the hardware takes it, operand words and payload of zeros. -/
def frameOfTableWord (nbits w : Nat) : Frame :=
  let head := leBytes (nbits / 8) w
  head ++ zeros (declaredLength head - head.length)

/-- What the decoder reads from a word of the opcode table. -/
def decodeTableWord (nbits w : Nat) : Option Instr :=
  match decode (frameOfTableWord nbits w) with
  | .ok i => some i
  | .error _ => none

end Sys2Proof
end

