-- ==== Sys2Proof/Config.lean ====
section
/-! DEFINITION. What an implementation fixes: the constants of spec 00 R9, the parameters of 00 R10, the two configuration
functions of 00 R11, and the free value of the response length word. -/

namespace Sys2Proof

namespace Config

/-- `STATE_BYTES` (00 R9). -/
abbrev stateBytes : Nat := 200
/-- `ROUNDS` (00 R9). -/
abbrev rounds : Nat := 24
/-- `RATE_MIN` (00 R9). -/
abbrev rateMin : Nat := 1
/-- `RATE_MAX` (00 R9). -/
abbrev rateMax : Nat := 200
/-- `DS_XOF`, the domain byte of arbitrary-length instances (00 R9). -/
abbrev dsXof : Byte := 0x1f
/-- `DS_DIGEST`, the domain byte of fixed-length digest instances (00 R9). -/
abbrev dsDigest : Byte := 0x06
/-- `PAD_LAST`, XORed at index `rate-1` by the padding (00 R9). -/
abbrev padLast : Byte := 0x80
/-- `VM_KEY_SEP`, the byte that ends key absorption in the vector MAC (00 R9). -/
abbrev vmKeySep : Byte := 0xff
/-- `SIV_TAG_LEN` (00 R9, 43 R160). -/
abbrev sivTagLen : Nat := 24
/-- `SIV_CKEY_LEN` (00 R9, 43 R160). -/
abbrev sivCkeyLen : Nat := 32
/-- `SIV_CIV_LEN` (00 R9, 43 R160). -/
abbrev sivCivLen : Nat := 16
/-- `ST_SUBKEY_LEN` (00 R9, 44 R175). -/
abbrev stSubkeyLen : Nat := 32
/-- `ST_NONCE_LEN` (00 R9, 44 R175, 90 C3). -/
abbrev stNonceLen : Nat := 24
/-- `ST_TAG_LEN` (00 R9, 44 R175). -/
abbrev stTagLen : Nat := 32
/-- `AO_KEY_LEN` (00 R9, 45 R190). -/
abbrev aoKeyLen : Nat := 32
/-- `AO_TAG_MIN` (00 R9, 45 R190). -/
abbrev aoTagMin : Nat := 32
/-- `P_KEY_MAX`, fixed by the 8-bit length field (00 R10, 92 D23). -/
abbrev keyMax : Nat := 255

end Config

/-- The numeric parameters the source leaves open (00 R10). They are arguments of every function that depends on them; the
machine carries them beside its architectural state, in a field that no step writes (DESIGN CHOICE, log 4), so that a statement
over every state is a statement over every value of them. -/
structure Params where
  /-- `P_VMAC_RATE`. -/
  vmacRate : Nat
  /-- `P_XOF_RATE`. -/
  xofRate : Nat
  /-- `P_VMAC_MAX_INPUTS`. -/
  vmacMaxInputs : Nat
  /-- `P_STREAM_IV_LEN`. -/
  streamIvLen : Nat
  deriving DecidableEq, Repr

/-- The admissible values (00 R10, 92 section 5). -/
abbrev Params.Admissible (p : Params) : Prop :=
  1 ≤ p.vmacRate ∧ p.vmacRate ≤ 200 ∧ (p.xofRate = 136 ∨ p.xofRate = 168) ∧
    95 ≤ p.vmacMaxInputs ∧ p.vmacMaxInputs ≤ 128 ∧ 1 ≤ p.streamIvLen

/-- The column "default" of 00 R10; `P_STREAM_IV_LEN` has none there and takes the value of the spec's test instantiation
T0 (DESIGN CHOICE, log 4). -/
def Params.default : Params :=
  { vmacRate := 136, xofRate := 136, vmacMaxInputs := 128, streamIvLen := 24 }

/-- A keystream function: key, IV and length to a byte string (00 R11). -/
abbrev Keystream := Bytes → Bytes → Nat → Bytes

namespace Config

/-- Byte `i` of `CTR_keystream(k, iv, n)`: a free value (00 R11, 93 U7; log 5). -/
opaque ctrKeystreamByte : Bytes → Bytes → Nat → Nat → Byte

/-- Byte `i` of `STREAM_keystream(k, iv, n)`: a free value (00 R11, 93 U8; log 5). -/
opaque streamKeystreamByte : Bytes → Bytes → Nat → Nat → Byte

/-- The `olen` word of a response whose output has `n >= 2^32` bytes, which 30 R78 does not state: a free value (log 6). -/
opaque oversizeOlen : Nat → Word

/-- `CTR_keystream(k, iv, n) : Bytes[n]` (00 R11). -/
def ctrKeystream : Keystream := fun k iv n => (List.range n).map (ctrKeystreamByte k iv n)

/-- `STREAM_keystream(k, iv, n) : Bytes[n]` (00 R11). -/
def streamKeystream : Keystream := fun k iv n => (List.range n).map (streamKeystreamByte k iv n)

end Config

end Sys2Proof
end

