-- ==== Sys2Proof/Machine/State.lean ====
section
/-! DEFINITION. The architectural state of the CORE (spec 10 R20: the groups S, SS, V, SIV, ST, AO, ERRLOG), the model's own
fields beside it, the state after hardware reset (10 R42, 70 R245), and the reasons a step can stop. -/

namespace Sys2Proof.Machine

/-- One row `y` of the 5 by 5 lane matrix: the lanes of columns `x = 0..4` (10 R22). -/
@[ext] structure LaneRow where
  x0 : Lane
  x1 : Lane
  x2 : Lane
  x3 : Lane
  x4 : Lane
  deriving DecidableEq, Repr

/-- A lane file: exactly 25 lanes, logically a 5 by 5 matrix; lane `i = x + 5y` stands in row `y`, column `x` (10 R21, R22). -/
@[ext] structure LaneFile where
  y0 : LaneRow
  y1 : LaneRow
  y2 : LaneRow
  y3 : LaneRow
  y4 : LaneRow
  deriving DecidableEq, Repr

/-- Five zero lanes. -/
def LaneRow.zero : LaneRow := { x0 := 0, x1 := 0, x2 := 0, x3 := 0, x4 := 0 }

/-- 25 zero lanes. -/
def LaneFile.zero : LaneFile :=
  { y0 := LaneRow.zero, y1 := LaneRow.zero, y2 := LaneRow.zero, y3 := LaneRow.zero, y4 := LaneRow.zero }

/-- The direction of a sponge (10 R26). -/
inductive Direction where
  | absorbing
  | squeezing
  deriving DecidableEq, Repr

/-- The fields of the user sponge `S` (10 R25 to R30). -/
structure Sponge where
  /-- The lane file `A[0..24]` (R21). -/
  A : LaneFile
  /-- `rate`, bytes per permutation call (R27). -/
  rate : Byte
  /-- `ds`, the domain-separation byte (R28). -/
  ds : Byte
  /-- `fx`, fixed output (R29). -/
  fx : Bool
  /-- `budget0`, the configured budget (R29). -/
  budget0 : Word
  /-- `remain`, the bytes still allowed (R29). -/
  remain : Word
  /-- `dir` (R26). -/
  dir : Direction
  /-- `pos`, the cursor, a natural number (R25, 41 R126). -/
  pos : Nat
  /-- `cfg` (R30). -/
  cfg : Bool
  deriving DecidableEq, Repr

/-- The shadow `SS`: a copy of every field of `S`, and `valid` (10 R31). -/
structure Shadow extends Sponge where
  /-- `SS.valid`. -/
  valid : Bool
  deriving DecidableEq, Repr

/-- The vector-MAC instance `V` (10 R32). -/
structure VectorMac where
  /-- `valid`: `VM.KEY` has succeeded. -/
  valid : Bool
  /-- The working lanes. -/
  A : LaneFile
  /-- The snapshot lanes. -/
  snap : LaneFile
  /-- The cursor, 0 between commands. -/
  pos : Nat
  /-- The number of inputs absorbed in the current computation. -/
  idx : Nat
  /-- An input beyond the separator budget was refused in the current computation. -/
  ovf : Bool
  deriving DecidableEq, Repr

/-- The AEAD-SIV context `SIV` (10 R33). `SIV.klen` is the length of `key` (log 8). -/
structure SivContext where
  valid : Bool
  key : Bytes
  adlen : Word
  deriving DecidableEq, Repr

/-- The AEAD-Stream context `ST` (10 R34). -/
structure StreamContext where
  valid : Bool
  /-- `hash_key : Bytes[32]`. -/
  hashKey : Bytes
  /-- `cipher_key : Bytes[32]`. -/
  cipherKey : Bytes
  deriving DecidableEq, Repr

/-- The AONT context `AO` (10 R35). -/
structure AontContext where
  /-- `key : Bytes[32]`. -/
  key : Bytes
  /-- The key is the reset default and no `AO.KEY` has succeeded. -/
  dflt : Bool
  deriving DecidableEq, Repr

/-- What the host can do to the CORE between steps (00 R8a, 70 R245; log 1, log 13). -/
inductive HostEvent where
  /-- Hand over a command frame. -/
  | frame (F : Frame)
  /-- Raise the hardware reset signal. -/
  | hardwareReset
  deriving DecidableEq, Repr

/-- An answer of the entropy source to one `Draw(n)` (00 R13, 46 R207). -/
inductive EntropyAnswer where
  /-- `ok(r)`, `r` of any value. -/
  | ok (r : Bytes)
  /-- `fail`. -/
  | fail
  deriving DecidableEq, Repr

/-- The architectural state: exactly the seven groups of 10 R20 and nothing else (R43). -/
structure Arch where
  /-- The user sponge. -/
  S : Sponge
  /-- The shadow of `S`. -/
  SS : Shadow
  /-- The vector-MAC instance. -/
  V : VectorMac
  /-- The AEAD-SIV context. -/
  SIV : SivContext
  /-- The AEAD-Stream context. -/
  ST : StreamContext
  /-- The AONT context. -/
  AO : AontContext
  /-- Bit `k` (1..6): a response with status code `k` was given since hardware reset (10 R36). -/
  ERRLOG : Word
  deriving DecidableEq, Repr

/-- What a step takes: the architectural state, and beside it what 10 R43 calls parameters of the step relation and no state,
which a step of type `State → Outcome` finds in its argument (DESIGN CHOICE, log 1, log 3, log 4). `coreStep` (Safety.lean) is
the step with these as arguments. -/
structure State extends Arch where
  /-- The parameters of 00 R10, fixed before the first frame; no step writes them (log 4). -/
  params : Params
  /-- What the host has sent and the CORE has not taken, oldest first (log 1). -/
  inbox : List HostEvent
  /-- The response frames given, oldest first (log 1). -/
  outbox : List Frame
  /-- The entropy source's answers to the coming draws, in order (log 3). -/
  entropy : List EntropyAnswer
  deriving DecidableEq, Repr

/-- `S` after hardware reset. `rate`, `ds`, `fx`, `budget0`, `remain` have no value in 10 R42: DESIGN CHOICE (log 7). -/
def Sponge.reset : Sponge :=
  { A := LaneFile.zero, rate := 0, ds := 0, fx := false, budget0 := 0, remain := 0, dir := .absorbing, pos := 0, cfg := false }

/-- `SS` after hardware reset: not valid; the other fields have no value in 10 R42: DESIGN CHOICE (log 7). -/
def Shadow.reset : Shadow := { toSponge := Sponge.reset, valid := false }

/-- `V` after hardware reset (10 R42). -/
def VectorMac.reset : VectorMac :=
  { valid := false, A := LaneFile.zero, snap := LaneFile.zero, pos := 0, idx := 0, ovf := false }

/-- `SIV` after hardware reset: not valid; `key`, `adlen` have no value in 10 R42: DESIGN CHOICE (log 7). -/
def SivContext.reset : SivContext := { valid := false, key := [], adlen := 0 }

/-- `ST` after hardware reset: not valid; the sub-keys have no value in 10 R42: DESIGN CHOICE (log 7). -/
def StreamContext.reset : StreamContext := { valid := false, hashKey := zeros 32, cipherKey := zeros 32 }

/-- `AO` after hardware reset: the all-zero key, marked as the default (10 R42). -/
def AontContext.reset : AontContext := { key := zeros 32, dflt := true }

/-- The seven groups after hardware reset (10 R42, 70 R245). -/
def Arch.reset : Arch :=
  { S := Sponge.reset, SS := Shadow.reset, V := VectorMac.reset, SIV := SivContext.reset, ST := StreamContext.reset,
    AO := AontContext.reset, ERRLOG := 0 }

/-- The machine with the parameters `p` right after hardware reset: nothing handed over, nothing answered, no draw answered
(DESIGN CHOICE, log 1, log 3). -/
def State.resetWith (p : Params) : State := { toArch := Arch.reset, params := p, inbox := [], outbox := [], entropy := [] }

/-- The machine right after hardware reset at the parameter values of `Params.default` (DESIGN CHOICE, log 4); `State.resetWith`
is the same at every value. -/
def State.reset : State := State.resetWith Params.default

/-- The CORE has no fault that stops it: an error is reported in its response and the next frame is executed normally
(60 R215, R227). So there is no constructor, nobody raises one, and that is safe. -/
inductive Fault where
  deriving DecidableEq, Repr

/-- No meaning for an instruction. -/
inductive Refusal where
  /-- Raised by an arm of `exec` whose instruction has no meaning yet, and by nothing else; safe. -/
  | notModelled (mnemonic : String)
  deriving DecidableEq, Repr

end Sys2Proof.Machine
end

