-- ==== Sys2Proof/Machine/Permutation.lean ====
section
/-! DEFINITION. The lane file's accessors and the permutation Keccak-f on 1600 bits (spec 40 R90 to R99). -/

namespace Sys2Proof.Machine

/-- Column `x` of a row; 0 for a column there is not (log 9). -/
def LaneRow.col (r : LaneRow) : Nat → Lane
  | 0 => r.x0
  | 1 => r.x1
  | 2 => r.x2
  | 3 => r.x3
  | 4 => r.x4
  | _ => 0

/-- Row `y` of a lane file; zero lanes for a row there is not (log 9). -/
def LaneFile.row (A : LaneFile) : Nat → LaneRow
  | 0 => A.y0
  | 1 => A.y1
  | 2 => A.y2
  | 3 => A.y3
  | 4 => A.y4
  | _ => LaneRow.zero

/-- `A[x,y]` (10 R22). -/
def LaneFile.at (A : LaneFile) (x y : Nat) : Lane := (A.row y).col x

/-- `A[i]`, lane `i = x + 5y` (10 R22). -/
def LaneFile.lane (A : LaneFile) (i : Nat) : Lane := A.at (i % 5) (i / 5)

/-- Apply `f` to column `x` of a row. -/
def LaneRow.modify (r : LaneRow) (x : Nat) (f : Lane → Lane) : LaneRow :=
  match x with
  | 0 => { r with x0 := f r.x0 }
  | 1 => { r with x1 := f r.x1 }
  | 2 => { r with x2 := f r.x2 }
  | 3 => { r with x3 := f r.x3 }
  | 4 => { r with x4 := f r.x4 }
  | _ => r

/-- Apply `f` to lane `i = x + 5y`, every other lane unchanged. -/
def LaneFile.modifyLane (A : LaneFile) (i : Nat) (f : Lane → Lane) : LaneFile :=
  match i / 5 with
  | 0 => { A with y0 := A.y0.modify (i % 5) f }
  | 1 => { A with y1 := A.y1.modify (i % 5) f }
  | 2 => { A with y2 := A.y2.modify (i % 5) f }
  | 3 => { A with y3 := A.y3.modify (i % 5) f }
  | 4 => { A with y4 := A.y4.modify (i % 5) f }
  | _ => A

/-- `ROL64(v, n)` (00 R13, 40 R97). -/
def rol64 (v : Lane) (n : Nat) : Lane := v.rotateLeft n

/-- Apply `f x` to the lane of each column `x` of a row. -/
def LaneRow.mapCols (r : LaneRow) (f : Nat → Lane → Lane) : LaneRow :=
  { x0 := f 0 r.x0, x1 := f 1 r.x1, x2 := f 2 r.x2, x3 := f 3 r.x3, x4 := f 4 r.x4 }

/-- Apply `f y` to each row `y`. -/
def LaneFile.mapRows (A : LaneFile) (f : Nat → LaneRow → LaneRow) : LaneFile :=
  { y0 := f 0 A.y0, y1 := f 1 A.y1, y2 := f 2 A.y2, y3 := f 3 A.y3, y4 := f 4 A.y4 }

/-- The column parities `C[x]` of theta, as a row (40 R91). -/
def columnParity (A : LaneFile) : LaneRow :=
  { x0 := A.y0.x0 ^^^ A.y1.x0 ^^^ A.y2.x0 ^^^ A.y3.x0 ^^^ A.y4.x0
    x1 := A.y0.x1 ^^^ A.y1.x1 ^^^ A.y2.x1 ^^^ A.y3.x1 ^^^ A.y4.x1
    x2 := A.y0.x2 ^^^ A.y1.x2 ^^^ A.y2.x2 ^^^ A.y3.x2 ^^^ A.y4.x2
    x3 := A.y0.x3 ^^^ A.y1.x3 ^^^ A.y2.x3 ^^^ A.y3.x3 ^^^ A.y4.x3
    x4 := A.y0.x4 ^^^ A.y1.x4 ^^^ A.y2.x4 ^^^ A.y3.x4 ^^^ A.y4.x4 }

/-- `D[x] = C[(x+4) mod 5] ^ ROL64(C[(x+1) mod 5], 1)` (40 R91). -/
def thetaEffect (C : LaneRow) : LaneRow :=
  { x0 := C.x4 ^^^ rol64 C.x1 1
    x1 := C.x0 ^^^ rol64 C.x2 1
    x2 := C.x1 ^^^ rol64 C.x3 1
    x3 := C.x2 ^^^ rol64 C.x4 1
    x4 := C.x3 ^^^ rol64 C.x0 1 }

/-- theta (40 R91). -/
def theta (A : LaneFile) : LaneFile :=
  let D := thetaEffect (columnParity A)
  A.mapRows fun _ r => r.mapCols fun x v => v ^^^ D.col x

/-- The rotation offsets of rho, by lane index (40 R92). -/
def rhoOffsets : List Nat :=
  [0, 1, 62, 28, 27, 36, 44, 6, 55, 20, 3, 10, 43] ++ [25, 39, 41, 45, 15, 21, 8, 18, 2, 61, 56, 14]

/-- rho (40 R92). -/
def rho (A : LaneFile) : LaneFile :=
  A.mapRows fun y r => r.mapCols fun x v => rol64 v (rhoOffsets.getD (x + 5 * y) 0)

/-- pi: `A'[y, (2x+3y) mod 5] = A[x,y]` (40 R93), written by destination. -/
def pi (A : LaneFile) : LaneFile :=
  { y0 := { x0 := A.y0.x0, x1 := A.y1.x1, x2 := A.y2.x2, x3 := A.y3.x3, x4 := A.y4.x4 }
    y1 := { x0 := A.y0.x3, x1 := A.y1.x4, x2 := A.y2.x0, x3 := A.y3.x1, x4 := A.y4.x2 }
    y2 := { x0 := A.y0.x1, x1 := A.y1.x2, x2 := A.y2.x3, x3 := A.y3.x4, x4 := A.y4.x0 }
    y3 := { x0 := A.y0.x4, x1 := A.y1.x0, x2 := A.y2.x1, x3 := A.y3.x2, x4 := A.y4.x3 }
    y4 := { x0 := A.y0.x2, x1 := A.y1.x3, x2 := A.y2.x4, x3 := A.y3.x0, x4 := A.y4.x1 } }

/-- chi on one row, all five results from the input row (40 R94). -/
def chiRow (r : LaneRow) : LaneRow :=
  { x0 := r.x0 ^^^ (~~~r.x1 &&& r.x2)
    x1 := r.x1 ^^^ (~~~r.x2 &&& r.x3)
    x2 := r.x2 ^^^ (~~~r.x3 &&& r.x4)
    x3 := r.x3 ^^^ (~~~r.x4 &&& r.x0)
    x4 := r.x4 ^^^ (~~~r.x0 &&& r.x1) }

/-- chi (40 R94). -/
def chi (A : LaneFile) : LaneFile := A.mapRows fun _ r => chiRow r

/-- The round constants `RC[ir]` (40 R95). -/
def roundConstants : List Lane :=
  [0x0000000000000001, 0x0000000000008082, 0x800000000000808a, 0x8000000080008000] ++
  [0x000000000000808b, 0x0000000080000001, 0x8000000080008081, 0x8000000000008009] ++
  [0x000000000000008a, 0x0000000000000088, 0x0000000080008009, 0x000000008000000a] ++
  [0x000000008000808b, 0x800000000000008b, 0x8000000000008089, 0x8000000000008003] ++
  [0x8000000000008002, 0x8000000000000080, 0x000000000000800a, 0x800000008000000a] ++
  [0x8000000080008081, 0x8000000000008080, 0x0000000080000001, 0x8000000080008008]

/-- iota: lane 0 only (40 R95). -/
def iota (A : LaneFile) (ir : Nat) : LaneFile :=
  { A with y0 := { A.y0 with x0 := A.y0.x0 ^^^ roundConstants.getD ir 0 } }

/-- `Rnd(A, ir)`: the five steps in order (40 R96). -/
def keccakRound (A : LaneFile) (ir : Nat) : LaneFile := iota (chi (pi (rho (theta A)))) ir

/-- The rounds `ir = 0, 1, ..., n-1`, ascending. -/
def keccakRounds : Nat → LaneFile → LaneFile
  | 0, A => A
  | n + 1, A => keccakRound (keccakRounds n A) n

/-- `KeccakF(A)`: 24 rounds (40 R90). -/
def keccakF (A : LaneFile) : LaneFile := keccakRounds Config.rounds A

end Sys2Proof.Machine
end

