-- ==== Sys2Proof/Machine/Operands.lean ====
section
/-! DEFINITION. The operand forms of the commands: byte strings of the payload, and the 200-byte state operand of the raw
permutation commands as lanes (spec 00 R12, 20 R51, 40 R100). -/

namespace Sys2Proof.Machine

/-- `a XOR b`, bytewise, of two strings of equal length (00 R12). -/
def xorBytes (a b : Bytes) : Bytes := List.zipWith (fun x y => x ^^^ y) a b

/-- `s[i:j]` (00 R12). -/
def slice (s : Bytes) (i j : Nat) : Bytes := (s.drop i).take (j - i)

/-- `byte(v)`: the one-byte string holding `v` (00 R12). -/
def byteString (v : Nat) : Bytes := [BitVec.ofNat 8 v]

/-- The bytes `s[j..j+7]` as a 64-bit little-endian number (20 R51). -/
def lane64At (s : Bytes) (j : Nat) : Lane :=
  (s.getD j 0).setWidth 64 ||| (s.getD (j + 1) 0).setWidth 64 <<< 8 ||| (s.getD (j + 2) 0).setWidth 64 <<< 16 |||
    (s.getD (j + 3) 0).setWidth 64 <<< 24 ||| (s.getD (j + 4) 0).setWidth 64 <<< 32 ||| (s.getD (j + 5) 0).setWidth 64 <<< 40 |||
    (s.getD (j + 6) 0).setWidth 64 <<< 48 ||| (s.getD (j + 7) 0).setWidth 64 <<< 56

/-- `le64(v)` (00 R12). -/
def le64 (v : Lane) : Bytes :=
  [v.extractLsb' 0 8, v.extractLsb' 8 8, v.extractLsb' 16 8, v.extractLsb' 24 8] ++
    [v.extractLsb' 32 8, v.extractLsb' 40 8, v.extractLsb' 48 8, v.extractLsb' 56 8]

/-- The row of the five lanes whose bytes begin at index `j`. -/
def rowOfBytes (s : Bytes) (j : Nat) : LaneRow :=
  { x0 := lane64At s j, x1 := lane64At s (j + 8), x2 := lane64At s (j + 16), x3 := lane64At s (j + 24),
    x4 := lane64At s (j + 32) }

/-- `A[i] = le64 value of st[8i .. 8i+7]` (40 R100). -/
def lanesOfBytes (st : Bytes) : LaneFile :=
  { y0 := rowOfBytes st 0, y1 := rowOfBytes st 40, y2 := rowOfBytes st 80, y3 := rowOfBytes st 120,
    y4 := rowOfBytes st 160 }

/-- The bytes of five lanes. -/
def rowBytes (r : LaneRow) : Bytes := le64 r.x0 ++ le64 r.x1 ++ le64 r.x2 ++ le64 r.x3 ++ le64 r.x4

/-- `le64(B[0]) || ... || le64(B[24])` (40 R100). -/
def bytesOfLanes (B : LaneFile) : Bytes :=
  rowBytes B.y0 ++ rowBytes B.y1 ++ rowBytes B.y2 ++ rowBytes B.y3 ++ rowBytes B.y4

end Sys2Proof.Machine
end

