-- ==== Sys2Proof/Machine/Flags.lean ====
section
/-! DEFINITION. Status codes, the sticky error log, and the status registers as views of the state (spec 10 R36, R37; 30 R79).
The CORE has no carry, zero, sign or overflow flag (10 R26); its one condition flag is the direction. -/

namespace Sys2Proof.Machine

/-- The status of a response (30 R79, 60 R216). -/
inductive Status where
  | ok
  | configError
  | authFail
  | entropyError
  | budgetExceeded
  | phaseError
  | illegal
  deriving DecidableEq, Repr

/-- The status code (30 R79). -/
def Status.code : Status → Nat
  | .ok => 0
  | .configError => 1
  | .authFail => 2
  | .entropyError => 3
  | .budgetExceeded => 4
  | .phaseError => 5
  | .illegal => 6

/-- The `ERRLOG` bit of a status: bit `code` for a non-OK status, none for `OK` (10 R36). -/
def Status.logBit : Status → Word
  | .ok => 0
  | .configError => 0x02
  | .authFail => 0x04
  | .entropyError => 0x08
  | .budgetExceeded => 0x10
  | .phaseError => 0x20
  | .illegal => 0x40

/-- `ERRLOG` after a response: its bit set, every other bit kept (10 R36, 60 R226). -/
def errlogAfter (st : Status) (log : Word) : Word := log ||| st.logBit

/-- A Boolean field as a 32-bit number. -/
def flagWord (b : Bool) : Word := if b then 1 else 0

/-- The encoding of the direction, ABSORBING 0, SQUEEZING 1 (10 R26). -/
def Direction.bit : Direction → Word
  | .absorbing => 0
  | .squeezing => 1

/-- An 8-bit field holding a natural number. -/
def fieldWord (n : Nat) : Word := (BitVec.ofNat 8 n).setWidth 32

/-- Register 0, `SP_CFG` (10 R37). -/
def spCfg (s : State) : Word :=
  if s.S.cfg then s.S.rate.setWidth 32 ||| s.S.ds.setWidth 32 <<< 8 ||| flagWord s.S.fx <<< 16 ||| flagWord s.S.cfg <<< 31
  else 0

/-- Register 1, `SP_STAT` (10 R37). -/
def spStat (s : State) : Word :=
  if s.S.cfg then fieldWord s.S.pos ||| s.S.dir.bit <<< 8 else 0

/-- Register 2, `SP_BUDGET`: 0 when `S.fx = 0` (10 R37). -/
def spBudget (s : State) : Word :=
  if s.S.cfg && s.S.fx then s.S.remain else 0

/-- Register 3, `SS_STAT` (10 R37). -/
def ssStat (s : State) : Word := flagWord s.SS.valid

/-- Register 4, `VM_STAT` (10 R37). -/
def vmStat (s : State) : Word :=
  if s.V.valid then
    fieldWord s.V.idx ||| fieldWord s.V.pos <<< 8 ||| flagWord s.V.ovf <<< 16 ||| flagWord s.V.valid <<< 31
  else 0

/-- Register 5, `CTX_STAT` (10 R37). -/
def ctxStat (s : State) : Word :=
  flagWord s.SIV.valid ||| flagWord s.ST.valid <<< 1 ||| flagWord s.AO.dflt <<< 2

/-- Register 6, `SIV_ADLEN` (10 R37). -/
def sivAdlen (s : State) : Word := if s.SIV.valid then s.SIV.adlen else 0

/-- Register 7, `ERRLOG`, bits 6..1; the unnamed bits read 0 (10 R36, R37). -/
def errlogView (s : State) : Word := s.ERRLOG &&& 0x7e

/-- The value of status register `n`, none for the reserved numbers 8..255 (10 R37). -/
def statusRegister (n : Nat) (s : State) : Option Word :=
  match n with
  | 0 => some (spCfg s)
  | 1 => some (spStat s)
  | 2 => some (spBudget s)
  | 3 => some (ssStat s)
  | 4 => some (vmStat s)
  | 5 => some (ctxStat s)
  | 6 => some (sivAdlen s)
  | 7 => some (errlogView s)
  | _ => none

end Sys2Proof.Machine
end

