-- ==== Sys2Proof/Machine/Ops.lean ====
section
/-! DEFINITION. The shared operations: byte access to a lane file and the sponge primitives (spec 41 R110 to R115), the vector
MAC's construction (42 R140 to R144), the response and the raising of an error (00 R13, 30 R78, 60 R226), the draw of entropy
(46 R207), hardware reset and the taking of a frame (70 R245, 00 R15). -/

namespace Sys2Proof.Machine

/-! ### Byte access and the sponge primitives -/

/-- `MemXor(A, j, b)` (41 R110). -/
def memXor (A : LaneFile) (j : Nat) (b : Byte) : LaneFile :=
  A.modifyLane (j / 8) fun v => v ^^^ (b.setWidth 64 <<< (8 * (j % 8)))

/-- `GetByte(A, j)` (41 R110). -/
def getByte (A : LaneFile) (j : Nat) : Byte := (A.lane (j / 8) >>> (8 * (j % 8))).setWidth 8

/-- One byte of `Absorb`: XOR it in at the cursor, advance, and permute when the block is full (41 R111). -/
def absorbByte (rate : Nat) (c : LaneFile × Nat) (b : Byte) : LaneFile × Nat :=
  if c.2 + 1 = rate then (keccakF (memXor c.1 c.2 b), 0) else (memXor c.1 c.2 b, c.2 + 1)

/-- `Absorb(A, pos, rate, data)`, byte by byte (41 R111). -/
def absorb (A : LaneFile) (pos rate : Nat) (data : Bytes) : LaneFile × Nat :=
  data.foldl (absorbByte rate) (A, pos)

/-- The lanes of `PadPermute(A, pos, rate, d)`; its cursor is 0 (41 R112). -/
def padPermute (A : LaneFile) (pos rate : Nat) (d : Byte) : LaneFile :=
  keccakF (memXor (memXor A pos d) (rate - 1) Config.padLast)

/-- The lanes and cursor a byte is squeezed from: the window is renewed when it is used up (41 R113). -/
def refill (rate : Nat) (A : LaneFile) (pos : Nat) : LaneFile × Nat :=
  if pos = rate then (keccakF A, 0) else (A, pos)

/-- What `Squeeze` leaves and gives. -/
structure Squeezed where
  A : LaneFile
  pos : Nat
  out : Bytes
  deriving DecidableEq, Repr

/-- `Squeeze(A, pos, rate, n)` (41 R113). -/
def squeeze (A : LaneFile) (pos rate : Nat) : Nat → Squeezed
  | 0 => { A := A, pos := pos, out := [] }
  | n + 1 =>
    let w := refill rate A pos
    let r := squeeze w.1 (w.2 + 1) rate n
    { A := r.A, pos := r.pos, out := getByte w.1 w.2 :: r.out }

/-- `Sponge(rate, d, M, n)`: the whole function of a fresh instance (41 R114). -/
def spongeFn (rate : Nat) (d : Byte) (M : Bytes) (n : Nat) : Bytes :=
  let a := absorb LaneFile.zero 0 rate M
  (squeeze (padPermute a.1 a.2 rate d) 0 rate n).out

/-- `XOF(M, n) = Sponge(P_XOF_RATE, 0x1f, M, n)` (41 R115). -/
def xof (p : Params) (M : Bytes) (n : Nat) : Bytes := spongeFn p.xofRate Config.dsXof M n

/-! ### The vector MAC -/

/-- `VmPrime(key)` (42 R140). -/
def vmPrime (p : Params) (key : Bytes) : LaneFile :=
  let a := absorb LaneFile.zero 0 p.vmacRate key
  padPermute a.1 a.2 p.vmacRate Config.vmKeySep

/-- `VmSep(i) = (0xff - 2*i) mod 256` (42 R141). -/
def vmSep (i : Nat) : Byte := 0xff - BitVec.ofNat 8 (2 * i)

/-- `VmInput(A, i, x)` (42 R142). -/
def vmInputLanes (p : Params) (A : LaneFile) (i : Nat) (x : Bytes) : LaneFile :=
  let a := absorb A 0 p.vmacRate x
  padPermute a.1 a.2 p.vmacRate (vmSep i)

/-- `VmTag(A, n)` (42 R143). -/
def vmTagBytes (p : Params) (A : LaneFile) (n : Nat) : Bytes := (squeeze A 0 p.vmacRate n).out

/-- The inputs number `i, i+1, ...` absorbed in order (42 R144). -/
def vmInputs (p : Params) : LaneFile → Nat → List Bytes → LaneFile
  | A, _, [] => A
  | A, i, x :: xs => vmInputs p (vmInputLanes p A i x) (i + 1) xs

/-- `VMAC(key, [x0, ..., xk-1], n)` (42 R144). -/
def vmac (p : Params) (key : Bytes) (inputs : List Bytes) (n : Nat) : Bytes :=
  vmTagBytes p (vmInputs p (vmPrime p key) 0 inputs) n

/-- `V` back at the post-key snapshot, copied by value (42 R148, R149; 20 R65). -/
def restoreSnapshot (v : VectorMac) : VectorMac := { v with A := v.snap, pos := 0, idx := 0, ovf := false }

/-! ### The response, and raising an error -/

/-- The `olen` word of a response; a free value where the output's length does not fit 32 bits (30 R78, log 6). -/
def olenWord (out : Bytes) : Word :=
  if out.length < 2 ^ 32 then BitVec.ofNat 32 out.length else Config.oversizeOlen out.length

/-- A response frame `le32(ST) || le32(olen) || out` (30 R78). -/
def responseFrame (st : Status) (out : Bytes) : Frame :=
  le32 (BitVec.ofNat 32 st.code) ++ le32 (olenWord out) ++ out

/-- End of the command being executed: its frame leaves the inbox, its response is given, `ERRLOG` keeps a non-OK status
(00 R15, 10 R36, 30 R78). -/
def finish (st : Status) (out : Bytes) (s : State) : State :=
  { s with ERRLOG := errlogAfter st s.ERRLOG, inbox := s.inbox.tail, outbox := s.outbox ++ [responseFrame st out] }

/-- `respond(out)`: finish with status `OK` (00 R13). -/
def respond (out : Bytes) (s : State) : State := finish .ok out s

/-- `raise <Status>`: end the command, write its `ERRLOG` bit and nothing else, answer with no output bytes (00 R13, 60 R226).
This is the CORE's whole taking of an exception; there is no return from one (60 R227). -/
def raise (st : Status) (s : State) : State := finish st [] s

/-! ### Hardware reset, the entropy port, the taking of a frame -/

/-- Hardware reset (70 R245): every group of 10 R20 at its value of 10 R42. What the host has sent, the responses given, the
entropy source and the parameters are outside the CORE and stay. -/
def hardwareReset (s : State) : State :=
  { s with toArch := Arch.reset }

/-- The command being executed is held by a draw without an answer: nothing changes, unless the hardware reset signal comes,
which loses the command without a response (46 R207, 70 R245; log 3, log 13). -/
def hold (s : State) : State :=
  match s.inbox with
  | _ :: .hardwareReset :: rest => hardwareReset { s with inbox := rest }
  | _ => s

/-- The outcome of `Draw(n)` (00 R13, 46 R207). -/
inductive Drawn where
  /-- The source has not answered. -/
  | waiting
  /-- The source answered `fail`; the state with the answer taken. -/
  | failed (s : State)
  /-- The source answered `ok(r)`; the bytes and the state with the answer taken. -/
  | got (r : Bytes) (s : State)

/-- `Draw(n)`: take the source's next answer. An answer `ok(r)` answers a draw of `len(r)` bytes only; another length is no
answer to this draw (log 3). -/
def draw (n : Nat) (s : State) : Drawn :=
  match s.entropy with
  | [] => .waiting
  | .fail :: rest => .failed { s with entropy := rest }
  | .ok r :: rest => if r.length = n then .got r { s with entropy := rest } else .waiting

/-- What the CORE does next. -/
inductive Fetched where
  /-- Nothing has been handed over. -/
  | idle
  /-- The hardware reset signal; the state with it taken. -/
  | reset (s : State)
  /-- A frame that does not decode (30 R76). -/
  | illegal (why : Illegal)
  /-- A command. -/
  | command (i : Instr)

/-- Look at the oldest thing the host has sent. A frame stays in the inbox until its response is given. -/
def fetch (s : State) : Fetched :=
  match s.inbox with
  | [] => .idle
  | .hardwareReset :: rest => .reset { s with inbox := rest }
  | .frame F :: _ =>
    match decode F with
    | .error why => .illegal why
    | .ok i => .command i

/-- `s` with a word of the opcode table, laid out as a frame, as the next thing the host has sent. -/
def withTableFrame (s : State) (nbits w : Nat) : State :=
  { s with inbox := .frame (frameOfTableWord nbits w) :: s.inbox }

end Sys2Proof.Machine
end

