-- ==== Sys2Proof/Machine/AeadSiv.lean ====
section
/-! DEFINITION. The AEAD-SIV engine (spec 43 R160 to R171). The functions take the counter-mode keystream as an argument; the
commands give them `Config.ctrKeystream` (00 R11). -/

namespace Sys2Proof.Machine

/-- `domain"n"` (43 R161). -/
def domainN : Bytes := [0x6e]
/-- `domain"a"` (43 R161). -/
def domainA : Bytes := [0x61]
/-- `domain"m"` (43 R161). -/
def domainM : Bytes := [0x6d]
/-- `domain"t"` (43 R161). -/
def domainT : Bytes := [0x74]

/-- `SivTag(key, nonce, ad, msg)` (43 R162). -/
def sivTag (p : Params) (key nonce ad msg : Bytes) : Bytes :=
  vmac p key [domainN, nonce, domainA, ad, domainM, msg] Config.sivTagLen

/-- `SivDerive(key, tag)`: the cipher key and the cipher IV (43 R163). -/
def sivDerive (p : Params) (key tag : Bytes) : Bytes × Bytes :=
  let ks := xof p (key ++ domainT ++ tag) (Config.sivCkeyLen + Config.sivCivLen)
  (slice ks 0 Config.sivCkeyLen, slice ks Config.sivCkeyLen (Config.sivCkeyLen + Config.sivCivLen))

/-- `CTR_encrypt` under the key and IV derived from the tag (43 R164); its own inverse. -/
def sivCipher (ctr : Keystream) (p : Params) (key tag m : Bytes) : Bytes :=
  let d := sivDerive p key tag
  xorBytes m (ctr d.1 d.2 m.length)

/-- `SivSeal(key, nonce, ad, msg)`: the ciphertext and the tag (43 R165). -/
def sivSealFn (ctr : Keystream) (p : Params) (key nonce ad msg : Bytes) : Bytes × Bytes :=
  let tag := sivTag p key nonce ad msg
  (sivCipher ctr p key tag msg, tag)

/-- `SivUnseal(key, nonce, ad, ct, tag)`; none is AuthenticationFailure, and the candidate is dropped (43 R166). -/
def sivUnsealFn (ctr : Keystream) (p : Params) (key nonce ad ct tag : Bytes) : Option Bytes :=
  if tag.length ≠ Config.sivTagLen then none
  else
    let cand := sivCipher ctr p key tag ct
    if sivTag p key nonce ad cand = tag then some cand else none

/-- `SIV.CTX adlen ; key` (43 R167). -/
def execSivCtx (key : Bytes) (adlen : Word) (s : State) : Host.Outcome State Fault Refusal :=
  if key.length = 0 then .next (raise .configError s)
  else .next (respond [] { s with SIV := { valid := true, key := key, adlen := adlen } })

/-- `SIV.SEAL ; nonce, ad, msg` (43 R168); output `tag[24] || ct`. -/
def execSivSeal (nonce ad msg : Bytes) (s : State) : Host.Outcome State Fault Refusal :=
  if s.SIV.valid = false then .next (raise .phaseError s)
  else if ad.length ≠ s.SIV.adlen.toNat then .next (raise .configError s)
  else
    let r := sivSealFn Config.ctrKeystream s.params s.SIV.key nonce ad msg
    .next (respond (r.2 ++ r.1) s)

/-- `SIV.UNSEAL ; nonce, ad, tag, ct` (43 R169). -/
def execSivUnseal (nonce ad tag ct : Bytes) (s : State) : Host.Outcome State Fault Refusal :=
  if s.SIV.valid = false then .next (raise .phaseError s)
  else if ad.length ≠ s.SIV.adlen.toNat then .next (raise .configError s)
  else
    match sivUnsealFn Config.ctrKeystream s.params s.SIV.key nonce ad ct tag with
    | none => .next (raise .authFail s)
    | some msg => .next (respond msg s)

end Sys2Proof.Machine
end

