-- ==== Sys2Proof/Machine/AeadStream.lean ====
section
/-! DEFINITION. The AEAD-Stream engine (spec 44 R175 to R183). The functions take the stream cipher's keystream as an argument;
the commands give them `Config.streamKeystream` (00 R11). -/

namespace Sys2Proof.Machine

/-- `StCtx(key, cnonce)`: the hash key and the cipher key (44 R176). -/
def stCtxFn (p : Params) (key cnonce : Bytes) : Bytes × Bytes :=
  let ks := xof p (key ++ cnonce) (Config.stSubkeyLen + Config.stSubkeyLen)
  (slice ks 0 Config.stSubkeyLen, slice ks Config.stSubkeyLen (Config.stSubkeyLen + Config.stSubkeyLen))

/-- `StIv(hk, nonce, ad)` (44 R177). -/
def stIv (p : Params) (hk nonce ad : Bytes) : Bytes := xof p (hk ++ nonce ++ ad) p.streamIvLen

/-- `StTag(hk, nonce, ad, ct)` (44 R178). -/
def stTag (p : Params) (hk nonce ad ct : Bytes) : Bytes := xof p (hk ++ nonce ++ ad ++ ct) Config.stTagLen

/-- `StSeal(hk, ck, nonce, ad, pt)`: `nonce || tag || ct` (44 R179). -/
def stSealFn (str : Keystream) (p : Params) (hk ck nonce ad pt : Bytes) : Bytes :=
  let ct := xorBytes pt (str ck (stIv p hk nonce ad) pt.length)
  nonce ++ stTag p hk nonce ad ct ++ ct

/-- `StOpen(hk, ck, ad, sealed)`; none is AuthenticationFailure (44 R179). -/
def stOpenFn (str : Keystream) (p : Params) (hk ck ad sealed : Bytes) : Option Bytes :=
  if sealed.length < Config.stNonceLen + Config.stTagLen then none
  else
    let nonce := slice sealed 0 Config.stNonceLen
    let tag := slice sealed Config.stNonceLen (Config.stNonceLen + Config.stTagLen)
    let ct := sealed.drop (Config.stNonceLen + Config.stTagLen)
    if stTag p hk nonce ad ct = tag then some (xorBytes ct (str ck (stIv p hk nonce ad) ct.length)) else none

/-- `ST.CTX ; key, cnonce` (44 R180). -/
def execStCtx (key cnonce : Bytes) (s : State) : Host.Outcome State Fault Refusal :=
  if key.length = 0 then .next (raise .configError s)
  else
    let k := stCtxFn s.params key cnonce
    .next (respond [] { s with ST := { valid := true, hashKey := k.1, cipherKey := k.2 } })

/-- `ST.SEAL ; ad, pt`, with the per-message nonce drawn (44 R181). -/
def execStSeal (ad pt : Bytes) (s : State) : Host.Outcome State Fault Refusal :=
  if s.ST.valid = false then .next (raise .phaseError s)
  else
    match draw Config.stNonceLen s with
    | .waiting => .next (hold s)
    | .failed t => .next (raise .entropyError t)
    | .got nonce t => .next (respond (stSealFn Config.streamKeystream s.params s.ST.hashKey s.ST.cipherKey nonce ad pt) t)

/-- `ST.OPEN ; ad, sealed` (44 R182). -/
def execStOpen (ad sealed : Bytes) (s : State) : Host.Outcome State Fault Refusal :=
  if s.ST.valid = false then .next (raise .phaseError s)
  else
    match stOpenFn Config.streamKeystream s.params s.ST.hashKey s.ST.cipherKey ad sealed with
    | none => .next (raise .authFail s)
    | some pt => .next (respond pt s)

end Sys2Proof.Machine
end

