-- ==== Sys2Proof/Machine/Aont.lean ====
section
/-! DEFINITION. The AONT package engine (spec 45 R190 to R199). The functions take the stream cipher's keystream as an argument;
the commands give them `Config.streamKeystream` (00 R11, 92 D34). -/

namespace Sys2Proof.Machine

/-- `AoDerive(iv)`: the stream key and the stream nonce (45 R191). -/
def aoDerive (p : Params) (iv : Bytes) : Bytes × Bytes :=
  let ks := xof p iv (32 + p.streamIvLen)
  (slice ks 0 32, slice ks 32 (32 + p.streamIvLen))

/-- `AoIv(K, t, r, msg)` (45 R192). -/
def aoIv (p : Params) (K : Bytes) (t : Nat) (r msg : Bytes) : Bytes := vmac p K [byteString t, r, msg] t

/-- `AoMask(K, t, ct)` (45 R192). -/
def aoMask (p : Params) (K : Bytes) (t : Nat) (ct : Bytes) : Bytes := vmac p K [byteString t, ct] t

/-- The message XOR the keystream derived from `iv` (45 R193, R194); its own inverse. -/
def aoCipher (str : Keystream) (p : Params) (iv m : Bytes) : Bytes :=
  let d := aoDerive p iv
  xorBytes m (str d.1 d.2 m.length)

/-- `AoPackage(K, t, r, msg)`: `ct || tag` (45 R193). -/
def aoPackageFn (str : Keystream) (p : Params) (K : Bytes) (t : Nat) (r msg : Bytes) : Bytes :=
  let iv := aoIv p K t r msg
  let ct := aoCipher str p iv msg
  ct ++ xorBytes iv (aoMask p K t ct)

/-- `AoUnpackage(K, t, ct, tag)`: it compares nothing and cannot fail (45 R194, 90 C2). -/
def aoUnpackageFn (str : Keystream) (p : Params) (K : Bytes) (t : Nat) (ct tag : Bytes) : Bytes :=
  aoCipher str p (xorBytes tag (aoMask p K t ct)) ct

/-- `AO.KEY ; key` (45 R196). -/
def execAoKey (key : Bytes) (s : State) : Host.Outcome State Fault Refusal :=
  if key.length ≠ Config.aoKeyLen then .next (raise .configError s)
  else .next (respond [] { s with AO := { key := key, dflt := false } })

/-- `AO.PACKAGE tlen ; msg`, with the IV's random string drawn (45 R197). -/
def execAoPackage (tlen : Byte) (msg : Bytes) (s : State) : Host.Outcome State Fault Refusal :=
  if tlen.toNat < Config.aoTagMin then .next (raise .configError s)
  else
    match draw tlen.toNat s with
    | .waiting => .next (hold s)
    | .failed t => .next (raise .entropyError t)
    | .got r t => .next (respond (aoPackageFn Config.streamKeystream s.params s.AO.key tlen.toNat r msg) t)

/-- `AO.UNPACKAGE ; ct, tag`, `tlen` the length of the tag (45 R198). -/
def execAoUnpackage (ct tag : Bytes) (s : State) : Host.Outcome State Fault Refusal :=
  if tag.length < Config.aoTagMin then .next (raise .configError s)
  else .next (respond (aoUnpackageFn Config.streamKeystream s.params s.AO.key tag.length ct tag) s)

end Sys2Proof.Machine
end

