-- ==== Sys2Proof/Machine/KeccakF.lean ====
section
/-! DEFINITION. The raw permutation commands `KF.PERMUTE` and `KF.ROUND` (spec 40 R100, R101). They touch no lane file. -/

namespace Sys2Proof.Machine

/-- `KF.PERMUTE ; st` (40 R100). -/
def execKfPermute (st : Bytes) (s : State) : Host.Outcome State Fault Refusal :=
  .next (respond (bytesOfLanes (keccakF (lanesOfBytes st))) s)

/-- `KF.ROUND ir ; st` (40 R101). -/
def execKfRound (ir : Byte) (st : Bytes) (s : State) : Host.Outcome State Fault Refusal :=
  if ir.toNat > 23 then .next (raise .configError s)
  else .next (respond (bytesOfLanes (keccakRound (lanesOfBytes st) ir.toNat)) s)

end Sys2Proof.Machine
end

