-- ==== Sys2Proof/Machine/SpongeCommands.lean ====
section
/-! DEFINITION. The commands of the user sponge (spec 41 R117 to R123, R124). -/

namespace Sys2Proof.Machine

/-- `SP.INIT rate, ds, fx, budget` (41 R117). -/
def execSpInit (rate ds : Byte) (fx : Bool) (budget : Word) (s : State) : Host.Outcome State Fault Refusal :=
  if rate.toNat < Config.rateMin ∨ rate.toNat > Config.rateMax then .next (raise .configError s)
  else if fx = false ∧ budget ≠ 0 then .next (raise .configError s)
  else
    .next (respond []
      { s with S := { A := LaneFile.zero, rate := rate, ds := ds, fx := fx, budget0 := budget, remain := budget,
                      dir := .absorbing, pos := 0, cfg := true } })

/-- `SP.ABSORB ; data` (41 R118). -/
def execSpAbsorb (data : Bytes) (s : State) : Host.Outcome State Fault Refusal :=
  if s.S.cfg = false then .next (raise .phaseError s)
  else if s.S.dir = .squeezing then .next (raise .phaseError s)
  else
    let a := absorb s.S.A s.S.pos s.S.rate.toNat data
    .next (respond [] { s with S := { s.S with A := a.1, pos := a.2 } })

/-- `pad_and_switch` with domain byte `d`: pad, permute, cursor 0, direction SQUEEZING (41 R112, R119, R120). -/
def padAndSwitch (d : Byte) (S : Sponge) : Sponge :=
  { S with A := padPermute S.A S.pos S.rate.toNat d, pos := 0, dir := .squeezing }

/-- `SP.PAD dsb` (41 R119). -/
def execSpPad (dsb : Byte) (s : State) : Host.Outcome State Fault Refusal :=
  if s.S.cfg = false then .next (raise .phaseError s)
  else if s.S.dir = .squeezing then .next (raise .phaseError s)
  else .next (respond [] { s with S := padAndSwitch dsb s.S })

/-- The sponge a squeeze starts from: padded with its own `ds` when it is still absorbing (41 R120). -/
def readyToSqueeze (S : Sponge) : Sponge :=
  match S.dir with
  | .absorbing => padAndSwitch S.ds S
  | .squeezing => S

/-- How many bytes a squeeze of `olen` gives: all for an instance without a budget, else at most what remains (41 R120, R127). -/
def squeezeCount (S : Sponge) (olen : Word) : Nat :=
  if S.fx = true ∧ olen.toNat > S.remain.toNat then S.remain.toNat else olen.toNat

/-- `S.remain` after `n` bytes were given: it counts down only for a fixed-output instance (41 R120). -/
def remainAfter (S : Sponge) (n : Nat) : Word :=
  if S.fx = true then BitVec.ofNat 32 (S.remain.toNat - n) else S.remain

/-- `SP.SQUEEZE olen` (41 R120). -/
def execSpSqueeze (olen : Word) (s : State) : Host.Outcome State Fault Refusal :=
  if s.S.cfg = false then .next (raise .phaseError s)
  else
    let S1 := readyToSqueeze s.S
    let n := squeezeCount s.S olen
    let q := squeeze S1.A S1.pos S1.rate.toNat n
    let t := { s with S := { S1 with A := q.A, pos := q.pos, remain := remainAfter s.S n } }
    if n < olen.toNat then .next (finish .budgetExceeded q.out t)
    else .next (respond q.out t)

/-- `SP.RESET` (41 R121). -/
def execSpReset (s : State) : Host.Outcome State Fault Refusal :=
  if s.S.cfg = false then .next (raise .phaseError s)
  else
    .next (respond []
      { s with S := { s.S with A := LaneFile.zero, dir := .absorbing, pos := 0, remain := s.S.budget0 } })

/-- `SP.SNAP` (41 R122). -/
def execSpSnap (s : State) : Host.Outcome State Fault Refusal :=
  if s.S.cfg = false then .next (raise .phaseError s)
  else .next (respond [] { s with SS := { toSponge := s.S, valid := true } })

/-- `SP.RESTORE` (41 R123). -/
def execSpRestore (s : State) : Host.Outcome State Fault Refusal :=
  if s.SS.valid = false then .next (raise .phaseError s)
  else .next (respond [] { s with S := s.SS.toSponge })

end Sys2Proof.Machine
end

