-- ==== Sys2Proof/Machine/System.lean ====
section
/-! DEFINITION. The system command `RDSR` (spec 46 R205). -/

namespace Sys2Proof.Machine

/-- `RDSR n` (46 R205). -/
def execRdsr (n : Byte) (s : State) : Host.Outcome State Fault Refusal :=
  match statusRegister n.toNat s with
  | none => .next (raise .configError s)
  | some v => .next (respond (le32 v) s)

end Sys2Proof.Machine
end

