-- ==== Sys2Proof/Machine/VectorMacCommands.lean ====
section
/-! DEFINITION. The commands of the vector MAC (spec 42 R146 to R149). -/

namespace Sys2Proof.Machine

/-- `VM.KEY ; key` (42 R146). -/
def execVmKey (key : Bytes) (s : State) : Host.Outcome State Fault Refusal :=
  if key.length = 0 then .next (raise .configError s)
  else
    let snap := vmPrime s.params key
    .next (respond [] { s with V := { valid := true, A := snap, snap := snap, pos := 0, idx := 0, ovf := false } })

/-- `VM.INPUT ; x`; the refused input beyond the bound sets `V.ovf` (42 R147). -/
def execVmInput (x : Bytes) (s : State) : Host.Outcome State Fault Refusal :=
  if s.V.valid = false then .next (raise .phaseError s)
  else if s.V.ovf = true ∨ s.V.idx ≥ s.params.vmacMaxInputs then
    .next (raise .configError { s with V := { s.V with ovf := true } })
  else
    .next (respond [] { s with V := { s.V with A := vmInputLanes s.params s.V.A s.V.idx x, idx := s.V.idx + 1 } })

/-- `VM.TAG tlen`; both the tag and the failure after a refused input restore the snapshot (42 R148). -/
def execVmTag (tlen : Word) (s : State) : Host.Outcome State Fault Refusal :=
  if s.V.valid = false then .next (raise .phaseError s)
  else if s.V.ovf = true then .next (raise .configError { s with V := restoreSnapshot s.V })
  else .next (respond (vmTagBytes s.params s.V.A tlen.toNat) { s with V := restoreSnapshot s.V })

/-- `VM.RESET` (42 R149). -/
def execVmReset (s : State) : Host.Outcome State Fault Refusal :=
  if s.V.valid = false then .next (raise .phaseError s)
  else .next (respond [] { s with V := restoreSnapshot s.V })

end Sys2Proof.Machine
end

