-- ==== Sys2Proof/Machine/Dispatch.lean ====
section
/-! DEFINITION. The meaning of every command (spec 30 R74): one arm per constructor, one direct call. -/

namespace Sys2Proof.Machine

/-- The effect of a command (spec 40 to 46). -/
def exec (i : Instr) (s : State) : Host.Outcome State Fault Refusal :=
  match i with
  | .kfPermute st => Sys2Proof.Machine.execKfPermute st s
  | .kfRound ir st => Sys2Proof.Machine.execKfRound ir st s
  | .spInit rate ds fx budget => Sys2Proof.Machine.execSpInit rate ds fx budget s
  | .spAbsorb data => Sys2Proof.Machine.execSpAbsorb data s
  | .spPad dsb => Sys2Proof.Machine.execSpPad dsb s
  | .spSqueeze olen => Sys2Proof.Machine.execSpSqueeze olen s
  | .spReset => Sys2Proof.Machine.execSpReset s
  | .spSnap => Sys2Proof.Machine.execSpSnap s
  | .spRestore => Sys2Proof.Machine.execSpRestore s
  | .vmKey key => Sys2Proof.Machine.execVmKey key s
  | .vmInput x => Sys2Proof.Machine.execVmInput x s
  | .vmTag tlen => Sys2Proof.Machine.execVmTag tlen s
  | .vmReset => Sys2Proof.Machine.execVmReset s
  | .sivCtx key adlen => Sys2Proof.Machine.execSivCtx key adlen s
  | .sivSeal nonce ad msg => Sys2Proof.Machine.execSivSeal nonce ad msg s
  | .sivUnseal nonce ad tag ct => Sys2Proof.Machine.execSivUnseal nonce ad tag ct s
  | .stCtx key cnonce => Sys2Proof.Machine.execStCtx key cnonce s
  | .stSeal ad pt => Sys2Proof.Machine.execStSeal ad pt s
  | .stOpen ad sealed => Sys2Proof.Machine.execStOpen ad sealed s
  | .aoKey key => Sys2Proof.Machine.execAoKey key s
  | .aoPackage tlen msg => Sys2Proof.Machine.execAoPackage tlen msg s
  | .aoUnpackage ct tag => Sys2Proof.Machine.execAoUnpackage ct tag s
  | .rdsr n => Sys2Proof.Machine.execRdsr n s

end Sys2Proof.Machine
end

