-- ==== Sys2Proof/Machine/Step.lean ====
section
/-! DEFINITION. One step of the CORE (spec 00 R15): it takes one thing the host has sent; with nothing sent it waits. -/

namespace Sys2Proof.Machine

/-- One step: wait, take the hardware reset signal (70 R245), answer an illegal frame with `ILLEGAL` (60 R222), or run the
command of the oldest frame. -/
def step (s : State) : Host.Outcome State Fault Refusal :=
  match fetch s with
  | .idle => .next s
  | .reset t => .next (hardwareReset t)
  | .illegal _ => .next (raise .illegal s)
  | .command i => exec i s

/-- `s` with the frame of a table word as what step takes next (log 2). -/
def State.withFetchWord (s : State) (nbits w : Nat) : State := withTableFrame s nbits w

end Sys2Proof.Machine
end

