-- ==== Sys2Proof/Safety.lean ====
section
/-! DEFINITION. What counts as a safe state and a safe step, in the terms the statements use: the invariants of spec 10 R40, what
the host can rely on of a response (60 R215, R226), and when two states hold the same values wherever a value is given (10 R42). -/

namespace Sys2Proof.Machine

/-- I1 to I3 of 10 R40, with the cursor bounds of R25 and the two budgets 0 for an instance without one (R29). -/
abbrev Sponge.Ok (S : Sponge) : Prop :=
  S.cfg = true →
    1 ≤ S.rate.toNat ∧ S.rate.toNat ≤ 200 ∧ S.pos ≤ S.rate.toNat ∧ (S.dir = .absorbing → S.pos < S.rate.toNat) ∧
      (S.fx = true → S.remain.toNat ≤ S.budget0.toNat) ∧ (S.fx = false → S.budget0 = 0 ∧ S.remain = 0)

/-- I6 of 10 R40: a valid shadow is a configured sponge that meets I1 to I3. -/
abbrev Shadow.Ok (SS : Shadow) : Prop := SS.valid = true → SS.cfg = true ∧ SS.toSponge.Ok

/-- I4 and I5 of 10 R40. -/
abbrev VectorMac.Ok (p : Params) (v : VectorMac) : Prop :=
  v.valid = true → v.pos = 0 ∧ v.idx ≤ p.vmacMaxInputs ∧ (v.idx = 0 → v.ovf = false → v.A = v.snap)

/-- `1 <= SIV.klen <= P_KEY_MAX` (10 R33). -/
abbrev SivContext.Ok (c : SivContext) : Prop := c.valid = true → 1 ≤ c.key.length ∧ c.key.length ≤ Config.keyMax

/-- Two sub-keys of 32 bytes (10 R34). -/
abbrev StreamContext.Ok (c : StreamContext) : Prop := c.valid = true → c.hashKey.length = 32 ∧ c.cipherKey.length = 32

/-- A key of 32 bytes; I7 of 10 R40: all zero while it is the default. -/
abbrev AontContext.Ok (c : AontContext) : Prop := c.key.length = 32 ∧ (c.dflt = true → c.key = zeros 32)

/-- Bit 0 and bits 7..31 of `ERRLOG` are 0 (10 R36). -/
abbrev ErrlogOk (log : Word) : Prop := log &&& 0xffffff81 = 0

/-- The invariant of the machine (10 R40, R25, R29, R33 to R36; 00 R10). -/
structure State.Inv (s : State) : Prop where
  params : s.params.Admissible
  sponge : s.S.Ok
  shadow : s.SS.Ok
  vmac : s.V.Ok s.params
  siv : s.SIV.Ok
  stream : s.ST.Ok
  aont : s.AO.Ok
  errlog : ErrlogOk s.ERRLOG

/-- `t` comes from `s` by finishing the command being executed with status `st` and output `out`: its frame is taken, one
response frame is given, `ERRLOG` gains the status's bit (60 R226, 30 R78, 10 R36). -/
structure Answered (st : Status) (out : Bytes) (s t : State) : Prop where
  outbox : t.outbox = s.outbox ++ [responseFrame st out]
  inbox : t.inbox = s.inbox.tail
  errlog : t.ERRLOG = errlogAfter st s.ERRLOG

/-- The state after an `OK` response: the frame taken, the response given, nothing else changed (00 R13, 30 R78). -/
def okResponse (out : Bytes) (s : State) : State :=
  { s with inbox := s.inbox.tail, outbox := s.outbox ++ [responseFrame .ok out] }

/-- The state after an error: the frame taken, `ERRLOG` bit `code` set, an empty response given, nothing else changed
(60 R226, 10 R36). -/
def errorResponse (st : Status) (s : State) : State :=
  { s with ERRLOG := s.ERRLOG ||| (1#32 <<< st.code), inbox := s.inbox.tail, outbox := s.outbox ++ [responseFrame st []] }

/-- The hardware reset signal is not among what the host has sent (70 R245). -/
abbrev NoReset (s : State) : Prop := ∀ e ∈ s.inbox, e ≠ .hardwareReset

/-- The commands run one after another by `exec`; none if one does not answer a next state. -/
def execList : List Instr → State → Option State
  | [], s => some s
  | i :: is, s =>
    match exec i s with
    | .next t => execList is t
    | .fault _ => none
    | .refused _ => none

/-- The bytes given by the `SP.SQUEEZE` commands of a list, counted from the lengths of their response frames (30 R78). -/
def squeezedBytes : List Instr → State → Nat
  | [], _ => 0
  | i :: is, s =>
    match exec i s with
    | .next t => (if i.command.op = .spSqueeze then (t.outbox.getLast?.getD []).length - 8 else 0) + squeezedBytes is t
    | .fault _ => 0
    | .refused _ => 0

/-- The step relation as 10 R43 has it: the parameters, the entropy source's answer (none while it has not answered) and the
command frame are its parameters, the seven groups alone are its state; what it gives is the response frame and the groups after
it, or nothing while a draw is blocked. -/
def coreStep (p : Params) (answer : Option EntropyAnswer) (F : Frame) (a : Arch) : Option (Frame × Arch) :=
  match step { toArch := a, params := p, inbox := [.frame F], outbox := [], entropy := answer.toList } with
  | .next t => t.outbox.head?.map fun response => (response, t.toArch)
  | .fault _ => none
  | .refused _ => none

/-- `Wk`, the `k`-th 32-bit word of a frame; `W0` is the header (30 R70, R82). -/
def frameWord (F : Frame) (k : Nat) : Word :=
  wordOfBytes (F.getD (4 * k) 0) (F.getD (4 * k + 1) 0) (F.getD (4 * k + 2) 0) (F.getD (4 * k + 3) 0)

/-- The family of a command, the high nibble of its opcode (30 R74). -/
def family (i : Instr) : Nat := i.command.op.code.toNat / 16

/-- The table of 60 R221: a command issued to an instance that is not in a phase that allows it. -/
def phaseErrorCause (i : Instr) (s : State) : Prop :=
  match i with
  | .kfPermute _ => False
  | .kfRound _ _ => False
  | .spInit _ _ _ _ => False
  | .spAbsorb _ => s.S.cfg = false ∨ s.S.dir = .squeezing
  | .spPad _ => s.S.cfg = false ∨ s.S.dir = .squeezing
  | .spSqueeze _ => s.S.cfg = false
  | .spReset => s.S.cfg = false
  | .spSnap => s.S.cfg = false
  | .spRestore => s.SS.valid = false
  | .vmKey _ => False
  | .vmInput _ => s.V.valid = false
  | .vmTag _ => s.V.valid = false
  | .vmReset => s.V.valid = false
  | .sivCtx _ _ => False
  | .sivSeal _ _ _ => s.SIV.valid = false
  | .sivUnseal _ _ _ _ => s.SIV.valid = false
  | .stCtx _ _ => False
  | .stSeal _ _ => s.ST.valid = false
  | .stOpen _ _ => s.ST.valid = false
  | .aoKey _ => False
  | .aoPackage _ _ => False
  | .aoUnpackage _ _ => False
  | .rdsr _ => False

/-- The table of 60 R217: an operand value that is not acceptable. -/
def configErrorCause (i : Instr) (s : State) : Prop :=
  match i with
  | .kfPermute _ => False
  | .kfRound ir _ => ir.toNat > 23
  | .spInit rate _ fx budget => rate.toNat = 0 ∨ rate.toNat > 200 ∨ (fx = false ∧ budget ≠ 0)
  | .spAbsorb _ => False
  | .spPad _ => False
  | .spSqueeze _ => False
  | .spReset => False
  | .spSnap => False
  | .spRestore => False
  | .vmKey key => key.length = 0
  | .vmInput _ => s.V.idx ≥ s.params.vmacMaxInputs ∨ s.V.ovf = true
  | .vmTag _ => s.V.ovf = true
  | .vmReset => False
  | .sivCtx key _ => key.length = 0
  | .sivSeal _ ad _ => ad.length ≠ s.SIV.adlen.toNat
  | .sivUnseal _ ad _ _ => ad.length ≠ s.SIV.adlen.toNat
  | .stCtx key _ => key.length = 0
  | .stSeal _ _ => False
  | .stOpen _ _ => False
  | .aoKey key => key.length ≠ 32
  | .aoPackage tlen _ => tlen.toNat < 32
  | .aoUnpackage _ tag => tag.length < 32
  | .rdsr n => n.toNat > 7

/-- Other secrets in the key registers, everything else the same (10 R38). -/
def withKeys (sivKey hashKey cipherKey aoKey : Bytes) (s : State) : State :=
  { s with SIV := { s.SIV with key := sivKey }, ST := { s.ST with hashKey := hashKey, cipherKey := cipherKey },
           AO := { s.AO with key := aoKey } }

/-- The commands that use a key register (43 R168, R169; 44 R181, R182; 45 R197, R198). -/
def usesKey (i : Instr) : Prop :=
  i.command.op ∈ [Op.sivSeal, Op.sivUnseal, Op.stSeal, Op.stOpen, Op.aoPackage, Op.aoUnpackage]

/-- A step that answers nothing because a draw has no answer (46 R207). -/
def WaitsForEntropy (n : Nat) (s : State) : Prop :=
  s.entropy = [] ∨ ∃ r rest, s.entropy = .ok r :: rest ∧ r.length ≠ n

/-- How many bytes a command draws: 24 for `ST.SEAL`, `tlen` for `AO.PACKAGE`, none for the others (46 R207). -/
def drawLength : Instr → Option Nat
  | .stSeal _ _ => some 24
  | .aoPackage tlen _ => some tlen.toNat
  | .kfPermute _ => none
  | .kfRound _ _ => none
  | .spInit _ _ _ _ => none
  | .spAbsorb _ => none
  | .spPad _ => none
  | .spSqueeze _ => none
  | .spReset => none
  | .spSnap => none
  | .spRestore => none
  | .vmKey _ => none
  | .vmInput _ => none
  | .vmTag _ => none
  | .vmReset => none
  | .sivCtx _ _ => none
  | .sivSeal _ _ _ => none
  | .sivUnseal _ _ _ _ => none
  | .stCtx _ _ => none
  | .stOpen _ _ => none
  | .aoKey _ => none
  | .aoUnpackage _ _ => none
  | .rdsr _ => none

/-- Two sponges hold the same values wherever 10 R30 gives them one: the lanes, direction and cursor always, the fields guarded
by `cfg` once it is set. -/
structure Sponge.Agree (S T : Sponge) : Prop where
  cfg : S.cfg = T.cfg
  configured : S.cfg = true → S = T
  lanes : S.A = T.A
  dir : S.dir = T.dir
  pos : S.pos = T.pos

/-- Two states hold the same values wherever 10 R42 gives a value: they may differ in the fields guarded by a flag that is 0. -/
structure State.Agree (s t : State) : Prop where
  sponge : s.S.Agree t.S
  shadowValid : s.SS.valid = t.SS.valid
  shadow : s.SS.valid = true → s.SS = t.SS
  vmac : s.V = t.V
  sivValid : s.SIV.valid = t.SIV.valid
  siv : s.SIV.valid = true → s.SIV = t.SIV
  streamValid : s.ST.valid = t.ST.valid
  stream : s.ST.valid = true → s.ST = t.ST
  aont : s.AO = t.AO
  errlog : s.ERRLOG = t.ERRLOG
  params : s.params = t.params
  inbox : s.inbox = t.inbox
  outbox : s.outbox = t.outbox
  entropy : s.entropy = t.entropy

end Sys2Proof.Machine
end

