-- ==== Sys2Proof/Certificates/Slice0/Obligations.lean ====
section
/-! DEFINITION. The statements for the provers, from the numbered rules of spec/. -/

open Sys2Proof Sys2Proof.Machine

/-! ### Frames (30_encoding.md) -/

/-- 30 R70, R74, R82: the decoder reads back every well-formed command the encoder writes, every operand at every value. For a
command whose frame is longer than 2^32 bytes, which 30 R73 calls ill formed, that it decodes is the model's choice (DESIGN CHOICE,
log 18). -/
def Obligations.DecodeOfEncodeIsTheCommand : Prop :=
  ∀ i : Instr, i.wellFormed = true → decode (encode i) = .ok i

/-- 30 R70, R72, R74, R82: a frame that decodes is the one frame of its command, and the command is well formed. -/
def Obligations.EncodeOfDecodeIsTheFrame : Prop :=
  ∀ (F : Frame) (i : Instr), decode F = .ok i → i.wellFormed = true ∧ encode i = F

/-- 30 R76: the five tests in their order, every other frame is a command; an illegal frame is answered `ILLEGAL` with no
output and changes `ERRLOG` bit 6 only; the rejected values the rule lists decode and the command answers CONFIG_ERROR.
For a frame longer than 2^32 bytes, which 30 R73 calls ill formed, that it decodes when its length is the declared one is the
model's choice (DESIGN CHOICE, log 18). -/
def Obligations.IllegalFramesAreRejectedInOrder : Prop :=
  (∀ F : Frame, F.length < 4 → decode F = .error .shortHeader) ∧
  (∀ F : Frame, 4 ≤ F.length → Op.ofCode (F.getD 3 0) = none → decode F = .error .unknownOpcode) ∧
  (∀ (F : Frame) (op : Op), 4 ≤ F.length → Op.ofCode (F.getD 3 0) = some op →
    (frameWord F 0 &&& op.format.mbzMask ≠ 0 → decode F = .error .mustBeZero) ∧
    (frameWord F 0 &&& op.format.mbzMask = 0 →
      (F.length < 4 + 4 * op.format.words → decode F = .error .operandsMissing) ∧
      (4 + 4 * op.format.words ≤ F.length →
        (F.length ≠ 4 + 4 * op.format.words +
            payloadLength op (F.getD 2 0) (F.getD 1 0) [frameWord F 1, frameWord F 2, frameWord F 3] →
          decode F = .error .wrongLength) ∧
        (F.length = 4 + 4 * op.format.words +
            payloadLength op (F.getD 2 0) (F.getD 1 0) [frameWord F 1, frameWord F 2, frameWord F 3] →
          ∃ i : Instr, decode F = .ok i ∧ i.command.op = op)))) ∧
  (∀ (s : State) (F : Frame) (rest : List HostEvent) (why : Illegal),
    s.inbox = .frame F :: rest → decode F = .error why → step s = .next (errorResponse .illegal s)) ∧
  (∀ (ds ir n tlen : Byte) (fx : Bool) (budget : Word) (st msg ct tag : Bytes) (s : State),
    exec (.spInit 0 ds fx budget) s = .next (errorResponse .configError s) ∧
    (23 < ir.toNat → exec (.kfRound ir st) s = .next (errorResponse .configError s)) ∧
    (7 < n.toNat → exec (.rdsr n) s = .next (errorResponse .configError s)) ∧
    (tlen.toNat < 32 → exec (.aoPackage tlen msg) s = .next (errorResponse .configError s)) ∧
    (tag.length < 32 → exec (.aoUnpackage ct tag) s = .next (errorResponse .configError s)))

/-- 30 R75: the opcode map; the other 233 opcode values are illegal. -/
def Obligations.OpcodeMapIsExact : Prop :=
  [Op.kfPermute, .kfRound].map Op.code = [0x01, 0x02] ∧
  [Op.spInit, .spAbsorb, .spPad, .spSqueeze, .spReset, .spSnap, .spRestore].map Op.code =
    [0x10, 0x11, 0x12, 0x13, 0x14, 0x15, 0x16] ∧
  [Op.vmKey, .vmInput, .vmTag, .vmReset].map Op.code = [0x20, 0x21, 0x22, 0x23] ∧
  [Op.sivCtx, .sivSeal, .sivUnseal].map Op.code = [0x30, 0x31, 0x32] ∧
  [Op.stCtx, .stSeal, .stOpen].map Op.code = [0x40, 0x41, 0x42] ∧
  [Op.aoKey, .aoPackage, .aoUnpackage].map Op.code = [0x50, 0x51, 0x52] ∧ Op.rdsr.code = 0x60 ∧
  (∀ op : Op, op ∈ Op.all ∧ Op.ofCode op.code = some op) ∧
  ((List.range 256).filter fun n => (Op.ofCode (BitVec.ofNat 8 n)).isNone).length = 233 ∧
  (∀ (F : Frame) (i : Instr), decode F = .ok i → i.command.op.code = F.getD 3 0) ∧
  (∀ F : Frame, 4 ≤ F.length → Op.ofCode (F.getD 3 0) = none → decode F = .error .unknownOpcode)

/-- 30 R74 and the examples of 41 R117 to R120, 42 R147, R148, 46 R205: frames written out byte by byte, of every opcode group,
decode to their commands. -/
def Obligations.TableWordsDecode : Prop :=
  decode [0x01, 0x06, 0x88, 0x10, 0x20, 0x00, 0x00, 0x00] = .ok (.spInit 136 6 true 32) ∧
  decode [0x00, 0x00, 0x00, 0x11, 0x03, 0x00, 0x00, 0x00, 0x61, 0x62, 0x63] = .ok (.spAbsorb [0x61, 0x62, 0x63]) ∧
  decode [0x00, 0x00, 0x1f, 0x12] = .ok (.spPad 0x1f) ∧
  decode [0x00, 0x00, 0x00, 0x13, 0x20, 0x00, 0x00, 0x00] = .ok (.spSqueeze 32) ∧
  decode [0x00, 0x00, 0x00, 0x21, 0x02, 0x00, 0x00, 0x00, 0x61, 0x62] = .ok (.vmInput [0x61, 0x62]) ∧
  decode [0x00, 0x00, 0x00, 0x22, 0x18, 0x00, 0x00, 0x00] = .ok (.vmTag 24) ∧
  decode ([0x00, 0x00, 0x17, 0x02] ++ zeros 200) = .ok (.kfRound 23 (zeros 200)) ∧
  decode [0x00, 0x00, 0x02, 0x30, 0x03, 0x00, 0x00, 0x00, 0xaa, 0xbb] = .ok (.sivCtx [0xaa, 0xbb] 3) ∧
  decode [0x00, 0x00, 0x01, 0x40, 0x00] = .ok (.stCtx [0x00] []) ∧
  decode [0x00, 0x00, 0x1f, 0x51, 0x00, 0x00, 0x00, 0x00] = .ok (.aoPackage 31 []) ∧
  decode [0x00, 0x00, 0x05, 0x60] = .ok (.rdsr 5) ∧
  decode [0x00, 0x01, 0x00, 0x60] = .error .mustBeZero

/-- 30 R78, R79: a response is `le32(ST) || le32(olen) || out` with the status codes of R79. -/
def Obligations.ResponseFrameLayout : Prop :=
  (∀ (st : Status) (out : Bytes), out.length < 2 ^ 32 →
    responseFrame st out = [BitVec.ofNat 8 st.code, 0, 0, 0] ++ le32 (BitVec.ofNat 32 out.length) ++ out) ∧
  Status.ok.code = 0 ∧ Status.configError.code = 1 ∧ Status.authFail.code = 2 ∧ Status.entropyError.code = 3 ∧
  Status.budgetExceeded.code = 4 ∧ Status.phaseError.code = 5 ∧ Status.illegal.code = 6

/-! ### The state byte view and the permutation (20_memory.md, 40_permutation.md) -/

/-- 20 R51: byte `8i + k` of the view is bits `8k+7..8k` of lane `i`, little-endian, both ways; the 200-byte operands use the
same mapping (R52). -/
def Obligations.StateByteViewIsLittleEndian : Prop :=
  (∀ (A : LaneFile) (i k : Nat), i < 25 → k < 8 →
    getByte A (8 * i + k) = (A.lane i).extractLsb' (8 * k) 8 ∧ (bytesOfLanes A)[8 * i + k]? = some (getByte A (8 * i + k))) ∧
  (∀ (A : LaneFile) (i : Nat), i < 25 →
    (A.lane i).toNat = ((List.range 8).map fun k => (getByte A (8 * i + k)).toNat * 2 ^ (8 * k)).sum) ∧
  (∀ A : LaneFile, (bytesOfLanes A).length = 200 ∧ lanesOfBytes (bytesOfLanes A) = A) ∧
  (∀ st : Bytes, st.length = 200 → bytesOfLanes (lanesOfBytes st) = st)

/-- 40 R91, R94: theta and chi, lane by lane, the rotation by one bit written out (40 R97). -/
def Obligations.ThetaAndChiFormulas : Prop :=
  ∀ (A : LaneFile) (x y : Nat), x < 5 → y < 5 →
    let C (u : Nat) : Lane := A.at u 0 ^^^ A.at u 1 ^^^ A.at u 2 ^^^ A.at u 3 ^^^ A.at u 4
    let D : Lane := C ((x + 4) % 5) ^^^ (C ((x + 1) % 5) <<< 1 ||| C ((x + 1) % 5) >>> 63)
    (theta A).at x y = A.at x y ^^^ D ∧
    (chi A).at x y = A.at x y ^^^ (~~~(A.at ((x + 1) % 5) y) &&& A.at ((x + 2) % 5) y)

/-- 40 R92, R93: rho rotates each lane left by its offset (the rotation as 40 R97 writes it), the offsets follow the generating
rule; pi moves lane `(x, y)` to
`(y, (2x + 3y) mod 5)`, which is the table `p`. -/
def Obligations.RhoOffsetsAndPiPositions : Prop :=
  (∀ (A : LaneFile) (x y : Nat), x < 5 → y < 5 →
    (rho A).at x y = rol64 (A.at x y) (rhoOffsets.getD (x + 5 * y) 0) ∧ (pi A).at y ((2 * x + 3 * y) % 5) = A.at x y) ∧
  (∀ (v : Lane) (n : Nat), 0 < n → n < 64 → rol64 v n = v <<< n ||| v >>> (64 - n)) ∧ (∀ v : Lane, rol64 v 0 = v) ∧
  (∀ A : LaneFile, (rho A).lane 0 = A.lane 0) ∧
  rhoOffsets =
    [0, 1, 62, 28, 27, 36, 44, 6, 55, 20, 3, 10, 43, 25, 39, 41, 45, 15, 21, 8, 18, 2, 61, 56, 14] ∧
  (∀ t : Nat, t < 24 →
    let q := Nat.iterate (fun c : Nat × Nat => (c.2, (2 * c.1 + 3 * c.2) % 5)) t (1, 0)
    rhoOffsets.getD (q.1 + 5 * q.2) 0 = (t + 1) * (t + 2) / 2 % 64) ∧
  (let p := [0, 10, 20, 5, 15, 16, 1, 11, 21, 6, 7, 17, 2, 12, 22, 23, 8, 18, 3, 13, 14, 24, 9, 19, 4]
   (∀ (A : LaneFile) (i : Nat), i < 25 → (pi A).lane (p.getD i 0) = A.lane i) ∧
     p.length = 25 ∧ ∀ k : Nat, k < 25 → k ∈ p)

/-- 40 R95: iota changes lane 0 only, by the constants of the table, which the stated shift register generates. -/
def Obligations.IotaRoundConstants : Prop :=
  (∀ (A : LaneFile) (ir i : Nat), i < 25 →
    (iota A ir).lane i = if i = 0 then A.lane 0 ^^^ roundConstants.getD ir 0 else A.lane i) ∧
  roundConstants =
    [0x0000000000000001, 0x0000000000008082, 0x800000000000808a, 0x8000000080008000, 0x000000000000808b, 0x0000000080000001,
      0x8000000080008081, 0x8000000000008009, 0x000000000000008a, 0x0000000000000088, 0x0000000080008009, 0x000000008000000a,
      0x000000008000808b, 0x800000000000008b, 0x8000000000008089, 0x8000000000008003, 0x8000000000008002, 0x8000000000000080,
      0x000000000000800a, 0x800000008000000a, 0x8000000080008081, 0x8000000000008080, 0x0000000080000001, 0x8000000080008008] ∧
  (∀ ir : Nat, ir < 24 → ∀ b : Nat, b < 64 →
    (roundConstants.getD ir 0).getLsbD b =
      ((List.range 7).any fun j =>
        b == 2 ^ j - 1 &&
          (Nat.iterate (fun v : Nat => if 2 * v ≥ 256 then (2 * v) ^^^ 0x171 else 2 * v) ((j + 7 * ir) % 255) 1).testBit 0))

/-- 40 R90, R96: 24 rounds, the round number ascending from 0, each the five steps in order. -/
def Obligations.PermutationIsTwentyFourRounds : Prop :=
  (∀ A : LaneFile, keccakF A = (List.range 24).foldl keccakRound A) ∧
  (∀ (A : LaneFile) (ir : Nat), keccakRound A ir = iota (chi (pi (rho (theta A)))) ir)

/-! ### The sponge primitives (41_sponge.md section 1) -/

/-- 41 R110, 20 R54, R56: `MemXor` changes the addressed byte of the view and no other; XOR with 0 changes nothing. -/
def Obligations.MemXorTouchesOneByte : Prop :=
  (∀ (A : LaneFile) (j k : Nat) (b : Byte), j < 200 → k < 200 →
    getByte (memXor A j b) k = if k = j then getByte A k ^^^ b else getByte A k) ∧
  (∀ (A : LaneFile) (j : Nat), memXor A j 0 = A)

/-- 41 R111, 20 R57, R58: input that does not fill the block is XORed into the bytes from the cursor on; every other byte of the
rate window and the whole capacity stay. -/
def Obligations.AbsorbWithinABlock : Prop :=
  ∀ (A : LaneFile) (pos rate : Nat) (data : Bytes), pos + data.length < rate → rate ≤ 200 →
    (absorb A pos rate data).2 = pos + data.length ∧
    ∀ k : Nat, k < 200 →
      getByte (absorb A pos rate data).1 k =
        if pos ≤ k ∧ k < pos + data.length then getByte A k ^^^ data.getD (k - pos) 0 else getByte A k

/-- 41 R111: the permutation runs as soon as a block is full and the cursor is the absorbed length modulo the rate. -/
def Obligations.AbsorbPermutesFullBlocks : Prop :=
  (∀ (A : LaneFile) (pos rate : Nat) (data : Bytes), pos < rate → (absorb A pos rate data).2 = (pos + data.length) % rate) ∧
  (∀ (A : LaneFile) (rate : Nat) (data : Bytes), 0 < rate → rate ≤ 200 → data.length = rate →
    ∃ B : LaneFile, absorb A 0 rate data = (keccakF B, 0) ∧
      ∀ k : Nat, k < 200 → getByte B k = if k < rate then getByte A k ^^^ data.getD k 0 else getByte A k)

/-- 41 R112, 20 R57: padding flips the domain byte at the cursor and `0x80` at the last byte of the rate window (both in one
byte when they meet), nothing else, and permutes. -/
def Obligations.PaddingFlipsTwoPositions : Prop :=
  ∀ (A : LaneFile) (pos rate : Nat) (d : Byte), pos < rate → rate ≤ 200 →
    ∃ B : LaneFile, padPermute A pos rate d = keccakF B ∧
      ∀ k : Nat, k < 200 →
        getByte B k = getByte A k ^^^ (if k = pos then d else 0) ^^^ (if k = rate - 1 then 0x80 else 0)

/-- 41 R113, 20 R57: inside the window a squeeze reads the bytes from the cursor on and changes no lane; it permutes only when a
further byte is wanted and the window is used up. -/
def Obligations.SqueezeReadsTheWindow : Prop :=
  (∀ (A : LaneFile) (pos rate n : Nat), pos + n ≤ rate →
    squeeze A pos rate n = { A := A, pos := pos + n, out := (List.range n).map fun k => getByte A (pos + k) }) ∧
  (∀ (A : LaneFile) (rate n : Nat), 0 < rate →
    squeeze A rate rate (n + 1) = squeeze (keccakF A) 0 rate (n + 1))

/-! ### The raw permutation commands (40 R100, R101) -/

/-- 40 R100, R101: the response holds the permuted (rounded) state; a round number above 23 is a CONFIG_ERROR. -/
def Obligations.RawPermutationCommandsRespond : Prop :=
  ∀ (st : Bytes) (s : State), st.length = 200 →
    exec (.kfPermute st) s = .next (okResponse (bytesOfLanes (keccakF (lanesOfBytes st))) s) ∧
    (∀ ir : Byte, ir.toNat ≤ 23 →
      exec (.kfRound ir st) s =
        .next (okResponse (bytesOfLanes (iota (chi (pi (rho (theta (lanesOfBytes st))))) ir.toNat)) s)) ∧
    (∀ ir : Byte, 23 < ir.toNat → exec (.kfRound ir st) s = .next (errorResponse .configError s))

/-- 40 R101: 24 successive `KF.ROUND`, `ir = 0..23`, each fed the output of the one before, equal one `KF.PERMUTE`. -/
def Obligations.RoundCommandsComposeToPermute : Prop :=
  ∀ (sts : Nat → Bytes) (s : State),
    (∀ ir : Nat, ir < 24 → exec (.kfRound (BitVec.ofNat 8 ir) (sts ir)) s = .next (okResponse (sts (ir + 1)) s)) →
      exec (.kfPermute (sts 0)) s = .next (okResponse (sts 24) s)

/-! ### The sponge commands (41_sponge.md sections 2 and 3) -/

/-- 41 R117. -/
def Obligations.SpInitConstructs : Prop :=
  ∀ (rate ds : Byte) (fx : Bool) (budget : Word) (s : State),
    (1 ≤ rate.toNat → rate.toNat ≤ 200 → (fx = false → budget = 0) →
      exec (.spInit rate ds fx budget) s =
        .next (okResponse []
          { s with S := { A := LaneFile.zero, rate := rate, ds := ds, fx := fx, budget0 := budget, remain := budget,
                          dir := .absorbing, pos := 0, cfg := true } })) ∧
    (rate.toNat < 1 ∨ 200 < rate.toNat → exec (.spInit rate ds fx budget) s = .next (errorResponse .configError s)) ∧
    (fx = false → budget ≠ 0 → exec (.spInit rate ds fx budget) s = .next (errorResponse .configError s))

/-- 41 R118: absorbing while ABSORBING; unconfigured or SQUEEZING is a PHASE_ERROR, also for the empty payload. -/
def Obligations.SpAbsorbAbsorbs : Prop :=
  ∀ (data : Bytes) (s : State),
    (s.S.cfg = true → s.S.dir = .absorbing →
      exec (.spAbsorb data) s =
        .next (okResponse []
          { s with S := { s.S with A := (absorb s.S.A s.S.pos s.S.rate.toNat data).1,
                                   pos := (absorb s.S.A s.S.pos s.S.rate.toNat data).2 } })) ∧
    (s.S.cfg = false ∨ s.S.dir = .squeezing → exec (.spAbsorb data) s = .next (errorResponse .phaseError s))

/-- 41 R119: the byte in the command is used, the configured `ds` is not used and not changed, and the cursor is 0. -/
def Obligations.SpPadSwitches : Prop :=
  ∀ (dsb : Byte) (s : State),
    (s.S.cfg = true → s.S.dir = .absorbing →
      exec (.spPad dsb) s =
        .next (okResponse []
          { s with S := { s.S with
            A := keccakF (memXor (memXor s.S.A s.S.pos dsb) (s.S.rate.toNat - 1) 0x80), pos := 0, dir := .squeezing } })) ∧
    (s.S.cfg = false ∨ s.S.dir = .squeezing → exec (.spPad dsb) s = .next (errorResponse .phaseError s))

/-- 41 R120: an absorbing sponge is first padded with its `ds` (also for `olen = 0`); a fixed-output instance gives at most what
remains, with BUDGET_EXCEEDED when that is less than asked. -/
def Obligations.SpSqueezeGivesOutput : Prop :=
  ∀ (olen : Word) (s : State),
    (s.S.cfg = true →
      let rate := s.S.rate.toNat
      let A0 := if s.S.dir = .absorbing then padPermute s.S.A s.S.pos rate s.S.ds else s.S.A
      let p0 := if s.S.dir = .absorbing then 0 else s.S.pos
      let n := if s.S.fx then min olen.toNat s.S.remain.toNat else olen.toNat
      let q := squeeze A0 p0 rate n
      let S1 := { s.S with A := q.A, pos := q.pos, dir := Direction.squeezing,
                           remain := if s.S.fx then s.S.remain - BitVec.ofNat 32 n else s.S.remain }
      q.out.length = n ∧
      exec (.spSqueeze olen) s =
        .next (if n < olen.toNat then
            { s with S := S1, ERRLOG := s.ERRLOG ||| 0x10, inbox := s.inbox.tail,
                     outbox := s.outbox ++ [responseFrame .budgetExceeded q.out] }
          else okResponse q.out { s with S := S1 })) ∧
    (s.S.cfg = false → exec (.spSqueeze olen) s = .next (errorResponse .phaseError s))

/-- 41 R121, R122: `SP.RESET` zeroes lanes, direction and cursor and gives the budget back; `SP.SNAP` copies every field. -/
def Obligations.SpResetAndSnap : Prop :=
  ∀ s : State,
    (s.S.cfg = true →
      exec .spReset s =
        .next (okResponse []
          { s with S := { s.S with A := LaneFile.zero, dir := .absorbing, pos := 0, remain := s.S.budget0 } }) ∧
      exec .spSnap s = .next (okResponse [] { s with SS := { toSponge := s.S, valid := true } })) ∧
    (s.S.cfg = false →
      exec .spReset s = .next (errorResponse .phaseError s) ∧ exec .spSnap s = .next (errorResponse .phaseError s))

/-- 41 R123: `SP.RESTORE` copies every field of a valid shadow back and leaves the shadow; after `SP.SNAP; X; SP.RESTORE` the
sponge is what it was before, for any commands `X` without `SP.SNAP` (and no hardware reset among what the host sends). -/
def Obligations.SnapThenRestoreReturnsTheSponge : Prop :=
  (∀ s : State, s.SS.valid = true → exec .spRestore s = .next (okResponse [] { s with S := s.SS.toSponge })) ∧
  (∀ s : State, s.SS.valid = false → exec .spRestore s = .next (errorResponse .phaseError s)) ∧
  (∀ (s : State) (X : List Instr), s.S.cfg = true → NoReset s → Instr.spSnap ∉ X →
    ∃ t : State, execList ([.spSnap] ++ X ++ [.spRestore]) s = some t ∧ t.S = s.S)

/-- 41 R128: squeezing `N` bytes one call at a time gives the bytes of one call of `N` (within the budget), and absorbing in
pieces leaves the sponge absorbing whole leaves. The command form and the absorb clause are inferences R128 marks as its own
(from R111, R113, R120), and that the two ways of squeezing leave the same sponge is read from R113 and R120, not from a sentence of
R128. -/
def Obligations.PiecewiseSqueezeAndAbsorb : Prop :=
  (∀ (s : State) (N : Nat), s.S.cfg = true → N < 2 ^ 32 → (s.S.fx = true → N ≤ s.S.remain.toNat) →
    ∃ (out : Bytes) (t u : State), out.length = N ∧
      exec (.spSqueeze (BitVec.ofNat 32 N)) s = .next t ∧ t.outbox = s.outbox ++ [responseFrame .ok out] ∧
      execList (List.replicate N (.spSqueeze 1)) s = some u ∧
      u.outbox = s.outbox ++ out.map (fun b => responseFrame .ok [b]) ∧ (0 < N → u.S = t.S)) ∧
  (∀ (s : State) (x y : Bytes), s.S.cfg = true → s.S.dir = .absorbing →
    ∃ t u : State, exec (.spAbsorb (x ++ y)) s = .next t ∧ execList [.spAbsorb x, .spAbsorb y] s = some u ∧ u.S = t.S)

/-- 41 R127: over any commands that do not construct, reset or restore the sponge, what a configured fixed-output instance gives
and what remains make up what remained at the start; so since `SP.INIT` or `SP.RESET` the bytes given never exceed the budget
(`SP.RESTORE` brings the saved budget back, 41 R123: log 17). -/
def Obligations.SqueezedBytesStayWithinBudget : Prop :=
  ∀ (X : List Instr) (s : State), NoReset s →
    (∀ i ∈ X, i.command.op ≠ .spInit ∧ i.command.op ≠ .spReset ∧ i.command.op ≠ .spRestore) →
      (s.S.cfg = true → s.S.fx = true →
        ∃ u : State, execList X s = some u ∧ squeezedBytes X s + u.S.remain.toNat = s.S.remain.toNat) ∧
      (s.S.cfg = true → s.S.fx = true →
        ∃ t u : State, exec .spReset s = .next t ∧ execList X t = some u ∧
          squeezedBytes X t + u.S.remain.toNat = s.S.budget0.toNat) ∧
      (∀ (rate ds : Byte) (budget : Word), 1 ≤ rate.toNat → rate.toNat ≤ 200 →
        ∃ t u : State, exec (.spInit rate ds true budget) s = .next t ∧ execList X t = some u ∧
          squeezedBytes X t + u.S.remain.toNat = budget.toNat)

/-- 41 R124: there is no transition from SQUEEZING back to ABSORBING other than `SP.RESET`, `SP.INIT` and `SP.RESTORE`; while
squeezing, `SP.ABSORB` and `SP.PAD` change nothing of the sponge. -/
def Obligations.SqueezingEndsOnlyByThreeCommands : Prop :=
  ∀ (i : Instr) (s : State), NoReset s → s.S.dir = .squeezing →
    ∃ t : State, exec i s = .next t ∧
      (t.S.dir = .absorbing → i.command.op = .spReset ∨ i.command.op = .spInit ∨ i.command.op = .spRestore) ∧
      (i.command.op = .spAbsorb ∨ i.command.op = .spPad → t.S = s.S)

/-! ### The vector MAC (42_vector_mac.md) -/

/-- 42 R146, R140: a non-empty key primes the instance, working lanes and snapshot alike; an empty key is a CONFIG_ERROR. -/
def Obligations.VmKeyPrimes : Prop :=
  ∀ (key : Bytes) (s : State),
    (key ≠ [] →
      let rate := s.params.vmacRate
      let a := absorb LaneFile.zero 0 rate key
      let L := padPermute a.1 a.2 rate 0xff
      exec (.vmKey key) s =
        .next (okResponse [] { s with V := { valid := true, A := L, snap := L, pos := 0, idx := 0, ovf := false } })) ∧
    (key = [] → exec (.vmKey key) s = .next (errorResponse .configError s))

/-- 42 R147, R142: an input is absorbed from a block start and ended by its separator; beyond the bound it is refused, sets
`V.ovf` and is not absorbed; before `VM.KEY` it is a PHASE_ERROR. -/
def Obligations.VmInputAbsorbsOrRefuses : Prop :=
  ∀ (x : Bytes) (s : State),
    (s.V.valid = true → s.V.ovf = false → s.V.idx < s.params.vmacMaxInputs →
      let rate := s.params.vmacRate
      let a := absorb s.V.A 0 rate x
      exec (.vmInput x) s =
        .next (okResponse [] { s with V := { s.V with
          A := padPermute a.1 a.2 rate (BitVec.ofInt 8 (0xff - 2 * s.V.idx)), idx := s.V.idx + 1 } })) ∧
    (s.V.valid = true → s.V.ovf = true ∨ s.params.vmacMaxInputs ≤ s.V.idx →
      exec (.vmInput x) s = .next (errorResponse .configError { s with V := { s.V with ovf := true } })) ∧
    (s.V.valid = false → exec (.vmInput x) s = .next (errorResponse .phaseError s))

/-- 42 R148, R149, R143: the tag is squeezed from the working lanes and the instance returns to the snapshot; after a refused
input no tag is given and it returns too; `VM.RESET` returns it at once. -/
def Obligations.VmTagAnswersAndRestores : Prop :=
  ∀ (tlen : Word) (s : State),
    let V0 := { s.V with A := s.V.snap, pos := 0, idx := 0, ovf := false }
    (s.V.valid = true → s.V.ovf = false →
      exec (.vmTag tlen) s =
        .next (okResponse (squeeze s.V.A 0 s.params.vmacRate tlen.toNat).out { s with V := V0 })) ∧
    (s.V.valid = true → s.V.ovf = true → exec (.vmTag tlen) s = .next (errorResponse .configError { s with V := V0 })) ∧
    (s.V.valid = true → exec .vmReset s = .next (okResponse [] { s with V := V0 })) ∧
    (s.V.valid = false →
      exec (.vmTag tlen) s = .next (errorResponse .phaseError s) ∧ exec .vmReset s = .next (errorResponse .phaseError s))

/-- 42 R141: the separator of input `i` is `(0xff - 2i) mod 256`, always odd; two inputs have the same one exactly when their
numbers are equal modulo 128. -/
def Obligations.SeparatorsAreOddAndDistinct : Prop :=
  (∀ i : Nat, ((vmSep i).toNat : Int) = (0xff - 2 * (i : Int)) % 256 ∧ (vmSep i).toNat % 2 = 1) ∧
  (∀ i j : Nat, vmSep i = vmSep j ↔ i % 128 = j % 128)

/-- 42 R150, R144: `VM.KEY`, one `VM.INPUT` per input, `VM.TAG`: the tag is `VMAC(key, inputs, tlen)` and the instance is back at
the post-key snapshot, whatever the state before. -/
def Obligations.ComputationGivesTheVmac : Prop :=
  ∀ (key : Bytes) (inputs : List Bytes) (tlen : Word) (s : State), key ≠ [] → inputs.length ≤ s.params.vmacMaxInputs →
    ∃ t : State, execList ([.vmKey key] ++ inputs.map .vmInput ++ [.vmTag tlen]) s = some t ∧
      t.outbox.getLast? = some (responseFrame .ok (vmac s.params key inputs tlen.toNat)) ∧
      t.V = { valid := true, A := vmPrime s.params key, snap := vmPrime s.params key, pos := 0, idx := 0, ovf := false }

/-- 42 R145, R147, R148: with more inputs than the bound the computation gives an error and no tag, and the next one starts
clean. -/
def Obligations.TooManyInputsGiveNoTag : Prop :=
  ∀ (key : Bytes) (inputs : List Bytes) (tlen : Word) (s : State), key ≠ [] → s.params.vmacMaxInputs < inputs.length →
    ∃ t : State, execList ([.vmKey key] ++ inputs.map .vmInput ++ [.vmTag tlen]) s = some t ∧
      t.outbox.getLast? = some (responseFrame .configError []) ∧
      t.V = { valid := true, A := vmPrime s.params key, snap := vmPrime s.params key, pos := 0, idx := 0, ovf := false }

/-! ### AEAD-SIV (43_aead_siv.md) -/

/-- 43 R167. -/
def Obligations.SivContextLoads : Prop :=
  ∀ (key : Bytes) (adlen : Word) (s : State),
    (key ≠ [] → exec (.sivCtx key adlen) s = .next (okResponse [] { s with SIV := { valid := true, key := key, adlen := adlen } })) ∧
    (key = [] → exec (.sivCtx key adlen) s = .next (errorResponse .configError s))

/-- 43 R168, R162, R163, R165: the tag over the six inputs, the keystream from the key and IV derived from it, `tag || ct`. The
keystream is a free value (log 5). -/
def Obligations.SivSealResponds : Prop :=
  ∀ (nonce ad msg : Bytes) (s : State),
    (s.SIV.valid = true → ad.length = s.SIV.adlen.toNat →
      let K := s.SIV.key
      let tag := vmac s.params K [[0x6e], nonce, [0x61], ad, [0x6d], msg] 24
      let ks := xof s.params (K ++ [0x74] ++ tag) 48
      let ct := xorBytes msg (Config.ctrKeystream (ks.take 32) (ks.drop 32) msg.length)
      exec (.sivSeal nonce ad msg) s = .next (okResponse (tag ++ ct) s) ∧ tag.length = 24 ∧ ct.length = msg.length) ∧
    (s.SIV.valid = false → exec (.sivSeal nonce ad msg) s = .next (errorResponse .phaseError s)) ∧
    (s.SIV.valid = true → ad.length ≠ s.SIV.adlen.toNat →
      exec (.sivSeal nonce ad msg) s = .next (errorResponse .configError s))

/-- 43 R169, R166: the candidate is given only when the tag recomputed over it is the supplied one; otherwise, and for a tag that
is not 24 bytes long, AUTH_FAIL with no bytes. -/
def Obligations.SivUnsealResponds : Prop :=
  ∀ (nonce ad tag ct : Bytes) (s : State),
    (s.SIV.valid = true → ad.length = s.SIV.adlen.toNat →
      let K := s.SIV.key
      let ks := xof s.params (K ++ [0x74] ++ tag) 48
      let cand := xorBytes ct (Config.ctrKeystream (ks.take 32) (ks.drop 32) ct.length)
      let tag2 := vmac s.params K [[0x6e], nonce, [0x61], ad, [0x6d], cand] 24
      (tag.length = 24 ∧ tag2 = tag → exec (.sivUnseal nonce ad tag ct) s = .next (okResponse cand s)) ∧
      (tag.length ≠ 24 ∨ tag2 ≠ tag → exec (.sivUnseal nonce ad tag ct) s = .next (errorResponse .authFail s))) ∧
    (s.SIV.valid = false → exec (.sivUnseal nonce ad tag ct) s = .next (errorResponse .phaseError s)) ∧
    (s.SIV.valid = true → ad.length ≠ s.SIV.adlen.toNat →
      exec (.sivUnseal nonce ad tag ct) s = .next (errorResponse .configError s))

/-- 43 R166: what `SIV.SEAL` gives, `SIV.UNSEAL` opens to the message, for every key, nonce, associated data and message. -/
def Obligations.SivUnsealRecoversSealedMessage : Prop :=
  ∀ (nonce ad msg : Bytes) (s : State), s.SIV.valid = true → ad.length = s.SIV.adlen.toNat →
    ∃ tag ct : Bytes, exec (.sivSeal nonce ad msg) s = .next (okResponse (tag ++ ct) s) ∧ tag.length = 24 ∧
      ct.length = msg.length ∧ exec (.sivUnseal nonce ad tag ct) s = .next (okResponse msg s)

/-! ### AEAD-Stream (44_aead_stream.md) -/

/-- 44 R180, R176, with the XOF written out as 41 R114 and R115 give it: absorb from zero lanes at `P_XOF_RATE`, pad with `0x1f`,
squeeze 64 bytes; the first half is the hash key, the second the cipher key. -/
def Obligations.StContextDerives : Prop :=
  ∀ (key cnonce : Bytes) (s : State),
    (key ≠ [] →
      let rate := s.params.xofRate
      let a := absorb LaneFile.zero 0 rate (key ++ cnonce)
      let ks := (squeeze (padPermute a.1 a.2 rate 0x1f) 0 rate 64).out
      exec (.stCtx key cnonce) s =
        .next (okResponse [] { s with ST := { valid := true, hashKey := ks.take 32, cipherKey := ks.drop 32 } })) ∧
    (key = [] → exec (.stCtx key cnonce) s = .next (errorResponse .configError s))

/-- 44 R181, R177, R178, R179: with the drawn nonce, `nonce || tag || ct`; a failing source is an ENTROPY_ERROR with nothing
output and nothing changed but its answer taken; without a context a PHASE_ERROR and no draw; without an answer the command
waits (DESIGN CHOICE of how a blocked draw is shown, log 3). -/
def Obligations.StSealResponds : Prop :=
  ∀ (ad pt : Bytes) (s : State),
    (∀ (nonce : Bytes) (rest : List EntropyAnswer), s.ST.valid = true → s.entropy = .ok nonce :: rest → nonce.length = 24 →
      let iv := xof s.params (s.ST.hashKey ++ nonce ++ ad) s.params.streamIvLen
      let ct := xorBytes pt (Config.streamKeystream s.ST.cipherKey iv pt.length)
      let tag := xof s.params (s.ST.hashKey ++ nonce ++ ad ++ ct) 32
      exec (.stSeal ad pt) s = .next (okResponse (nonce ++ tag ++ ct) { s with entropy := rest })) ∧
    (∀ rest : List EntropyAnswer, s.ST.valid = true → s.entropy = .fail :: rest →
      exec (.stSeal ad pt) s = .next (errorResponse .entropyError { s with entropy := rest })) ∧
    (s.ST.valid = true → WaitsForEntropy 24 s → NoReset s → exec (.stSeal ad pt) s = .next s) ∧
    (s.ST.valid = false → exec (.stSeal ad pt) s = .next (errorResponse .phaseError s))

/-- 44 R182, R179: verify, then decrypt; a sealed string shorter than 56 bytes or another tag is AUTH_FAIL with no bytes. -/
def Obligations.StOpenResponds : Prop :=
  ∀ (ad sealed : Bytes) (s : State),
    (s.ST.valid = true →
      let nonce := sealed.take 24
      let tag := (sealed.drop 24).take 32
      let ct := sealed.drop 56
      let iv := xof s.params (s.ST.hashKey ++ nonce ++ ad) s.params.streamIvLen
      (56 ≤ sealed.length ∧ xof s.params (s.ST.hashKey ++ nonce ++ ad ++ ct) 32 = tag →
        exec (.stOpen ad sealed) s =
          .next (okResponse (xorBytes ct (Config.streamKeystream s.ST.cipherKey iv ct.length)) s)) ∧
      (sealed.length < 56 ∨ xof s.params (s.ST.hashKey ++ nonce ++ ad ++ ct) 32 ≠ tag →
        exec (.stOpen ad sealed) s = .next (errorResponse .authFail s))) ∧
    (s.ST.valid = false → exec (.stOpen ad sealed) s = .next (errorResponse .phaseError s))

/-- 44 R183: what `ST.SEAL` gives, `ST.OPEN` with the same associated data opens to the plaintext, for every drawn nonce. -/
def Obligations.StOpenRecoversSealedPlaintext : Prop :=
  ∀ (ad pt nonce : Bytes) (rest : List EntropyAnswer) (s : State),
    s.ST.valid = true → s.entropy = .ok nonce :: rest → nonce.length = 24 →
      ∃ (sealed : Bytes) (t : State), exec (.stSeal ad pt) s = .next t ∧
        t.outbox = s.outbox ++ [responseFrame .ok sealed] ∧ sealed.length = 56 + pt.length ∧
        exec (.stOpen ad sealed) t = .next (okResponse pt t)

/-! ### The AONT (45_aont.md) -/

/-- 45 R196: exactly 32 bytes; the flag records that a key was supplied. -/
def Obligations.AoKeyLoads : Prop :=
  ∀ (key : Bytes) (s : State),
    (key.length = 32 → exec (.aoKey key) s = .next (okResponse [] { s with AO := { key := key, dflt := false } })) ∧
    (key.length ≠ 32 → exec (.aoKey key) s = .next (errorResponse .configError s))

/-- 45 R197, R191, R192, R193: `ct || tag` from the drawn string; a tag length below 32 is a CONFIG_ERROR and no draw is made; a
failing source is an ENTROPY_ERROR; without an answer the command waits (DESIGN CHOICE, log 3). -/
def Obligations.AoPackageResponds : Prop :=
  ∀ (tlen : Byte) (msg : Bytes) (s : State),
    (∀ (r : Bytes) (rest : List EntropyAnswer), 32 ≤ tlen.toNat → s.entropy = .ok r :: rest → r.length = tlen.toNat →
      let t := tlen.toNat
      let iv := vmac s.params s.AO.key [[tlen], r, msg] t
      let ks := xof s.params iv (32 + s.params.streamIvLen)
      let ct := xorBytes msg (Config.streamKeystream (ks.take 32) (ks.drop 32) msg.length)
      let mask := vmac s.params s.AO.key [[tlen], ct] t
      exec (.aoPackage tlen msg) s = .next (okResponse (ct ++ xorBytes iv mask) { s with entropy := rest })) ∧
    (∀ rest : List EntropyAnswer, 32 ≤ tlen.toNat → s.entropy = .fail :: rest →
      exec (.aoPackage tlen msg) s = .next (errorResponse .entropyError { s with entropy := rest })) ∧
    (32 ≤ tlen.toNat → WaitsForEntropy tlen.toNat s → NoReset s → exec (.aoPackage tlen msg) s = .next s) ∧
    (tlen.toNat < 32 → exec (.aoPackage tlen msg) s = .next (errorResponse .configError s))

/-- 45 R198, R194: the message always, never AUTH_FAIL; a tag shorter than 32 bytes is a CONFIG_ERROR. -/
def Obligations.AoUnpackageResponds : Prop :=
  ∀ (ct tag : Bytes) (s : State), tag.length < 256 →
    (32 ≤ tag.length →
      let mask := vmac s.params s.AO.key [[BitVec.ofNat 8 tag.length], ct] tag.length
      let iv := xorBytes tag mask
      let ks := xof s.params iv (32 + s.params.streamIvLen)
      let msg := xorBytes ct (Config.streamKeystream (ks.take 32) (ks.drop 32) ct.length)
      exec (.aoUnpackage ct tag) s = .next (okResponse msg s) ∧ msg.length = ct.length) ∧
    (tag.length < 32 → exec (.aoUnpackage ct tag) s = .next (errorResponse .configError s))

/-- 45 R199: what `AO.PACKAGE` gives, `AO.UNPACKAGE` opens to the message, for every drawn string. -/
def Obligations.AoUnpackageRecoversPackagedMessage : Prop :=
  ∀ (tlen : Byte) (msg r : Bytes) (rest : List EntropyAnswer) (s : State),
    32 ≤ tlen.toNat → s.entropy = .ok r :: rest → r.length = tlen.toNat →
      ∃ (ct tag : Bytes) (t : State), exec (.aoPackage tlen msg) s = .next t ∧
        t.outbox = s.outbox ++ [responseFrame .ok (ct ++ tag)] ∧ ct.length = msg.length ∧ tag.length = tlen.toNat ∧
        exec (.aoUnpackage ct tag) t = .next (okResponse msg t)

/-! ### The system command and the machine (46_system.md, 10_state.md, 60_exceptions.md, 70_reset_and_hazards.md) -/

/-- 46 R205, 10 R37: every status register, field by field from bit 31 down, read as 0 while its group is not valid; numbers
8..255 are a CONFIG_ERROR. In states no run reaches the fields are shown as log 11 (DEDUCED) says. -/
def Obligations.RdsrReadsStatusRegisters : Prop :=
  ∀ s : State,
    let bit (b : Bool) : BitVec 1 := BitVec.ofBool b
    let pos : Byte := BitVec.ofNat 8 s.S.pos
    let spCfgWord : Word := bit true ++ 0#14 ++ bit s.S.fx ++ s.S.ds ++ s.S.rate
    let spStatWord : Word := 0#23 ++ bit (decide (s.S.dir = .squeezing)) ++ pos
    let vmStatWord : Word := bit true ++ 0#14 ++ bit s.V.ovf ++ (BitVec.ofNat 8 s.V.pos : Byte) ++ (BitVec.ofNat 8 s.V.idx : Byte)
    let ctxStatWord : Word := 0#29 ++ bit s.AO.dflt ++ bit s.ST.valid ++ bit s.SIV.valid
    let errlogWord : Word := 0#25 ++ s.ERRLOG.extractLsb' 1 6 ++ 0#1
    exec (.rdsr 0) s = .next (okResponse (le32 (if s.S.cfg then spCfgWord else 0)) s) ∧
    exec (.rdsr 1) s = .next (okResponse (le32 (if s.S.cfg then spStatWord else 0)) s) ∧
    exec (.rdsr 2) s = .next (okResponse (le32 (if s.S.cfg ∧ s.S.fx then s.S.remain else 0)) s) ∧
    exec (.rdsr 3) s = .next (okResponse (le32 (0#31 ++ bit s.SS.valid)) s) ∧
    exec (.rdsr 4) s = .next (okResponse (le32 (if s.V.valid then vmStatWord else 0)) s) ∧
    exec (.rdsr 5) s = .next (okResponse (le32 ctxStatWord) s) ∧
    exec (.rdsr 6) s = .next (okResponse (le32 (if s.SIV.valid then s.SIV.adlen else 0)) s) ∧
    exec (.rdsr 7) s = .next (okResponse (le32 errlogWord) s) ∧
    (∀ n : Byte, 7 < n.toNat → exec (.rdsr n) s = .next (errorResponse .configError s))

/-- 00 R15, 20 R60: when the oldest thing the host has sent is a frame that decodes, the step is that command's effect; the frame
stays in the inbox until the command's response is given (log 1). -/
def Obligations.StepRunsTheDecodedCommand : Prop :=
  ∀ (s : State) (F : Frame) (rest : List HostEvent) (i : Instr),
    s.inbox = .frame F :: rest → decode F = .ok i → step s = exec i s

/-- 70 R245: the hardware reset signal puts every group at its value after reset (the fields without a value there at the values
the model chose, log 7; the parameters kept, log 4); one that comes while a command is held by a draw loses that command without
a response (DESIGN CHOICE of how the signal and the hold are shown, log 3, log 13). With nothing sent the CORE waits (DESIGN
CHOICE, log 1). -/
def Obligations.StepWaitsOrResets : Prop :=
  (∀ s : State, s.inbox = [] → step s = .next s) ∧
  (∀ (s : State) (rest : List HostEvent), s.inbox = .hardwareReset :: rest →
    step s = .next { s with toArch := Arch.reset, inbox := rest }) ∧
  (∀ (s : State) (F : Frame) (rest : List HostEvent) (i : Instr) (n : Nat),
    s.inbox = .frame F :: .hardwareReset :: rest → decode F = .ok i → drawLength i = some n → WaitsForEntropy n s →
    ¬ phaseErrorCause i s → ¬ configErrorCause i s →
    step s = .next { s with toArch := Arch.reset, inbox := rest })

/-- 10 R42: the values the spec gives for hardware reset (the fields without a value there are the model's choice, log 7, and no
clause is about the value of one); they are the same at every value of the parameters (10 R43). -/
def Obligations.ResetLeavesTheSpecsValues : Prop :=
  State.reset.S.cfg = false ∧ (∀ i : Nat, i < 25 → State.reset.S.A.lane i = 0) ∧ State.reset.S.dir = .absorbing ∧
  State.reset.S.pos = 0 ∧ State.reset.SS.valid = false ∧ State.reset.V.valid = false ∧
  (∀ i : Nat, i < 25 → State.reset.V.A.lane i = 0 ∧ State.reset.V.snap.lane i = 0) ∧ State.reset.V.pos = 0 ∧
  State.reset.V.idx = 0 ∧ State.reset.V.ovf = false ∧ State.reset.SIV.valid = false ∧ State.reset.ST.valid = false ∧
  State.reset.AO.key = zeros 32 ∧ State.reset.AO.dflt = true ∧ State.reset.ERRLOG = 0 ∧
  (∀ p : Params, (State.resetWith p).toArch = State.reset.toArch ∧ (State.resetWith p).params = p) ∧
  State.reset.toArch = Arch.reset

/-- 10 R40: the invariant holds after hardware reset, at every admissible value of the parameters. That it holds of `State.reset`
rests on the values the model chose for them there (DESIGN CHOICE, log 4: 136, 136, 128, and 24 for `P_STREAM_IV_LEN`). -/
def Obligations.ResetStateMeetsInvariant : Prop :=
  (∀ p : Params, p.Admissible → (State.resetWith p).Inv) ∧ State.reset.Inv

/-- 10 R40: I1 to I7 (with the bounds of R25, R29, R33 to R36 they rest on) hold after every step from a state that has them. -/
def Obligations.StepKeepsInvariant : Prop :=
  ∀ s t : State, s.Inv → step s = .next t → t.Inv

/-- 60 R215, R218, R236, 30 R78: every step answers a next state; a frame is answered with exactly one response, whose output is
empty unless the status is OK or BUDGET_EXCEEDED, unless it is a drawing command whose draw has no answer, which changes nothing
or is lost to the hardware reset signal that comes next (DESIGN CHOICE of how a blocked draw and the signal are shown, log 3,
log 13). 10 R43, 00 R15: the response and the groups after it are `coreStep` of the parameters, the source's next answer, the frame
and the groups alone, nothing else of the machine's state reaches them, and the step leaves the parameters; where `coreStep` gives
nothing the command waits. -/
def Obligations.EveryFrameGetsOneResponse : Prop :=
  (∀ (s : State) (F : Frame) (rest : List HostEvent), s.inbox = .frame F :: rest → rest.head? ≠ some .hardwareReset →
    (∃ (response : Frame) (a : Arch) (t : State), coreStep s.params s.entropy.head? F s.toArch = some (response, a) ∧
      step s = .next t ∧ t.toArch = a ∧ t.outbox = s.outbox ++ [response] ∧ t.inbox = rest ∧ t.params = s.params) ∨
    (coreStep s.params s.entropy.head? F s.toArch = none ∧ step s = .next s)) ∧
  ∀ s : State, ∃ t : State, step s = .next t ∧
    ∀ (F : Frame) (rest : List HostEvent), s.inbox = .frame F :: rest →
      (∃ (st : Status) (out : Bytes), Answered st out s t ∧ (st ≠ .ok → st ≠ .budgetExceeded → out = [])) ∨
      (∃ (i : Instr) (n : Nat), decode F = .ok i ∧ drawLength i = some n ∧ WaitsForEntropy n s ∧
        ((rest.head? ≠ some .hardwareReset ∧ t = s) ∨
          ∃ rest' : List HostEvent, rest = .hardwareReset :: rest' ∧
            t = { s with toArch := Arch.reset, inbox := rest' }))

/-- 60 R226: a command that ends in an error changes its `ERRLOG` bit and no group of the architectural state, but for the two
named exceptions. -/
def Obligations.ErrorsChangeNothingElse : Prop :=
  ∀ (i : Instr) (s t : State) (st : Status),
    exec i s = .next t → t.outbox = s.outbox ++ [responseFrame st []] → st ≠ .ok → st ≠ .budgetExceeded →
      t.ERRLOG = s.ERRLOG ||| (1#32 <<< st.code) ∧
      t.S = s.S ∧ t.SS = s.SS ∧ t.SIV = s.SIV ∧ t.ST = s.ST ∧ t.AO = s.AO ∧
      (t.V = s.V ∨
        (i.command.op = .vmInput ∧ st = .configError ∧ t.V = { s.V with ovf := true }) ∨
        (i.command.op = .vmTag ∧ st = .configError ∧
          t.V = { s.V with A := s.V.snap, pos := 0, idx := 0, ovf := false }))

/-- 60 R221: a command answers PHASE_ERROR exactly in the cases of the table, and then changes no state but `ERRLOG` bit 5. -/
def Obligations.PhaseErrorsMatchTheTable : Prop :=
  ∀ (i : Instr) (s : State),
    (phaseErrorCause i s → exec i s = .next (errorResponse .phaseError s)) ∧
    (¬ phaseErrorCause i s → ∀ t : State, exec i s = .next t → t.outbox ≠ s.outbox ++ [responseFrame .phaseError []])

/-- 60 R217, R225: a command answers CONFIG_ERROR exactly in the cases of the table, after the phase check, and then makes no
draw. -/
def Obligations.ConfigErrorsMatchTheTable : Prop :=
  ∀ (i : Instr) (s : State),
    ((∃ t : State, exec i s = .next t ∧ t.outbox = s.outbox ++ [responseFrame .configError []]) ↔
      ¬ phaseErrorCause i s ∧ configErrorCause i s) ∧
    (∀ t : State, exec i s = .next t → t.outbox = s.outbox ++ [responseFrame .configError []] → t.entropy = s.entropy)

/-- 10 R30, R42, 93 U5: a field without a value (its group's flag is 0) is never read: two states that agree wherever a value is
given step alike, responses included, and agree again. -/
def Obligations.UnvaluedFieldsNeverMatter : Prop :=
  ∀ s t s' : State, s.Agree t → step s = .next s' → ∃ t' : State, step t = .next t' ∧ s'.Agree t'

/-- 10 R20, R23, R32 to R36, 20 R64: the engines share no state: a command writes only its own family's groups, only `SP.SNAP`
writes the shadow, only `VM.KEY` the snapshot, only `SIV.CTX`, `ST.CTX`, `AO.KEY` their contexts, and the parameters never
change (DESIGN CHOICE, log 4). -/
def Obligations.EnginesShareNoState : Prop :=
  ∀ (i : Instr) (s : State), NoReset s →
    ∃ t : State, exec i s = .next t ∧
      (family i ≠ 1 → t.S = s.S) ∧ (i.command.op ≠ .spSnap → t.SS = s.SS) ∧ (family i ≠ 2 → t.V = s.V) ∧
      (i.command.op ≠ .vmKey → t.V.snap = s.V.snap ∧ t.V.valid = s.V.valid) ∧
      (i.command.op ≠ .sivCtx → t.SIV = s.SIV) ∧ (i.command.op ≠ .stCtx → t.ST = s.ST) ∧
      (i.command.op ≠ .aoKey → t.AO = s.AO) ∧ t.params = s.params ∧ s.ERRLOG &&& t.ERRLOG = s.ERRLOG

/-- 10 R38: a key register reaches only the commands of the engine that uses it. With another `SIV.key` every command but
`SIV.SEAL` and `SIV.UNSEAL` gives the same response and leaves the same in every other group; so do other `ST` sub-keys and every
command but `ST.SEAL` and `ST.OPEN`, another `AO.key` and every command but `AO.PACKAGE` and `AO.UNPACKAGE`, and all of them and
every command that uses none. -/
def Obligations.KeysReachOnlyTheirEngines : Prop :=
  ∀ (i : Instr) (s : State) (k1 k2 k3 k4 : Bytes),
    let same (t u : State) : Prop :=
      u.outbox = t.outbox ∧ u.inbox = t.inbox ∧ u.entropy = t.entropy ∧ u.S = t.S ∧ u.SS = t.SS ∧ u.V = t.V ∧ u.ERRLOG = t.ERRLOG
    (i.command.op ≠ .sivSeal → i.command.op ≠ .sivUnseal →
      ∃ t u : State, exec i s = .next t ∧ exec i (withKeys k1 s.ST.hashKey s.ST.cipherKey s.AO.key s) = .next u ∧
        same t u ∧ u.ST = t.ST ∧ u.AO = t.AO) ∧
    (i.command.op ≠ .stSeal → i.command.op ≠ .stOpen →
      ∃ t u : State, exec i s = .next t ∧ exec i (withKeys s.SIV.key k2 k3 s.AO.key s) = .next u ∧
        same t u ∧ u.SIV = t.SIV ∧ u.AO = t.AO) ∧
    (i.command.op ≠ .aoPackage → i.command.op ≠ .aoUnpackage →
      ∃ t u : State, exec i s = .next t ∧ exec i (withKeys s.SIV.key s.ST.hashKey s.ST.cipherKey k4 s) = .next u ∧
        same t u ∧ u.SIV = t.SIV ∧ u.ST = t.ST) ∧
    (¬ usesKey i →
      ∃ t u : State, exec i s = .next t ∧ exec i (withKeys k1 k2 k3 k4 s) = .next u ∧ same t u)

/-- 46 R207: `Draw` is performed by `ST.SEAL` (24 bytes) and `AO.PACKAGE` (`tlen` bytes) and by nothing else; a command takes at
most one answer, and one that waits takes none (DESIGN CHOICE: an answer of another length is no answer, log 3). -/
def Obligations.OnlyTwoCommandsDraw : Prop :=
  ∀ (i : Instr) (s t : State), exec i s = .next t →
    (drawLength i = none → t.entropy = s.entropy) ∧
    (∀ n : Nat, drawLength i = some n →
      t.entropy = s.entropy ∨
      (s.entropy.head? = some .fail ∧ t.entropy = s.entropy.tail) ∨
      (∃ r : Bytes, r.length = n ∧ s.entropy.head? = some (.ok r) ∧ t.entropy = s.entropy.tail))

/-- 41 R114, R115: `XOF(M, n)` is the sponge of rate `P_XOF_RATE` and domain byte `0x1f`: absorb from zero lanes, pad, squeeze; and
from every state `SP.INIT rate, ds`, `SP.ABSORB ; M`, `SP.SQUEEZE olen` of an instance without a budget gives that whole function of
a fresh instance, at every rate 1..200 and domain byte, so at `P_XOF_RATE` and `0x1f` the XOF. -/
def Obligations.XofIsASpongeRun : Prop :=
  (∀ (p : Params) (M : Bytes) (n : Nat),
    let a := absorb LaneFile.zero 0 p.xofRate M
    xof p M n = (squeeze (padPermute a.1 a.2 p.xofRate 0x1f) 0 p.xofRate n).out ∧ (xof p M n).length = n) ∧
  (∀ (rate ds : Byte) (M : Bytes) (olen : Word) (s : State), 1 ≤ rate.toNat → rate.toNat ≤ 200 →
    let a := absorb LaneFile.zero 0 rate.toNat M
    let out := (squeeze (padPermute a.1 a.2 rate.toNat ds) 0 rate.toNat olen.toNat).out
    ∃ t : State, execList [.spInit rate ds false 0, .spAbsorb M, .spSqueeze olen] s = some t ∧
      t.outbox = s.outbox ++ [responseFrame .ok [], responseFrame .ok [], responseFrame .ok out]) ∧
  (∀ (M : Bytes) (olen : Word) (s : State), s.params.Admissible →
    ∃ t : State,
      execList [.spInit (BitVec.ofNat 8 s.params.xofRate) 0x1f false 0, .spAbsorb M, .spSqueeze olen] s = some t ∧
        t.outbox.getLast? = some (responseFrame .ok (xof s.params M olen.toNat)))
end

