-- ==== Sys2Proof/Laws/Encoding.lean ====
section
/-! SUPPORT. The small lemmas of frame words, opcodes and the parser. -/

namespace Sys2Proof

@[simp] theorem le32_length (w : Word) : (le32 w).length = 4 := rfl

/-- The bytes of a word put together again (20 R53). -/
@[simp] theorem wordOfBytes_extract (w : Word) :
    wordOfBytes (w.extractLsb' 0 8) (w.extractLsb' 8 8) (w.extractLsb' 16 8) (w.extractLsb' 24 8) = w := by
  ext i hi
  simp only [wordOfBytes, BitVec.getElem_or, BitVec.getElem_shiftLeft, BitVec.getElem_setWidth, BitVec.getLsbD_extractLsb']
  interval_cases i <;> simp

section extract
variable (b0 b1 b2 b3 : Byte)

@[simp] theorem extract0_wordOfBytes : (wordOfBytes b0 b1 b2 b3).extractLsb' 0 8 = b0 := by
  ext i hi
  simp only [wordOfBytes, BitVec.getElem_extractLsb', BitVec.getLsbD_or, BitVec.getLsbD_shiftLeft, BitVec.getLsbD_setWidth]
  interval_cases i <;> simp

@[simp] theorem extract8_wordOfBytes : (wordOfBytes b0 b1 b2 b3).extractLsb' 8 8 = b1 := by
  ext i hi
  simp only [wordOfBytes, BitVec.getElem_extractLsb', BitVec.getLsbD_or, BitVec.getLsbD_shiftLeft, BitVec.getLsbD_setWidth]
  interval_cases i <;> simp [BitVec.getLsbD_of_ge]

@[simp] theorem extract16_wordOfBytes : (wordOfBytes b0 b1 b2 b3).extractLsb' 16 8 = b2 := by
  ext i hi
  simp only [wordOfBytes, BitVec.getElem_extractLsb', BitVec.getLsbD_or, BitVec.getLsbD_shiftLeft, BitVec.getLsbD_setWidth]
  interval_cases i <;> simp [BitVec.getLsbD_of_ge]

@[simp] theorem extract24_wordOfBytes : (wordOfBytes b0 b1 b2 b3).extractLsb' 24 8 = b3 := by
  ext i hi
  simp only [wordOfBytes, BitVec.getElem_extractLsb', BitVec.getLsbD_or, BitVec.getLsbD_shiftLeft, BitVec.getLsbD_setWidth]
  interval_cases i <;> simp [BitVec.getLsbD_of_ge]

/-- The bytes of a word (00 R12). -/
@[simp] theorem le32_wordOfBytes : le32 (wordOfBytes b0 b1 b2 b3) = [b0, b1, b2, b3] := by
  simp [le32]

end extract

/-- The header's bytes: `F[0] = c`, `F[1] = b`, `F[2] = a`, `F[3] = op` (30 R71). -/
@[simp] theorem le32_headerWord (op a b c : Byte) : le32 (headerWord op a b c) = [c, b, a, op] := le32_wordOfBytes c b a op

/-- AND of two words, byte by byte. -/
theorem wordOfBytes_and (b0 b1 b2 b3 c0 c1 c2 c3 : Byte) :
    wordOfBytes b0 b1 b2 b3 &&& wordOfBytes c0 c1 c2 c3 = wordOfBytes (b0 &&& c0) (b1 &&& c1) (b2 &&& c2) (b3 &&& c3) := by
  ext i hi
  simp only [wordOfBytes, BitVec.getElem_and, BitVec.getElem_or, BitVec.getElem_shiftLeft, BitVec.getElem_setWidth,
    BitVec.getLsbD_and]
  interval_cases i <;> simp [BitVec.getLsbD_of_ge]

/-- A word is 0 exactly when its four bytes are. -/
theorem wordOfBytes_eq_zero (b0 b1 b2 b3 : Byte) : wordOfBytes b0 b1 b2 b3 = 0 ↔ b0 = 0 ∧ b1 = 0 ∧ b2 = 0 ∧ b3 = 0 := by
  constructor
  · intro h
    refine ⟨?_, ?_, ?_, ?_⟩
    · simpa using congrArg (BitVec.extractLsb' 0 8) h
    · simpa using congrArg (BitVec.extractLsb' 8 8) h
    · simpa using congrArg (BitVec.extractLsb' 16 8) h
    · simpa using congrArg (BitVec.extractLsb' 24 8) h
  · rintro ⟨rfl, rfl, rfl, rfl⟩; decide

/-- The fields a format does not use, as the must-be-zero test sees them (30 R72, R82). -/
theorem mbz_iff (op a b c : Byte) (f : Format) :
    headerWord op a b c &&& f.mbzMask = 0 ↔
      match f with
      | .Z => a = 0 ∧ b = 0 ∧ c = 0
      | .L1 => a = 0 ∧ b = 0 ∧ c = 0
      | .L2 => a = 0 ∧ b = 0 ∧ c = 0
      | .L3 => a = 0 ∧ b = 0 ∧ c = 0
      | .A1 => b = 0 ∧ c = 0
      | .AL1 => b = 0 ∧ c = 0
      | .AL3 => b = 0 ∧ c = 0
      | .A2 => c = 0
      | .I1 => c &&& 0xfe = 0 := by
  have e0 : (0x00ffffff : Word) = wordOfBytes 0xff 0xff 0xff 0 := by decide
  have e1 : (0x0000ffff : Word) = wordOfBytes 0xff 0xff 0 0 := by decide
  have e2 : (0x000000ff : Word) = wordOfBytes 0xff 0 0 0 := by decide
  have e3 : (0x000000fe : Word) = wordOfBytes 0xfe 0 0 0 := by decide
  have ones : ∀ x : Byte, x &&& 0xff = x := fun x => BitVec.and_allOnes
  have zero : ∀ x : Byte, x &&& 0 = 0 := fun x => BitVec.and_zero
  cases f <;> simp only [Format.mbzMask, e0, e1, e2, e3, headerWord, wordOfBytes_and, wordOfBytes_eq_zero, ones, zero] <;> tauto

/-- The flag field of `SP.INIT` read back. -/
@[simp] theorem flagField_getLsbD (fx : Bool) : (flagField fx).getLsbD 0 = fx := by cases fx <;> rfl

@[simp] theorem flagField_getElem (fx : Bool) : (flagField fx)[0] = fx := by cases fx <;> rfl

theorem flagField_mbz (fx : Bool) : flagField fx &&& 0xfe = 0 := by cases fx <;> rfl

/-- A field `c` whose bits 7..1 are zero is its bit 0 (30 R72, format `I1`). -/
theorem flagField_of_mbz : ∀ c : Byte, c &&& 0xfe = 0 → flagField (c.getLsbD 0) = c := by decide

theorem lenWord_toNat {s : Bytes} (h : fitsWord s = true) : (lenWord s).toNat = s.length := by
  simp only [fitsWord, decide_eq_true_eq] at h
  simpa [lenWord] using h

theorem lenField_toNat {s : Bytes} (h : fitsField s = true) : (lenField s).toNat = s.length := by
  simp only [fitsField, decide_eq_true_eq] at h
  simpa [lenField] using h

/-- A string counted by an operand word is counted by its own length (30 R73). -/
theorem lenWord_of_toNat {s : Bytes} {w : Word} (h : s.length = w.toNat) : lenWord s = w ∧ fitsWord s = true := by
  have := w.isLt
  exact ⟨by simp [lenWord, h], by simp [fitsWord, h]; omega⟩

/-- A string counted by a header field is counted by its own length (30 R71). -/
theorem lenField_of_toNat {s : Bytes} {a : Byte} (h : s.length = a.toNat) : lenField s = a ∧ fitsField s = true := by
  have := a.isLt
  exact ⟨by simp [lenField, h], by simp [fitsField, h]; omega⟩

theorem Op.mem_all (op : Op) : op ∈ Op.all := by cases op <;> decide

@[simp] theorem Op.ofCode_code (op : Op) : Op.ofCode op.code = some op := by cases op <;> decide

/-- A byte names an opcode only if it is that opcode's number (30 R75). -/
theorem Op.code_of_ofCode {b : Byte} {op : Op} (h : Op.ofCode b = some op) : op.code = b := by
  have := List.find?_some h; simpa using this

@[simp] theorem takeWords_zero (rest : Bytes) : takeWords 0 rest = some ([], rest) := rfl

/-- The words written out are the words read (30 R70, R82). -/
theorem takeWords_flatMap : ∀ (words : List Word) (tail : Bytes),
    takeWords words.length (words.flatMap le32 ++ tail) = some (words, tail)
  | [], tail => rfl
  | w :: ws, tail => by
    have ih := takeWords_flatMap ws tail
    simp only [List.length_cons, List.flatMap_cons, le32, List.cons_append, List.nil_append, takeWords, ih,
      wordOfBytes_extract]

/-- The words a frame is cut into, and what follows them, make up the frame again (30 R70). -/
theorem takeWords_some :
    ∀ (n : Nat) (F : Bytes) (words : List Word) (tail : Bytes),
      takeWords n F = some (words, tail) → words.length = n ∧ F = words.flatMap le32 ++ tail
  | 0, F, words, tail, h => by
    simp only [takeWords_zero, Option.some.injEq, Prod.mk.injEq] at h
    obtain ⟨rfl, rfl⟩ := h
    simp
  | n + 1, b0 :: b1 :: b2 :: b3 :: rest, words, tail, h => by
    simp only [takeWords] at h
    split at h
    · rename_i ws tl e
      simp only [Option.some.injEq, Prod.mk.injEq] at h
      obtain ⟨rfl, rfl⟩ := h
      have ih := takeWords_some n rest ws tl e
      simp [ih.1, ih.2]
    · exact absurd h (by simp)
  | _ + 1, [], _, _, h => by simp [takeWords] at h
  | _ + 1, [_], _, _, h => by simp [takeWords] at h
  | _ + 1, [_, _], _, _, h => by simp [takeWords] at h
  | _ + 1, [_, _, _], _, _, h => by simp [takeWords] at h

/-- The operand words are all there exactly when the frame is long enough (30 R76). -/
theorem takeWords_none_iff : ∀ (n : Nat) (F : Bytes), takeWords n F = none ↔ F.length < 4 * n
  | 0, F => by simp
  | n + 1, b0 :: b1 :: b2 :: b3 :: rest => by
    have ih := takeWords_none_iff n rest
    simp only [takeWords, List.length_cons]
    split
    · rename_i e; rw [e] at ih; simp at ih; simp; omega
    · rename_i e; rw [e] at ih; simp at ih; simp; omega
  | n + 1, [] => by simp [takeWords]
  | n + 1, [_] => by simp [takeWords]; omega
  | n + 1, [_, _] => by simp [takeWords]; omega
  | n + 1, [_, _, _] => by simp [takeWords]; omega

/-- Everything a parsed frame says: its bytes, its opcode, the must-be-zero bits and the length (30 R82). -/
theorem parseFrame_ok {F : Frame} {k : Command} (h : parseFrame F = .ok k) :
    F = k.frame ∧ headerWord k.op.code k.a k.b k.c &&& k.op.format.mbzMask = 0 ∧
      k.words.length = k.op.format.words ∧ k.payload.length = payloadLength k.op k.a k.b k.words := by
  unfold parseFrame at h
  split at h
  · rename_i f0 f1 f2 f3 rest
    simp only [extract24_wordOfBytes, extract16_wordOfBytes, extract8_wordOfBytes, extract0_wordOfBytes] at h
    split at h
    · exact absurd h (by simp)
    · rename_i op hop
      split at h
      · exact absurd h (by simp)
      · rename_i hm
        split at h
        · exact absurd h (by simp)
        · rename_i words payload hw
          split at h
          · exact absurd h (by simp)
          · rename_i hl
            simp only [Except.ok.injEq] at h
            subst h
            have hc := Op.code_of_ofCode hop
            have ht := takeWords_some _ _ _ _ hw
            refine ⟨?_, ?_, ht.1, by simpa using hl⟩
            · simp [Command.frame, hc, ht.2]
            · simpa [headerWord, hc] using hm
  · exact absurd h (by simp)

/-- A command's frame parses to its parts when they fit its format (30 R82). -/
theorem parseFrame_frame (k : Command) (hm : headerWord k.op.code k.a k.b k.c &&& k.op.format.mbzMask = 0)
    (hw : k.words.length = k.op.format.words)
    (hl : k.payload.length = payloadLength k.op k.a k.b k.words) : parseFrame k.frame = .ok k := by
  have e : k.frame = k.c :: k.b :: k.a :: k.op.code :: (k.words.flatMap le32 ++ k.payload) := by
    simp [Command.frame]
  rw [e]
  unfold parseFrame
  simp only [extract24_wordOfBytes, extract16_wordOfBytes, extract8_wordOfBytes, extract0_wordOfBytes, Op.ofCode_code]
  rw [if_neg (by simpa [headerWord] using hm), ← hw, takeWords_flatMap]
  simp [hl]

/-- A decoded command comes from a parsed frame. -/
theorem decode_ok {F : Frame} {i : Instr} (h : decode F = .ok i) : ∃ k : Command, parseFrame F = .ok k ∧ k.instr = i := by
  unfold decode at h
  split at h
  · rename_i k e; exact ⟨k, e, by simpa using h⟩
  · exact absurd h (by simp)

end Sys2Proof
end

