-- ==== Sys2Proof/Laws/State.lean ====
section
/-! SUPPORT. What each shared state update leaves and writes, field by field; every lemma is true by rfl. -/

namespace Sys2Proof.Machine

section finish
variable (st : Status) (out : Bytes) (s : State)

@[simp] theorem finish_toArch :
    (finish st out s).toArch = { s.toArch with ERRLOG := errlogAfter st s.ERRLOG } := rfl
@[simp] theorem finish_S : (finish st out s).S = s.S := rfl
@[simp] theorem finish_SS : (finish st out s).SS = s.SS := rfl
@[simp] theorem finish_V : (finish st out s).V = s.V := rfl
@[simp] theorem finish_SIV : (finish st out s).SIV = s.SIV := rfl
@[simp] theorem finish_ST : (finish st out s).ST = s.ST := rfl
@[simp] theorem finish_AO : (finish st out s).AO = s.AO := rfl
@[simp] theorem finish_ERRLOG : (finish st out s).ERRLOG = errlogAfter st s.ERRLOG := rfl
@[simp] theorem finish_params : (finish st out s).params = s.params := rfl
@[simp] theorem finish_inbox : (finish st out s).inbox = s.inbox.tail := rfl
@[simp] theorem finish_outbox : (finish st out s).outbox = s.outbox ++ [responseFrame st out] := rfl
@[simp] theorem finish_entropy : (finish st out s).entropy = s.entropy := rfl

end finish

/-- `respond` is `finish` with `OK`. -/
theorem respond_eq_finish (out : Bytes) (s : State) : respond out s = finish .ok out s := rfl

/-- `raise` is `finish` with no output. -/
theorem raise_eq_finish (st : Status) (s : State) : raise st s = finish st [] s := rfl

section respond
variable (out : Bytes) (s : State)

@[simp] theorem respond_S : (respond out s).S = s.S := rfl
@[simp] theorem respond_SS : (respond out s).SS = s.SS := rfl
@[simp] theorem respond_V : (respond out s).V = s.V := rfl
@[simp] theorem respond_SIV : (respond out s).SIV = s.SIV := rfl
@[simp] theorem respond_ST : (respond out s).ST = s.ST := rfl
@[simp] theorem respond_AO : (respond out s).AO = s.AO := rfl
@[simp] theorem respond_params : (respond out s).params = s.params := rfl
@[simp] theorem respond_inbox : (respond out s).inbox = s.inbox.tail := rfl
@[simp] theorem respond_outbox : (respond out s).outbox = s.outbox ++ [responseFrame .ok out] := rfl
@[simp] theorem respond_entropy : (respond out s).entropy = s.entropy := rfl
@[simp] theorem respond_ERRLOG : (respond out s).ERRLOG = s.ERRLOG := BitVec.or_zero

end respond

section raise
variable (st : Status) (s : State)

@[simp] theorem raise_S : (raise st s).S = s.S := rfl
@[simp] theorem raise_SS : (raise st s).SS = s.SS := rfl
@[simp] theorem raise_V : (raise st s).V = s.V := rfl
@[simp] theorem raise_SIV : (raise st s).SIV = s.SIV := rfl
@[simp] theorem raise_ST : (raise st s).ST = s.ST := rfl
@[simp] theorem raise_AO : (raise st s).AO = s.AO := rfl
@[simp] theorem raise_ERRLOG : (raise st s).ERRLOG = errlogAfter st s.ERRLOG := rfl
@[simp] theorem raise_params : (raise st s).params = s.params := rfl
@[simp] theorem raise_inbox : (raise st s).inbox = s.inbox.tail := rfl
@[simp] theorem raise_outbox : (raise st s).outbox = s.outbox ++ [responseFrame st []] := rfl
@[simp] theorem raise_entropy : (raise st s).entropy = s.entropy := rfl

end raise

section hardwareReset
variable (s : State)

@[simp] theorem hardwareReset_toArch : (hardwareReset s).toArch = Arch.reset := rfl
@[simp] theorem hardwareReset_S : (hardwareReset s).S = Sponge.reset := rfl
@[simp] theorem hardwareReset_SS : (hardwareReset s).SS = Shadow.reset := rfl
@[simp] theorem hardwareReset_V : (hardwareReset s).V = VectorMac.reset := rfl
@[simp] theorem hardwareReset_SIV : (hardwareReset s).SIV = SivContext.reset := rfl
@[simp] theorem hardwareReset_ST : (hardwareReset s).ST = StreamContext.reset := rfl
@[simp] theorem hardwareReset_AO : (hardwareReset s).AO = AontContext.reset := rfl
@[simp] theorem hardwareReset_ERRLOG : (hardwareReset s).ERRLOG = 0 := rfl
@[simp] theorem hardwareReset_params : (hardwareReset s).params = s.params := rfl
@[simp] theorem hardwareReset_inbox : (hardwareReset s).inbox = s.inbox := rfl
@[simp] theorem hardwareReset_outbox : (hardwareReset s).outbox = s.outbox := rfl
@[simp] theorem hardwareReset_entropy : (hardwareReset s).entropy = s.entropy := rfl

end hardwareReset

section resetWith
variable (p : Params)

@[simp] theorem resetWith_toArch : (State.resetWith p).toArch = Arch.reset := rfl
@[simp] theorem resetWith_params : (State.resetWith p).params = p := rfl
@[simp] theorem resetWith_inbox : (State.resetWith p).inbox = [] := rfl
@[simp] theorem resetWith_outbox : (State.resetWith p).outbox = [] := rfl
@[simp] theorem resetWith_entropy : (State.resetWith p).entropy = [] := rfl

end resetWith

section restoreSnapshot
variable (v : VectorMac)

@[simp] theorem restoreSnapshot_valid : (restoreSnapshot v).valid = v.valid := rfl
@[simp] theorem restoreSnapshot_A : (restoreSnapshot v).A = v.snap := rfl
@[simp] theorem restoreSnapshot_snap : (restoreSnapshot v).snap = v.snap := rfl
@[simp] theorem restoreSnapshot_pos : (restoreSnapshot v).pos = 0 := rfl
@[simp] theorem restoreSnapshot_idx : (restoreSnapshot v).idx = 0 := rfl
@[simp] theorem restoreSnapshot_ovf : (restoreSnapshot v).ovf = false := rfl

end restoreSnapshot

section padAndSwitch
variable (d : Byte) (S : Sponge)

@[simp] theorem padAndSwitch_A : (padAndSwitch d S).A = padPermute S.A S.pos S.rate.toNat d := rfl
@[simp] theorem padAndSwitch_rate : (padAndSwitch d S).rate = S.rate := rfl
@[simp] theorem padAndSwitch_ds : (padAndSwitch d S).ds = S.ds := rfl
@[simp] theorem padAndSwitch_fx : (padAndSwitch d S).fx = S.fx := rfl
@[simp] theorem padAndSwitch_budget0 : (padAndSwitch d S).budget0 = S.budget0 := rfl
@[simp] theorem padAndSwitch_remain : (padAndSwitch d S).remain = S.remain := rfl
@[simp] theorem padAndSwitch_dir : (padAndSwitch d S).dir = .squeezing := rfl
@[simp] theorem padAndSwitch_pos : (padAndSwitch d S).pos = 0 := rfl
@[simp] theorem padAndSwitch_cfg : (padAndSwitch d S).cfg = S.cfg := rfl

end padAndSwitch

section withFetchWord
variable (s : State) (nbits w : Nat)

@[simp] theorem withFetchWord_inbox :
    (s.withFetchWord nbits w).inbox = .frame (frameOfTableWord nbits w) :: s.inbox := rfl
@[simp] theorem withFetchWord_outbox : (s.withFetchWord nbits w).outbox = s.outbox := rfl

end withFetchWord

end Sys2Proof.Machine
end

