-- ==== Sys2Proof/Laws/Ops.lean ====
section
/-! SUPPORT. One lemma per shared operation: what it can do, for later proofs to cite instead of unfolding it. -/

namespace Sys2Proof.Machine

/-! ### Byte strings -/

@[simp] theorem zeros_length (n : Nat) : (zeros n).length = n := List.length_replicate

theorem xorBytes_length (a b : Bytes) : (xorBytes a b).length = min a.length b.length := List.length_zipWith

/-- XOR with the same string twice gives the string back. -/
theorem xorBytes_cancel : ∀ (a k : Bytes), a.length ≤ k.length → xorBytes (xorBytes a k) k = a
  | [], _, _ => rfl
  | x :: xs, [], h => absurd h (by simp)
  | x :: xs, y :: ys, h => by
    have ih := xorBytes_cancel xs ys (by simpa using h)
    simp only [xorBytes, List.zipWith_cons_cons, List.cons.injEq] at ih ⊢
    exact ⟨by rw [BitVec.xor_assoc, BitVec.xor_self, BitVec.xor_zero], ih⟩

@[simp] theorem ctrKeystream_length (k iv : Bytes) (n : Nat) : (Config.ctrKeystream k iv n).length = n := by
  simp [Config.ctrKeystream]

@[simp] theorem streamKeystream_length (k iv : Bytes) (n : Nat) : (Config.streamKeystream k iv n).length = n := by
  simp [Config.streamKeystream]

theorem slice_length (s : Bytes) (i j : Nat) (h : j ≤ s.length) : (slice s i j).length = j - i := by
  simp only [slice, List.length_take, List.length_drop]; omega

/-! ### Absorb -/

@[simp] theorem absorb_nil (A : LaneFile) (pos rate : Nat) : absorb A pos rate [] = (A, pos) := rfl

theorem absorb_cons (A : LaneFile) (pos rate : Nat) (b : Byte) (bs : Bytes) :
    absorb A pos rate (b :: bs) = absorb (absorbByte rate (A, pos) b).1 (absorbByte rate (A, pos) b).2 rate bs := rfl

theorem absorb_append (A : LaneFile) (pos rate : Nat) (x y : Bytes) :
    absorb A pos rate (x ++ y) = absorb (absorb A pos rate x).1 (absorb A pos rate x).2 rate y :=
  List.foldl_append

/-- One absorbed byte: the block is full and is permuted, or the cursor advances (41 R111). -/
theorem absorbByte_cases (rate : Nat) (c : LaneFile × Nat) (b : Byte) :
    (c.2 + 1 = rate ∧ absorbByte rate c b = (keccakF (memXor c.1 c.2 b), 0)) ∨
      (c.2 + 1 ≠ rate ∧ absorbByte rate c b = (memXor c.1 c.2 b, c.2 + 1)) := by
  unfold absorbByte; split
  · exact .inl ⟨‹_›, rfl⟩
  · exact .inr ⟨‹_›, rfl⟩

theorem absorbByte_pos_lt (rate : Nat) (c : LaneFile × Nat) (b : Byte) (h : c.2 < rate) :
    (absorbByte rate c b).2 < rate := by
  rcases absorbByte_cases rate c b with ⟨_, e⟩ | ⟨_, e⟩ <;> rw [e] <;> simp <;> omega

/-- `Absorb` ensures `pos < rate` (41 R111). -/
theorem absorb_pos_lt (rate : Nat) :
    ∀ (data : Bytes) (A : LaneFile) (pos : Nat), pos < rate → (absorb A pos rate data).2 < rate
  | [], _, _, h => h
  | b :: bs, A, pos, h => by
    rw [absorb_cons]; exact absorb_pos_lt rate bs _ _ (absorbByte_pos_lt rate (A, pos) b h)

/-! ### Squeeze -/

@[simp] theorem squeeze_zero (A : LaneFile) (pos rate : Nat) : squeeze A pos rate 0 = ⟨A, pos, []⟩ := rfl

theorem squeeze_succ (A : LaneFile) (pos rate n : Nat) :
    squeeze A pos rate (n + 1) =
      ⟨(squeeze (refill rate A pos).1 ((refill rate A pos).2 + 1) rate n).A,
        (squeeze (refill rate A pos).1 ((refill rate A pos).2 + 1) rate n).pos,
        getByte (refill rate A pos).1 (refill rate A pos).2 ::
          (squeeze (refill rate A pos).1 ((refill rate A pos).2 + 1) rate n).out⟩ := rfl

/-- The window is used up and renewed, or is read on (41 R113). -/
theorem refill_cases (rate : Nat) (A : LaneFile) (pos : Nat) :
    (pos = rate ∧ refill rate A pos = (keccakF A, 0)) ∨ (pos ≠ rate ∧ refill rate A pos = (A, pos)) := by
  unfold refill; split
  · exact .inl ⟨‹_›, rfl⟩
  · exact .inr ⟨‹_›, rfl⟩

/-- `Squeeze` gives exactly `n` bytes (41 R113). -/
@[simp] theorem squeeze_out_length (rate : Nat) :
    ∀ (n : Nat) (A : LaneFile) (pos : Nat), (squeeze A pos rate n).out.length = n
  | 0, _, _ => rfl
  | n + 1, A, pos => by simp [squeeze_succ, squeeze_out_length rate n]

/-- `Squeeze` ensures `pos <= rate` (41 R113). -/
theorem squeeze_pos_le (rate : Nat) (hr : 0 < rate) :
    ∀ (n : Nat) (A : LaneFile) (pos : Nat), pos ≤ rate → (squeeze A pos rate n).pos ≤ rate
  | 0, _, _, h => h
  | n + 1, A, pos, h => by
    rw [squeeze_succ]
    rcases refill_cases rate A pos with ⟨_, e⟩ | ⟨hne, e⟩ <;> rw [e] <;>
      exact squeeze_pos_le rate hr n _ _ (by simp only; omega)

/-- Squeezing `m` then `n` bytes is squeezing `m + n` (41 R113). -/
theorem squeeze_add (rate : Nat) :
    ∀ (m n : Nat) (A : LaneFile) (pos : Nat),
      squeeze A pos rate (m + n) =
        ⟨(squeeze (squeeze A pos rate m).A (squeeze A pos rate m).pos rate n).A,
          (squeeze (squeeze A pos rate m).A (squeeze A pos rate m).pos rate n).pos,
          (squeeze A pos rate m).out ++ (squeeze (squeeze A pos rate m).A (squeeze A pos rate m).pos rate n).out⟩
  | 0, n, A, pos => by simp
  | m + 1, n, A, pos => by
    rw [Nat.succ_add, squeeze_succ, squeeze_succ, squeeze_add rate m n]; rfl

@[simp] theorem spongeFn_length (rate : Nat) (d : Byte) (M : Bytes) (n : Nat) : (spongeFn rate d M n).length = n := by
  simp [spongeFn]

/-- The XOF written out: absorb from zero lanes at `P_XOF_RATE`, pad with `0x1f`, squeeze (41 R114, R115). -/
theorem xof_eq (p : Params) (M : Bytes) (n : Nat) :
    xof p M n =
      (squeeze (padPermute (absorb LaneFile.zero 0 p.xofRate M).1 (absorb LaneFile.zero 0 p.xofRate M).2 p.xofRate 0x1f) 0
        p.xofRate n).out := rfl

@[simp] theorem xof_length (p : Params) (M : Bytes) (n : Nat) : (xof p M n).length = n := spongeFn_length _ _ _ _

@[simp] theorem vmTagBytes_length (p : Params) (A : LaneFile) (n : Nat) : (vmTagBytes p A n).length = n := by
  simp [vmTagBytes]

@[simp] theorem vmac_length (p : Params) (key : Bytes) (xs : List Bytes) (n : Nat) : (vmac p key xs n).length = n :=
  vmTagBytes_length _ _ _

/-! ### The draw, the hold, the fetch -/

/-- Every outcome of a draw (46 R207). -/
theorem draw_cases (n : Nat) (s : State) :
    (s.entropy = [] ∧ draw n s = .waiting) ∨
      (∃ rest, s.entropy = .fail :: rest ∧ draw n s = .failed { s with entropy := rest }) ∨
      (∃ r rest, s.entropy = .ok r :: rest ∧ r.length = n ∧ draw n s = .got r { s with entropy := rest }) ∨
      (∃ r rest, s.entropy = .ok r :: rest ∧ r.length ≠ n ∧ draw n s = .waiting) := by
  unfold draw
  split
  · exact .inl ⟨‹_›, rfl⟩
  · exact .inr (.inl ⟨_, ‹_›, rfl⟩)
  · split
    · exact .inr (.inr (.inl ⟨_, _, ‹_›, ‹_›, rfl⟩))
    · exact .inr (.inr (.inr ⟨_, _, ‹_›, ‹_›, rfl⟩))

/-- A held command changes nothing, or is lost to the hardware reset that comes next (46 R207, 70 R245). -/
theorem hold_cases (s : State) :
    hold s = s ∨ ∃ e rest, s.inbox = e :: .hardwareReset :: rest ∧ hold s = hardwareReset { s with inbox := rest } := by
  unfold hold
  split
  · exact .inr ⟨_, _, ‹_›, rfl⟩
  · exact .inl rfl

/-- Everything a step can start with. -/
theorem fetch_cases (s : State) :
    (s.inbox = [] ∧ fetch s = .idle) ∨
      (∃ rest, s.inbox = .hardwareReset :: rest ∧ fetch s = .reset { s with inbox := rest }) ∨
      (∃ F rest why, s.inbox = .frame F :: rest ∧ decode F = .error why ∧ fetch s = .illegal why) ∨
      (∃ F rest i, s.inbox = .frame F :: rest ∧ decode F = .ok i ∧ fetch s = .command i) := by
  unfold fetch
  split
  · exact .inl ⟨‹_›, rfl⟩
  · exact .inr (.inl ⟨_, ‹_›, rfl⟩)
  · split
    · exact .inr (.inr (.inl ⟨_, _, _, ‹_›, ‹_›, rfl⟩))
    · exact .inr (.inr (.inr ⟨_, _, _, ‹_›, ‹_›, rfl⟩))

/-- `ERRLOG` keeps its bits (10 R36). -/
theorem errlogAfter_keeps (st : Status) (log : Word) : log &&& errlogAfter st log = log := by
  ext i; simp only [errlogAfter, BitVec.getElem_and, BitVec.getElem_or]; cases log[i] <;> simp

end Sys2Proof.Machine
end

