-- ==== Sys2Proof/Laws/Exec.lean ====
section
/-! SUPPORT. What a command and a step can do, said once: the responses as updates, the inversion of exec and of step. -/

namespace Sys2Proof.Machine

/-- The `ERRLOG` bit of a non-OK status is bit `code` (10 R36). -/
theorem logBit_eq {st : Status} (h : st ≠ .ok) : st.logBit = 1#32 <<< st.code := by
  cases st
  · exact absurd rfl h
  all_goals decide

/-- An `OK` response leaves `ERRLOG`. -/
@[simp] theorem errlogAfter_ok (log : Word) : errlogAfter .ok log = log := BitVec.or_zero

/-- `respond` as the update of an `OK` response. -/
theorem respond_eq (out : Bytes) (s : State) : respond out s = okResponse out s := by
  simp [respond, finish, okResponse]

/-- `raise` as the update of an error. -/
theorem raise_eq {st : Status} (h : st ≠ .ok) (s : State) : raise st s = errorResponse st s := by
  simp [raise, finish, errorResponse, errlogAfter, logBit_eq h]

/-- The first byte of a response tells its status (30 R78, R79). -/
theorem responseFrame_head (st : Status) (out : Bytes) :
    responseFrame st out = BitVec.ofNat 8 st.code :: (responseFrame st out).tail := by
  cases st <;> rfl

/-- Responses of different status are different frames (30 R79). -/
theorem status_of_responseFrame {st st' : Status} {out out' : Bytes} (h : responseFrame st out = responseFrame st' out') :
    st = st' := by
  rw [responseFrame_head st, responseFrame_head st'] at h
  have := (List.cons.inj h).1
  cases st <;> cases st' <;> first | rfl | exact absurd this (by decide)

/-- A response given is the last of the outbox, so it tells its status. -/
theorem status_of_outbox {box : List Frame} {st st' : Status} {out out' : Bytes}
    (h : box ++ [responseFrame st out] = box ++ [responseFrame st' out']) : st = st' :=
  status_of_responseFrame (List.cons.inj (List.append_cancel_left h)).1

/-- What every command leaves of the model's own fields until it is answered. -/
structure Quiet (s u : State) : Prop where
  inbox : u.inbox = s.inbox
  outbox : u.outbox = s.outbox
  errlog : u.ERRLOG = s.ERRLOG
  params : u.params = s.params

theorem Quiet.refl (s : State) : Quiet s s := ⟨rfl, rfl, rfl, rfl⟩

/-- Everything a command can do: it is answered, with an empty output unless the status is `OK` or `BUDGET_EXCEEDED`; or it is
one of the two drawing commands and its draw has no answer (60 R215, R236, 46 R207). -/
theorem exec_cases (i : Instr) (s : State) :
    (∃ st out u, exec i s = .next (finish st out u) ∧ Quiet s u ∧ (st ≠ .ok → st ≠ .budgetExceeded → out = [])) ∨
      (∃ n, drawLength i = some n ∧ WaitsForEntropy n s ∧ exec i s = .next (hold s)) := by
  have q := Quiet.refl s
  cases i <;> simp only [exec]
  case kfPermute st => exact .inl ⟨_, _, s, rfl, q, by simp⟩
  case kfRound ir st =>
    unfold execKfRound; split
    · exact .inl ⟨.configError, [], s, rfl, q, by simp⟩
    · exact .inl ⟨.ok, _, s, rfl, q, by simp⟩
  case spInit =>
    unfold execSpInit; split
    · exact .inl ⟨.configError, [], s, rfl, q, by simp⟩
    · split
      · exact .inl ⟨.configError, [], s, rfl, q, by simp⟩
      · exact .inl ⟨.ok, _, _, rfl, ⟨rfl, rfl, rfl, rfl⟩, by simp⟩
  case spAbsorb =>
    unfold execSpAbsorb; split
    · exact .inl ⟨.phaseError, [], s, rfl, q, by simp⟩
    · split
      · exact .inl ⟨.phaseError, [], s, rfl, q, by simp⟩
      · exact .inl ⟨.ok, _, _, rfl, ⟨rfl, rfl, rfl, rfl⟩, by simp⟩
  case spPad =>
    unfold execSpPad; split
    · exact .inl ⟨.phaseError, [], s, rfl, q, by simp⟩
    · split
      · exact .inl ⟨.phaseError, [], s, rfl, q, by simp⟩
      · exact .inl ⟨.ok, _, _, rfl, ⟨rfl, rfl, rfl, rfl⟩, by simp⟩
  case spSqueeze =>
    unfold execSpSqueeze; split
    · exact .inl ⟨.phaseError, [], s, rfl, q, by simp⟩
    · dsimp only; split
      · exact .inl ⟨.budgetExceeded, _, _, rfl, ⟨rfl, rfl, rfl, rfl⟩, by simp⟩
      · exact .inl ⟨.ok, _, _, rfl, ⟨rfl, rfl, rfl, rfl⟩, by simp⟩
  case spReset =>
    unfold execSpReset; split
    · exact .inl ⟨.phaseError, [], s, rfl, q, by simp⟩
    · exact .inl ⟨.ok, _, _, rfl, ⟨rfl, rfl, rfl, rfl⟩, by simp⟩
  case spSnap =>
    unfold execSpSnap; split
    · exact .inl ⟨.phaseError, [], s, rfl, q, by simp⟩
    · exact .inl ⟨.ok, _, _, rfl, ⟨rfl, rfl, rfl, rfl⟩, by simp⟩
  case spRestore =>
    unfold execSpRestore; split
    · exact .inl ⟨.phaseError, [], s, rfl, q, by simp⟩
    · exact .inl ⟨.ok, _, _, rfl, ⟨rfl, rfl, rfl, rfl⟩, by simp⟩
  case vmKey =>
    unfold execVmKey; split
    · exact .inl ⟨.configError, [], s, rfl, q, by simp⟩
    · exact .inl ⟨.ok, _, _, rfl, ⟨rfl, rfl, rfl, rfl⟩, by simp⟩
  case vmInput =>
    unfold execVmInput; split
    · exact .inl ⟨.phaseError, [], s, rfl, q, by simp⟩
    · split
      · exact .inl ⟨.configError, [], _, rfl, ⟨rfl, rfl, rfl, rfl⟩, by simp⟩
      · exact .inl ⟨.ok, _, _, rfl, ⟨rfl, rfl, rfl, rfl⟩, by simp⟩
  case vmTag =>
    unfold execVmTag; split
    · exact .inl ⟨.phaseError, [], s, rfl, q, by simp⟩
    · split
      · exact .inl ⟨.configError, [], _, rfl, ⟨rfl, rfl, rfl, rfl⟩, by simp⟩
      · exact .inl ⟨.ok, _, _, rfl, ⟨rfl, rfl, rfl, rfl⟩, by simp⟩
  case vmReset =>
    unfold execVmReset; split
    · exact .inl ⟨.phaseError, [], s, rfl, q, by simp⟩
    · exact .inl ⟨.ok, _, _, rfl, ⟨rfl, rfl, rfl, rfl⟩, by simp⟩
  case sivCtx =>
    unfold execSivCtx; split
    · exact .inl ⟨.configError, [], s, rfl, q, by simp⟩
    · exact .inl ⟨.ok, _, _, rfl, ⟨rfl, rfl, rfl, rfl⟩, by simp⟩
  case sivSeal =>
    unfold execSivSeal; split
    · exact .inl ⟨.phaseError, [], s, rfl, q, by simp⟩
    · split
      · exact .inl ⟨.configError, [], s, rfl, q, by simp⟩
      · exact .inl ⟨.ok, _, s, rfl, q, by simp⟩
  case sivUnseal =>
    unfold execSivUnseal; split
    · exact .inl ⟨.phaseError, [], s, rfl, q, by simp⟩
    · split
      · exact .inl ⟨.configError, [], s, rfl, q, by simp⟩
      · split
        · exact .inl ⟨.authFail, [], s, rfl, q, by simp⟩
        · exact .inl ⟨.ok, _, s, rfl, q, by simp⟩
  case stCtx =>
    unfold execStCtx; split
    · exact .inl ⟨.configError, [], s, rfl, q, by simp⟩
    · exact .inl ⟨.ok, _, _, rfl, ⟨rfl, rfl, rfl, rfl⟩, by simp⟩
  case stSeal =>
    unfold execStSeal; split
    · exact .inl ⟨.phaseError, [], s, rfl, q, by simp⟩
    · rcases draw_cases Config.stNonceLen s with ⟨h, e⟩ | ⟨rest, h, e⟩ | ⟨r, rest, h, hl, e⟩ | ⟨r, rest, h, hl, e⟩ <;> rw [e]
      · exact .inr ⟨_, rfl, .inl h, rfl⟩
      · exact .inl ⟨.entropyError, [], _, rfl, ⟨rfl, rfl, rfl, rfl⟩, by simp⟩
      · exact .inl ⟨.ok, _, _, rfl, ⟨rfl, rfl, rfl, rfl⟩, by simp⟩
      · exact .inr ⟨_, rfl, .inr ⟨r, rest, h, hl⟩, rfl⟩
  case stOpen =>
    unfold execStOpen; split
    · exact .inl ⟨.phaseError, [], s, rfl, q, by simp⟩
    · split
      · exact .inl ⟨.authFail, [], s, rfl, q, by simp⟩
      · exact .inl ⟨.ok, _, s, rfl, q, by simp⟩
  case aoKey =>
    unfold execAoKey; split
    · exact .inl ⟨.configError, [], s, rfl, q, by simp⟩
    · exact .inl ⟨.ok, _, _, rfl, ⟨rfl, rfl, rfl, rfl⟩, by simp⟩
  case aoPackage tlen msg =>
    unfold execAoPackage; split
    · exact .inl ⟨.configError, [], s, rfl, q, by simp⟩
    · rcases draw_cases tlen.toNat s with ⟨h, e⟩ | ⟨rest, h, e⟩ | ⟨r, rest, h, hl, e⟩ | ⟨r, rest, h, hl, e⟩ <;> rw [e]
      · exact .inr ⟨_, rfl, .inl h, rfl⟩
      · exact .inl ⟨.entropyError, [], _, rfl, ⟨rfl, rfl, rfl, rfl⟩, by simp⟩
      · exact .inl ⟨.ok, _, _, rfl, ⟨rfl, rfl, rfl, rfl⟩, by simp⟩
      · exact .inr ⟨_, rfl, .inr ⟨r, rest, h, hl⟩, rfl⟩
  case aoUnpackage =>
    unfold execAoUnpackage; split
    · exact .inl ⟨.configError, [], s, rfl, q, by simp⟩
    · exact .inl ⟨.ok, _, s, rfl, q, by simp⟩
  case rdsr =>
    unfold execRdsr; split
    · exact .inl ⟨.configError, [], s, rfl, q, by simp⟩
    · exact .inl ⟨.ok, _, s, rfl, q, by simp⟩

/-- Without a hardware reset among what the host sends, a held command changes nothing. -/
theorem hold_of_noReset {s : State} (h : NoReset s) : hold s = s := by
  rcases hold_cases s with e | ⟨e, rest, hi, _⟩
  · exact e
  · exact absurd rfl (h .hardwareReset (by rw [hi]; simp))

/-- Every step answers a next state (60 R215). -/
theorem step_next (s : State) : ∃ t, step s = .next t := by
  unfold step
  rcases fetch_cases s with ⟨_, e⟩ | ⟨_, _, e⟩ | ⟨_, _, _, _, _, e⟩ | ⟨_, _, i, _, _, e⟩ <;> rw [e]
  · exact ⟨_, rfl⟩
  · exact ⟨_, rfl⟩
  · exact ⟨_, rfl⟩
  · rcases exec_cases i s with ⟨_, _, _, e, _⟩ | ⟨_, _, _, e⟩ <;> exact ⟨_, e⟩

end Sys2Proof.Machine
end

