-- ==== Sys2Proof/Laws/PerInstr.lean ====
section
/-! SUPPORT. Facts said of every instruction as syntax, one lemma per constructor. -/

namespace Sys2Proof.Laws.EncodedLength

/-- The frame of a command has `4 + 4n + plen` bytes, `n` the word count of its format (spec 30 R70, R76). -/
def Statement (i : Instr) : Prop :=
  i.command.words.length = i.command.op.format.words ∧
    (encode i).length = 4 + 4 * i.command.op.format.words + i.command.payload.length

/-- A frame of the right number of words has that length. -/
theorem of_words {i : Instr} (h : i.command.words.length = i.command.op.format.words) : Statement i := by
  have l : ∀ ws : List Word, (ws.flatMap le32).length = 4 * ws.length := fun ws => by
    induction ws with
    | nil => rfl
    | cons w ws ih => simp only [List.flatMap_cons, List.length_append, le32_length, ih, List.length_cons]; omega
  refine ⟨h, ?_⟩
  simp only [encode, Command.frame, List.length_append, le32_length, l, h]

theorem kfPermute (st : Bytes) : Statement (.kfPermute st) := of_words rfl
theorem kfRound (ir : Byte) (st : Bytes) : Statement (.kfRound ir st) := of_words rfl
theorem spInit (rate ds : Byte) (fx : Bool) (budget : Word) : Statement (.spInit rate ds fx budget) := of_words rfl
theorem spAbsorb (data : Bytes) : Statement (.spAbsorb data) := of_words rfl
theorem spPad (dsb : Byte) : Statement (.spPad dsb) := of_words rfl
theorem spSqueeze (olen : Word) : Statement (.spSqueeze olen) := of_words rfl
theorem spReset : Statement (.spReset) := of_words rfl
theorem spSnap : Statement (.spSnap) := of_words rfl
theorem spRestore : Statement (.spRestore) := of_words rfl
theorem vmKey (key : Bytes) : Statement (.vmKey key) := of_words rfl
theorem vmInput (x : Bytes) : Statement (.vmInput x) := of_words rfl
theorem vmTag (tlen : Word) : Statement (.vmTag tlen) := of_words rfl
theorem vmReset : Statement (.vmReset) := of_words rfl
theorem sivCtx (key : Bytes) (adlen : Word) : Statement (.sivCtx key adlen) := of_words rfl
theorem sivSeal (nonce ad msg : Bytes) : Statement (.sivSeal nonce ad msg) := of_words rfl
theorem sivUnseal (nonce ad tag ct : Bytes) : Statement (.sivUnseal nonce ad tag ct) := of_words rfl
theorem stCtx (key cnonce : Bytes) : Statement (.stCtx key cnonce) := of_words rfl
theorem stSeal (ad pt : Bytes) : Statement (.stSeal ad pt) := of_words rfl
theorem stOpen (ad sealed : Bytes) : Statement (.stOpen ad sealed) := of_words rfl
theorem aoKey (key : Bytes) : Statement (.aoKey key) := of_words rfl
theorem aoPackage (tlen : Byte) (msg : Bytes) : Statement (.aoPackage tlen msg) := of_words rfl
theorem aoUnpackage (ct tag : Bytes) : Statement (.aoUnpackage ct tag) := of_words rfl
theorem rdsr (n : Byte) : Statement (.rdsr n) := of_words rfl

end Sys2Proof.Laws.EncodedLength
end

