-- ==== Sys2Proof/Laws/Permutation.lean ====
section
/-! SUPPORT. Lanes, rows and the byte view: what the accessors of a lane file read and write (spec 10 R22, 20 R51, 41 R110). -/

namespace Sys2Proof.Machine

/-- Lane `5y + x` stands in row `y`, column `x` (10 R22). -/
theorem lane_eq_at (A : LaneFile) (x y : Nat) (hx : x < 5) : A.lane (x + 5 * y) = A.at x y := by
  unfold LaneFile.lane; congr 1 <;> omega

/-- A lane index splits into a column and a row. -/
theorem exists_at {i : Nat} (hi : i < 25) : ∃ x y, x < 5 ∧ y < 5 ∧ i = x + 5 * y :=
  ⟨i % 5, i / 5, by omega, by omega, by omega⟩

/-- Two lane files with the same 25 lanes are the same. -/
theorem LaneFile.ext_at {A B : LaneFile} (h : ∀ x y, x < 5 → y < 5 → A.at x y = B.at x y) : A = B := by
  have row : ∀ (r q : LaneRow), (∀ x, x < 5 → r.col x = q.col x) → r = q := fun r q e => by
    ext1
    · exact e 0 (by decide)
    · exact e 1 (by decide)
    · exact e 2 (by decide)
    · exact e 3 (by decide)
    · exact e 4 (by decide)
  ext1
  · exact row _ _ fun x hx => h x 0 hx (by decide)
  · exact row _ _ fun x hx => h x 1 hx (by decide)
  · exact row _ _ fun x hx => h x 2 hx (by decide)
  · exact row _ _ fun x hx => h x 3 hx (by decide)
  · exact row _ _ fun x hx => h x 4 hx (by decide)

/-- The same, by lane index. -/
theorem LaneFile.ext_lane {A B : LaneFile} (h : ∀ i, i < 25 → A.lane i = B.lane i) : A = B :=
  LaneFile.ext_at fun x y hx hy => by
    rw [← lane_eq_at A x y hx, ← lane_eq_at B x y hx]; exact h _ (by omega)

/-- One lane is modified, the other 24 stay. -/
theorem modifyLane_lane (A : LaneFile) (i k : Nat) (f : Lane → Lane) (hi : i < 25) (hk : k < 25) :
    (A.modifyLane i f).lane k = if k = i then f (A.lane k) else A.lane k := by
  interval_cases i <;> interval_cases k <;> rfl

/-- A modification that leaves every lane is none. -/
theorem modifyLane_id (A : LaneFile) (i : Nat) (f : Lane → Lane) (hf : ∀ v, f v = v) : A.modifyLane i f = A := by
  have row : ∀ (r : LaneRow) (x : Nat), r.modify x f = r := fun r x => by
    unfold LaneRow.modify; split <;> simp [hf]
  unfold LaneFile.modifyLane; split <;> simp [row]

/-- `ROL64(v, n)` for `0 < n < 64`, in shifts (40 R97). -/
theorem rol64_eq (v : Lane) {n : Nat} (h : n < 64) : rol64 v n = v <<< n ||| v >>> (64 - n) := by
  simp [rol64, BitVec.rotateLeft, BitVec.rotateLeftAux, Nat.mod_eq_of_lt h]

/-- `ROL64(v, 0) = v` (00 R13, 40 R97). -/
@[simp] theorem rol64_zero (v : Lane) : rol64 v 0 = v := by
  ext i hi; simp [rol64, BitVec.getElem_rotateLeft]

/-- Byte `8i + k` of the view is bits `8k+7..8k` of lane `i` (20 R51). -/
theorem getByte_eq_extract (A : LaneFile) (i k : Nat) (hk : k < 8) :
    getByte A (8 * i + k) = (A.lane i).extractLsb' (8 * k) 8 := by
  have h1 : (8 * i + k) / 8 = i := by omega
  have h2 : (8 * i + k) % 8 = k := by omega
  unfold getByte; rw [h1, h2]; rfl

/-- One byte of a lane after a byte was XORed in. -/
theorem byte_xor_shift (v : Lane) (b : Byte) (a c : Nat) (hc : c < 8) :
    ((v ^^^ (b.setWidth 64 <<< (8 * a))) >>> (8 * c)).setWidth 8 =
      if c = a then (v >>> (8 * c)).setWidth 8 ^^^ b else (v >>> (8 * c)).setWidth 8 := by
  apply BitVec.eq_of_getLsbD_eq
  intro i hi
  have h64 : 8 * c + i < 64 := by omega
  split
  · rename_i e; subst e
    simp only [BitVec.getLsbD_setWidth, BitVec.getLsbD_ushiftRight, BitVec.getLsbD_xor, BitVec.getLsbD_shiftLeft,
      Nat.add_sub_cancel_left, hi, h64, decide_true, Bool.true_and]
    have : ¬ 8 * c + i < 8 * c := by omega
    have h2 : i < 64 := by omega
    simp [h2]
  · rename_i e
    simp only [BitVec.getLsbD_setWidth, BitVec.getLsbD_ushiftRight, BitVec.getLsbD_xor, BitVec.getLsbD_shiftLeft, hi, h64,
      decide_true, Bool.true_and]
    rcases Nat.lt_or_ge c a with h | h
    · have : 8 * c + i < 8 * a := by omega
      simp [this]
    · have : 8 ≤ 8 * c + i - 8 * a := by omega
      simp [BitVec.getLsbD_of_ge _ _ this]

/-- `MemXor` changes the addressed byte and no other (41 R110, 20 R54). -/
theorem getByte_memXor (A : LaneFile) (j k : Nat) (b : Byte) (hj : j < 200) (hk : k < 200) :
    getByte (memXor A j b) k = if k = j then getByte A k ^^^ b else getByte A k := by
  unfold getByte memXor
  rw [modifyLane_lane _ _ _ _ (by omega) (by omega)]
  by_cases h : k / 8 = j / 8
  · have h3 : k = j ↔ k % 8 = j % 8 := by omega
    simp only [if_pos h, h3]
    exact byte_xor_shift _ _ _ _ (Nat.mod_lt _ (by decide))
  · rw [if_neg h, if_neg (by omega)]

theorem bytesOfLanes_length (A : LaneFile) : (bytesOfLanes A).length = 200 := by
  have hl : ∀ r, (rowBytes r).length = 40 := fun _ => rfl
  unfold bytesOfLanes
  rw [List.length_append, List.length_append, List.length_append, List.length_append, hl, hl, hl, hl, hl]

/-- Byte `8x + k` of a row's bytes. -/
theorem rowBytes_get (r : LaneRow) (x k : Nat) (hx : x < 5) (hk : k < 8) :
    (rowBytes r)[8 * x + k]? = some ((r.col x).extractLsb' (8 * k) 8) := by
  interval_cases x <;> interval_cases k <;> rfl

/-- The 200 bytes of a lane file are its byte view (20 R51, R52). -/
theorem bytesOfLanes_get (A : LaneFile) (j : Nat) (hj : j < 200) : (bytesOfLanes A)[j]? = some (getByte A j) := by
  have hl : ∀ r, (rowBytes r).length = 40 := fun _ => rfl
  obtain ⟨y, x, k, hy, hx, hk, rfl⟩ : ∃ y x k, y < 5 ∧ x < 5 ∧ k < 8 ∧ j = 40 * y + (8 * x + k) :=
    ⟨j / 40, j % 40 / 8, j % 8, by omega, by omega, by omega, by omega⟩
  have e : 40 * y + (8 * x + k) = 8 * (x + 5 * y) + k := by omega
  rw [e, getByte_eq_extract _ _ _ hk, lane_eq_at _ _ _ hx, ← e]
  have g : ∀ r : LaneRow, (rowBytes r)[8 * x + k]? = some ((r.col x).extractLsb' (8 * k) 8) := fun r => rowBytes_get r x k hx hk
  have hb : 8 * x + k < 40 := by omega
  generalize 8 * x + k = m at g hb
  have skip : ∀ (r : LaneRow) (b : Bytes) (n : Nat), (rowBytes r ++ b)[40 + n]? = b[n]? := fun r b n => by
    rw [List.getElem?_append_right (by rw [hl]; omega), hl, Nat.add_sub_cancel_left]
  have take : ∀ (r : LaneRow) (b : Bytes), (rowBytes r ++ b)[m]? = (rowBytes r)[m]? := fun r b =>
    List.getElem?_append_left (by rw [hl]; exact hb)
  simp only [bytesOfLanes, List.append_assoc]
  interval_cases y
  · rw [Nat.mul_zero, Nat.zero_add, take, g]; rfl
  · rw [Nat.mul_one, skip, take, g]; rfl
  · rw [show 40 * 2 + m = 40 + (40 + m) by omega, skip, skip, take, g]; rfl
  · rw [show 40 * 3 + m = 40 + (40 + (40 + m)) by omega, skip, skip, skip, take, g]; rfl
  · rw [show 40 * 4 + m = 40 + (40 + (40 + (40 + m))) by omega, skip, skip, skip, skip, g]; rfl

/-- The lane whose eight bytes these are (20 R51). -/
theorem lane64At_eq (s : Bytes) (v : Lane) (j : Nat) (h : ∀ k, k < 8 → s.getD (j + k) 0 = v.extractLsb' (8 * k) 8) :
    lane64At s j = v := by
  have h0 : s.getD j 0 = v.extractLsb' 0 8 := h 0 (by decide)
  simp only [lane64At, h0, h 1 (by decide), h 2 (by decide), h 3 (by decide), h 4 (by decide), h 5 (by decide),
    h 6 (by decide), h 7 (by decide)]
  apply BitVec.eq_of_getLsbD_eq
  intro i hi
  simp only [BitVec.getLsbD_or, BitVec.getLsbD_shiftLeft, BitVec.getLsbD_setWidth, BitVec.getLsbD_extractLsb']
  interval_cases i <;> simp

/-- A byte of a lane read from eight bytes (20 R51). -/
theorem extract_lane64At (s : Bytes) (j k : Nat) (hk : k < 8) : (lane64At s j).extractLsb' (8 * k) 8 = s.getD (j + k) 0 := by
  apply BitVec.eq_of_getLsbD_eq
  intro i hi
  simp only [lane64At, BitVec.getLsbD_extractLsb', BitVec.getLsbD_or, BitVec.getLsbD_shiftLeft, BitVec.getLsbD_setWidth]
  interval_cases k <;> interval_cases i <;> simp [BitVec.getLsbD_of_ge]

/-- Lane `i` of a 200-byte string (40 R100). -/
theorem lanesOfBytes_lane (s : Bytes) (i : Nat) (hi : i < 25) : (lanesOfBytes s).lane i = lane64At s (8 * i) := by
  interval_cases i <;> rfl

/-- The lanes of a lane file's own bytes are its lanes (20 R51). -/
theorem lanesOfBytes_bytesOfLanes (A : LaneFile) : lanesOfBytes (bytesOfLanes A) = A := by
  refine LaneFile.ext_lane fun i hi => ?_
  rw [lanesOfBytes_lane _ _ hi]
  refine lane64At_eq _ _ _ fun k hk => ?_
  rw [List.getD_eq_getElem?_getD, bytesOfLanes_get _ _ (by omega), getByte_eq_extract _ _ _ hk]; rfl

/-- The bytes of the lanes of a 200-byte string are the string (40 R100). -/
theorem bytesOfLanes_lanesOfBytes (st : Bytes) (h : st.length = 200) : bytesOfLanes (lanesOfBytes st) = st := by
  refine List.ext_getElem? fun j => ?_
  by_cases hj : j < 200
  · have e : j = 8 * (j / 8) + j % 8 := by omega
    rw [bytesOfLanes_get _ _ hj, e, getByte_eq_extract _ _ _ (by omega), lanesOfBytes_lane _ _ (by omega),
      extract_lane64At _ _ _ (by omega), ← e, List.getD_eq_getElem?_getD, List.getElem?_eq_getElem (by omega)]; rfl
  · rw [List.getElem?_eq_none (by rw [bytesOfLanes_length]; omega), List.getElem?_eq_none (by omega)]

end Sys2Proof.Machine
end

