-- ==== Sys2Proof/Tests/Slice0.lean ====
section
/-! SUPPORT. Tests: what the well-formedness check refuses, a frame per constructor, one step per command against the vectors of
spec/95_test_vectors.md, and a witness for the hypotheses of every obligation. -/

namespace Sys2Proof.Tests

open Sys2Proof Sys2Proof.Machine

set_option maxRecDepth 100000

/-! ### Helpers -/

/-- The state an outcome goes on with; the reset state where there is none. -/
def after : Host.Outcome State Fault Refusal → State
  | .next t => t
  | .fault _ => State.reset
  | .refused _ => State.reset

/-- The last response given. -/
def answer (o : Host.Outcome State Fault Refusal) : Frame := (after o).outbox.getLast?.getD []

/-- The first eight bytes of a response. -/
def reply (status len : Byte) : Frame := [status, 0, 0, 0, len, 0, 0, 0]

/-- `"this is a test"` (95 A7). -/
def msgA7 : Bytes := [0x74, 0x68, 0x69, 0x73, 0x20, 0x69, 0x73, 0x20, 0x61, 0x20, 0x74, 0x65, 0x73, 0x74]

/-- `"217"` (95 A7). -/
def adA7 : Bytes := [0x32, 0x31, 0x37]

/-- A fresh sponge. -/
def fresh (rate ds : Byte) (fx : Bool) (budget : Word) : Sponge :=
  { A := LaneFile.zero, rate := rate, ds := ds, fx := fx, budget0 := budget, remain := budget, dir := .absorbing, pos := 0,
      cfg := true }

/-- A machine with that sponge. -/
def withSponge (S : Sponge) : State := { State.reset with S := S }

/-- A machine with a fresh unlimited sponge of rate 136. -/
def sponge136 : State := withSponge (fresh 136 6 false 0)

/-- The same, squeezing. -/
def squeezing136 : State := withSponge { fresh 136 6 false 0 with dir := .squeezing }

/-- Lanes with one lane of row 0 given. -/
def lane0 (v : Lane) : LaneFile := { LaneFile.zero with y0 := { LaneRow.zero with x0 := v } }

/-- A machine with a vector-MAC instance. -/
def withVmac (A : LaneFile) (idx : Nat) (ovf : Bool) : State :=
  { State.reset with V := { valid := true, A := A, snap := lane0 7, pos := 0, idx := idx, ovf := ovf } }

/-- A machine with the SIV context of 95 A7. -/
def withSiv : State := { State.reset with SIV := { valid := true, key := zeros 32, adlen := 3 } }

/-- The hash key of 95 V40. -/
def hashKeyV40 : Bytes :=
  [0x00, 0x19, 0x47, 0xe8, 0x05, 0xb5, 0x23, 0xf1, 0x9f, 0x30, 0x0f, 0xb9, 0xa8, 0x54, 0x3a, 0x72] ++
    [0x46, 0xcf, 0xde, 0x9d, 0x44, 0x4f, 0xa3, 0xcc, 0xbc, 0x3d, 0xbe, 0x83, 0xb7, 0x39, 0x36, 0xb2]

/-- The cipher key of 95 V40. -/
def cipherKeyV40 : Bytes :=
  [0x40, 0x0a, 0xdc, 0x1a, 0x85, 0x15, 0x90, 0x07, 0xb1, 0x53, 0x68, 0xc8, 0x6c, 0x23, 0x94, 0x8f] ++
    [0xe7, 0xbd, 0x93, 0x15, 0xd3, 0xd1, 0xfd, 0xed, 0x01, 0xb3, 0xb8, 0x87, 0xfe, 0x8d, 0xd5, 0xa3]

/-- The draw of 95 V40. -/
def nonceV40 : Bytes :=
  [0x10, 0x11, 0x12, 0x13, 0x14, 0x15, 0x16, 0x17, 0x18, 0x19, 0x1a, 0x1b] ++ [0x1c, 0x1d, 0x1e, 0x1f, 0x20, 0x21, 0x22,
      0x23, 0x24, 0x25, 0x26, 0x27]

/-- The tag of 95 V44. -/
def tagV44 : Bytes :=
  [0x50, 0x9d, 0x76, 0xa3, 0xc2, 0x1e, 0x9d, 0x32, 0x90, 0x0b, 0xeb, 0x78, 0xb8, 0x57, 0x91, 0x64] ++
    [0x79, 0x12, 0x90, 0x97, 0xbf, 0x44, 0x4d, 0xaa, 0x49, 0x87, 0x5e, 0xa9, 0xb4, 0xde, 0xeb, 0x1c]

/-- A machine with the Stream context of 95 V40 and one answer of the entropy source. -/
def withStream (e : List EntropyAnswer) : State :=
  { State.reset with ST := { valid := true, hashKey := hashKeyV40, cipherKey := cipherKeyV40 }, entropy := e }

/-- The test instantiation T0 of 95, which is no part of the CORE. -/
def t0Ctr : Keystream := fun k iv n => xof Params.default ([0x54, 0x30, 0x2d, 0x43, 0x54, 0x52] ++ k ++ iv) n

/-- The same for the stream cipher. -/
def t0Str : Keystream := fun k iv n => xof Params.default ([0x54, 0x30, 0x2d, 0x53, 0x54, 0x52] ++ k ++ iv) n

/-- A machine with something handed over. -/
def handed (events : List HostEvent) : State := { State.reset with inbox := events }

/-! ### Well-formedness -/

/-- A string one byte longer than an operand word can count. -/
def tooLong : Bytes := zeros (2 ^ 32)

theorem tooLong_unfit : fitsWord tooLong = false := by
  unfold tooLong fitsWord; rw [zeros_length]; decide

theorem test_wf_state_length :
    (Instr.kfPermute (zeros 199)).wellFormed = false ∧ (Instr.kfRound 0 (zeros 201)).wellFormed = false := by decide

theorem test_wf_spAbsorb :
    (Instr.spAbsorb tooLong).wellFormed = false := by simp [Instr.wellFormed, tooLong_unfit]

theorem test_wf_vmKey :
    (Instr.vmKey tooLong).wellFormed = false := by simp [Instr.wellFormed, tooLong_unfit]

theorem test_wf_vmInput :
    (Instr.vmInput tooLong).wellFormed = false := by simp [Instr.wellFormed, tooLong_unfit]

theorem test_wf_aoPackage :
    (Instr.aoPackage 32 tooLong).wellFormed = false := by simp [Instr.wellFormed, tooLong_unfit]

theorem test_wf_sivCtx :
    (Instr.sivCtx (zeros 256) 0).wellFormed = false ∧ (Instr.sivCtx (zeros 255) 0).wellFormed = true := by decide

theorem test_wf_sivSeal_nonce :
    (Instr.sivSeal tooLong [] []).wellFormed = false := by simp [Instr.wellFormed, tooLong_unfit]

theorem test_wf_sivSeal_ad :
    (Instr.sivSeal [] tooLong []).wellFormed = false := by simp [Instr.wellFormed, tooLong_unfit]

theorem test_wf_sivSeal_msg :
    (Instr.sivSeal [] [] tooLong).wellFormed = false := by simp [Instr.wellFormed, tooLong_unfit]

theorem test_wf_sivUnseal_nonce :
    (Instr.sivUnseal tooLong [] [] []).wellFormed = false := by simp [Instr.wellFormed, tooLong_unfit]

theorem test_wf_sivUnseal_ad :
    (Instr.sivUnseal [] tooLong [] []).wellFormed = false := by simp [Instr.wellFormed, tooLong_unfit]

theorem test_wf_sivUnseal_tag :
    (Instr.sivUnseal [] [] (zeros 256) []).wellFormed = false := by decide

theorem test_wf_sivUnseal_ct :
    (Instr.sivUnseal [] [] [] tooLong).wellFormed = false := by simp [Instr.wellFormed, tooLong_unfit]

theorem test_wf_stCtx :
    (Instr.stCtx (zeros 256) []).wellFormed = false ∧ (Instr.stCtx [] (zeros 256)).wellFormed = false := by decide

theorem test_wf_stSeal :
    (Instr.stSeal tooLong []).wellFormed = false ∧
      (Instr.stSeal [] tooLong).wellFormed = false := by simp [Instr.wellFormed, tooLong_unfit]

theorem test_wf_stOpen :
    (Instr.stOpen tooLong []).wellFormed = false ∧
      (Instr.stOpen [] tooLong).wellFormed = false := by simp [Instr.wellFormed, tooLong_unfit]

theorem test_wf_aoKey : (Instr.aoKey (zeros 256)).wellFormed = false := by decide

theorem test_wf_aoUnpackage_ct : (Instr.aoUnpackage tooLong []).wellFormed = false := by simp [Instr.wellFormed, tooLong_unfit]

theorem test_wf_aoUnpackage_tag : (Instr.aoUnpackage [] (zeros 256)).wellFormed = false := by decide

/-! ### Decoding: a frame per constructor, written from 30 R70 to R74 and the examples of the command rules -/

/-- 40 R100, 95 V1. -/
theorem test_decode_kfPermute : decode ([0x00, 0x00, 0x00, 0x01] ++ zeros 200) = .ok (.kfPermute (zeros 200)) := by rfl

/-- 40 R101: `a = ir`. -/
theorem test_decode_kfRound : decode ([0x00, 0x00, 0x17, 0x02] ++ zeros 200) = .ok (.kfRound 23 (zeros 200)) := by rfl

/-- 41 R117. -/
theorem test_decode_spInit : decode [0x01, 0x06, 0x88, 0x10, 0x20, 0x00, 0x00, 0x00] = .ok (.spInit 136 6 true 32) := by rfl

/-- 41 R118. -/
theorem test_decode_spAbsorb :
    decode [0x00, 0x00, 0x00, 0x11, 0x03, 0x00, 0x00, 0x00, 0x61, 0x62, 0x63] = .ok (.spAbsorb [0x61, 0x62, 0x63]) := by rfl

/-- 41 R119. -/
theorem test_decode_spPad : decode [0x00, 0x00, 0x1f, 0x12] = .ok (.spPad 0x1f) := by rfl

/-- 41 R120. -/
theorem test_decode_spSqueeze : decode [0x00, 0x00, 0x00, 0x13, 0x20, 0x00, 0x00, 0x00] = .ok (.spSqueeze 32) := by rfl

/-- 41 R121. -/
theorem test_decode_spReset : decode [0x00, 0x00, 0x00, 0x14] = .ok (.spReset) := by rfl

/-- 41 R122. -/
theorem test_decode_spSnap : decode [0x00, 0x00, 0x00, 0x15] = .ok (.spSnap) := by rfl

/-- 41 R123. -/
theorem test_decode_spRestore : decode [0x00, 0x00, 0x00, 0x16] = .ok (.spRestore) := by rfl

/-- 42 R146. -/
theorem test_decode_vmKey :
    decode ([0x00, 0x00, 0x00, 0x20, 0x20, 0x00, 0x00, 0x00] ++ zeros 32) = .ok (.vmKey (zeros 32)) := by rfl

/-- 42 R147. -/
theorem test_decode_vmInput :
    decode [0x00, 0x00, 0x00, 0x21, 0x02, 0x00, 0x00, 0x00, 0x61, 0x62] = .ok (.vmInput [0x61, 0x62]) := by rfl

/-- 42 R148. -/
theorem test_decode_vmTag : decode [0x00, 0x00, 0x00, 0x22, 0x18, 0x00, 0x00, 0x00] = .ok (.vmTag 24) := by rfl

/-- 42 R149. -/
theorem test_decode_vmReset : decode [0x00, 0x00, 0x00, 0x23] = .ok (.vmReset) := by rfl

/-- 30 R74: `a = klen`, `W1 = adlen`. -/
theorem test_decode_sivCtx :
    decode [0x00, 0x00, 0x02, 0x30, 0x03, 0x00, 0x00, 0x00, 0xaa, 0xbb] = .ok (.sivCtx [0xaa, 0xbb] 3) := by rfl

/-- 30 R74: nonce, ad, msg. -/
theorem test_decode_sivSeal :
    decode [0x00, 0x00, 0x00, 0x31, 0x01, 0x00, 0x00, 0x00, 0x02, 0x00, 0x00, 0x00, 0x03, 0x00, 0x00, 0x00, 0xa1, 0xb1, 0xb2,
      0xc1, 0xc2, 0xc3] = .ok (.sivSeal [0xa1] [0xb1, 0xb2] [0xc1, 0xc2, 0xc3]) := by rfl

/-- 30 R74: nonce, ad, tag, ct; `a = tlen`, `W3 = clen`. -/
theorem test_decode_sivUnseal :
    decode [0x00, 0x00, 0x02, 0x32, 0x01, 0x00, 0x00, 0x00, 0x01, 0x00, 0x00, 0x00, 0x03, 0x00, 0x00, 0x00, 0xa1, 0xb1, 0xd1,
      0xd2, 0xc1, 0xc2, 0xc3] = .ok (.sivUnseal [0xa1] [0xb1] [0xd1, 0xd2] [0xc1, 0xc2, 0xc3]) := by rfl

/-- 30 R74: `a = klen`, `b = nlen`. -/
theorem test_decode_stCtx : decode [0x00, 0x01, 0x02, 0x40, 0xa1, 0xa2, 0xb1] = .ok (.stCtx [0xa1, 0xa2] [0xb1]) := by rfl

/-- 30 R74: ad, pt. -/
theorem test_decode_stSeal :
    decode [0x00, 0x00, 0x00, 0x41, 0x01, 0x00, 0x00, 0x00, 0x02, 0x00, 0x00, 0x00, 0xa1, 0xb1, 0xb2] =
      .ok (.stSeal [0xa1] [0xb1, 0xb2]) := by rfl

/-- 30 R74: ad, sealed. -/
theorem test_decode_stOpen :
    decode [0x00, 0x00, 0x00, 0x42, 0x02, 0x00, 0x00, 0x00, 0x01, 0x00, 0x00, 0x00, 0xa1, 0xa2, 0xb1] =
      .ok (.stOpen [0xa1, 0xa2] [0xb1]) := by rfl

/-- 45 R196. -/
theorem test_decode_aoKey : decode ([0x00, 0x00, 0x20, 0x50] ++ zeros 32) = .ok (.aoKey (zeros 32)) := by rfl

/-- 30 R74: `a = tlen`, `W1 = mlen`. -/
theorem test_decode_aoPackage :
    decode [0x00, 0x00, 0x1f, 0x51, 0x01, 0x00, 0x00, 0x00, 0xc1] = .ok (.aoPackage 31 [0xc1]) := by rfl

/-- 30 R74: ct, tag. -/
theorem test_decode_aoUnpackage :
    decode [0x00, 0x00, 0x01, 0x52, 0x02, 0x00, 0x00, 0x00, 0xc1, 0xc2, 0xd1] = .ok (.aoUnpackage [0xc1, 0xc2] [0xd1]) := by rfl

/-- 95 B7. -/
theorem test_decode_rdsr : decode [0x00, 0x00, 0x05, 0x60] = .ok (.rdsr 5) := by rfl

theorem test_illegal_empty : decode [] = .error .shortHeader := by rfl

theorem test_illegal_opcode_00 : decode [0x00, 0x00, 0x00, 0x00] = .error .unknownOpcode := by rfl

theorem test_illegal_opcode_ff : decode [0xff, 0xff, 0xff, 0xff] = .error .unknownOpcode := by rfl

theorem test_illegal_mbz : decode [0x00, 0x01, 0x00, 0x60] = .error .mustBeZero := by rfl

theorem test_illegal_operands : decode [0x00, 0x00, 0x00, 0x13, 0x20] = .error .operandsMissing := by rfl

theorem test_illegal_long : decode [0x00, 0x00, 0x00, 0x60, 0x00] = .error .wrongLength := by rfl

/-- 30 R71: the header is the low half, `W1` the high half. -/
theorem test_table_word :
    decodeTableWord 64 0x2010880601 = some (.spInit 136 6 true 32) := by rfl

/-! ### One step per command (95_test_vectors.md), and the functions that need T0 -/

/-- 95 V1. -/
theorem test_kfPermute :
    (answer (exec (.kfPermute (zeros 200)) State.reset)).take 16 =
      [0x00, 0x00, 0x00, 0x00, 0xc8, 0x00, 0x00, 0x00, 0xe7, 0xdd, 0xe1, 0x40, 0x79, 0x8f, 0x25, 0xf1] := by decide

/-- 95 V2. -/
theorem test_kfRound :
    (answer (exec (.kfRound 0 (zeros 200)) State.reset)).take 12 =
      [0x00, 0x00, 0x00, 0x00, 0xc8, 0x00, 0x00, 0x00, 0x01, 0x00, 0x00, 0x00] := by decide

/-- 95 V5. -/
theorem test_kfRound_24 : answer (exec (.kfRound 24 (zeros 200)) State.reset) = reply 1 0 := by decide

/-- 95 V1. -/
theorem test_keccakF_lanes :
    (keccakF LaneFile.zero).lane 13 = 0x43b831cd0347c826 ∧ (keccakF LaneFile.zero).lane 24 = 0xeaf1ff7b5ceca249 := by decide

/-- 95 V2. -/
theorem test_two_rounds :
    (keccakRounds 2 LaneFile.zero).lane 0 = 0x8083 ∧ (keccakRounds 2 LaneFile.zero).lane 22 = 0x0000010000000004 := by decide

/-- 41 R117. -/
theorem test_spInit : (after (exec (.spInit 136 6 true 32) State.reset)).S = fresh 136 6 true 32 := by decide

/-- 95 V19i. -/
theorem test_spInit_budget : answer (exec (.spInit 136 6 false 5) State.reset) = reply 1 0 := by decide

/-- 95 V11 detail. -/
theorem test_spAbsorb :
    (after (exec (.spAbsorb [0x61, 0x62, 0x63]) sponge136)).S =
      { fresh 136 6 false 0 with A := lane0 0x636261, pos := 3 } := by decide

/-- 95 V19f. -/
theorem test_spAbsorb_squeezing : answer (exec (.spAbsorb []) squeezing136) = reply 5 0 := by decide

/-- 95 V11: the first 8 digest bytes are lane 0 after the padding. -/
theorem test_spPad :
    (after (exec (.spPad 6) (withSponge { fresh 136 0x1f false 0 with A := lane0 0x636261, pos := 3 }))).S.A.lane 0 =
      0xb225e24fa75d983a := by decide

/-- 95 V19f. -/
theorem test_spPad_squeezing : answer (exec (.spPad 6) squeezing136) = reply 5 0 := by decide

/-- 95 V10. -/
theorem test_spSqueeze :
    answer (exec (.spSqueeze 8) sponge136) = reply 0 8 ++ [0xa7, 0xff, 0xc6, 0xf8, 0xbf, 0x1e, 0xd7, 0x66] := by decide

/-- 95 V19g. -/
theorem test_spSqueeze_budget : answer (exec (.spSqueeze 1) (withSponge (fresh 136 6 true 0))) = reply 4 0 := by decide

/-- 41 R121. -/
theorem test_spReset :
    (after (exec .spReset (withSponge { fresh 72 6 true 9 with A := lane0 1, remain := 2, dir := .squeezing, pos := 7 }))).S
      = fresh 72 6 true 9 := by decide

/-- 41 R122. -/
theorem test_spSnap : (after (exec .spSnap sponge136)).SS = { toSponge := fresh 136 6 false 0, valid := true } := by decide

/-- 41 R123. -/
theorem test_spRestore :
    (after (exec .spRestore { State.reset with SS := { toSponge := fresh 9 1 true 4, valid := true } })).S =
      fresh 9 1 true 4 := by decide

/-- 41 R123. -/
theorem test_spRestore_none : answer (exec .spRestore sponge136) = reply 5 0 := by decide

/-- 95 V20. -/
theorem test_vmKey : (after (exec (.vmKey (zeros 32)) State.reset)).V.snap.lane 0 = 0x48107c1986b54cea := by decide

/-- 95 B3. -/
theorem test_vmKey_empty : answer (exec (.vmKey []) State.reset) = reply 1 0 := by decide

/-- 95 V20: the first separator is the key terminator, so from zero lanes an input gives what priming gives. -/
theorem test_vmInput :
    (after (exec (.vmInput (zeros 32)) (withVmac LaneFile.zero 0 false))).V.A.lane 24 = 0xb7e243faaa99365b := by decide

/-- 42 R147. -/
theorem test_vmInput_bound :
    (after (exec (.vmInput []) (withVmac LaneFile.zero 128 false))).V.ovf = true ∧
      answer (exec (.vmInput []) (withVmac LaneFile.zero 128 false)) = reply 1 0 := by decide

/-- 95 V20, V20b. -/
theorem test_vmTag :
    answer (exec (.vmTag 8) (withVmac (lane0 0x48107c1986b54cea) 0 false)) =
      reply 0 8 ++ [0xea, 0x4c, 0xb5, 0x86, 0x19, 0x7c, 0x10, 0x48] ∧
      (after (exec (.vmTag 8) (withVmac (lane0 0x48107c1986b54cea) 3 false))).V = (withVmac (lane0 7) 0 false).V := by decide

/-- 42 R148. -/
theorem test_vmTag_refused :
    answer (exec (.vmTag 8) (withVmac (lane0 1) 128 true)) = reply 1 0 ∧
      (after (exec (.vmTag 8) (withVmac (lane0 1) 128 true))).V = (withVmac (lane0 7) 0 false).V := by decide

/-- 42 R149. -/
theorem test_vmReset : (after (exec .vmReset (withVmac (lane0 1) 5 true))).V = (withVmac (lane0 7) 0 false).V := by decide

/-- 42 R149. -/
theorem test_vmReset_none : answer (exec .vmReset State.reset) = reply 5 0 := by decide

/-- 95 V21. -/
theorem test_vmac_v21 :
    vmac Params.default (zeros 32) [[0x61], [0x62]] 8 = [0xd8, 0xae, 0x09, 0x0c, 0x42, 0x6c, 0x4e, 0x39] := by decide

/-- 95 V15: the XOF takes `P_XOF_RATE`, here 168, and not `P_VMAC_RATE`. -/
theorem test_xof_168 :
    xof { Params.default with xofRate := 168 } [] 8 = [0x7f, 0x9c, 0x2b, 0xa4, 0xe8, 0x8f, 0x82, 0x7d] := by decide

/-- 95 V21, V15b: the vector MAC takes `P_VMAC_RATE`, whatever `P_XOF_RATE` is; the XOF takes `P_XOF_RATE`, whatever it is. -/
theorem test_rates_apart :
    vmac { Params.default with xofRate := 168 } (zeros 32) [[0x61], [0x62]] 4 = [0xd8, 0xae, 0x09, 0x0c] ∧
      xof { Params.default with vmacRate := 72 } [] 4 = [0x46, 0xb9, 0xdd, 0x2b] := by decide

/-- 43 R167. -/
theorem test_sivCtx : (after (exec (.sivCtx [1] 3) State.reset)).SIV = { valid := true, key := [1], adlen := 3 } := by decide

/-- 43 R167. -/
theorem test_sivCtx_empty : answer (exec (.sivCtx [] 3) withSiv) = reply 1 0 := by decide

/-- 43 R168. -/
theorem test_sivSeal_adlen : answer (exec (.sivSeal [] [] []) withSiv) = reply 1 0 := by decide

/-- 95 V30, under T0. -/
theorem test_siv_v30 :
    sivSealFn t0Ctr Params.default (zeros 32) [] adA7 msgA7 =
      ([0x9e, 0x05, 0x06, 0xce, 0x88, 0xa2, 0xe7, 0x96, 0x1c, 0x07, 0x2f, 0xc8, 0x58, 0x82], [0x0a, 0xc2, 0x8a, 0x97, 0x07,
      0xf2, 0x45, 0x11, 0x05, 0x40, 0xcc, 0x28] ++ [0x3e, 0xd8, 0x10, 0x9e, 0x95, 0xcc, 0x0a, 0x35, 0x46, 0x73, 0x99, 0x58])
      := by decide

/-- 95 V32. -/
theorem test_sivUnseal_short_tag : answer (exec (.sivUnseal [] adA7 (zeros 23) []) withSiv) = reply 2 0 := by decide

/-- 60 R225. -/
theorem test_sivUnseal_no_context : answer (exec (.sivUnseal [] adA7 (zeros 23) []) State.reset) = reply 5 0 := by decide

/-- 95 V40. -/
theorem test_stCtx : (after (exec (.stCtx (zeros 32) [1, 2, 3, 4]) State.reset)).ST = (withStream []).ST := by decide

/-- 95 V45. -/
theorem test_stCtx_empty : answer (exec (.stCtx [] [1]) State.reset) = reply 1 0 := by decide

/-- 95 V44. -/
theorem test_stSeal :
    answer (exec (.stSeal [] []) (withStream [.ok nonceV40])) = reply 0 56 ++ nonceV40 ++ tagV44 ∧
      answer (exec (.stSeal [] []) (withStream [.fail])) = reply 3 0 := by decide

/-- 95 V44, opened: the empty plaintext. -/
theorem test_stOpen : answer (exec (.stOpen [] (nonceV40 ++ tagV44)) (withStream [])) = reply 0 0 := by decide

/-- 95 V42. -/
theorem test_stOpen_short : answer (exec (.stOpen [] (zeros 55)) (withStream [])) = reply 2 0 := by decide

/-- 95 V40, under T0. -/
theorem test_st_v40 :
    (stSealFn t0Str Params.default hashKeyV40 cipherKeyV40 nonceV40 adA7 msgA7).drop 56 =
      [0xe3, 0xed, 0x82, 0xb1, 0xb2, 0x2f, 0x65, 0xc3, 0xbf, 0xa2, 0x58, 0xbe, 0x25, 0x01] := by decide

/-- 45 R196. -/
theorem test_aoKey : (after (exec (.aoKey (zeros 32)) State.reset)).AO = { key := zeros 32, dflt := false } := by decide

/-- 95 V53. -/
theorem test_aoKey_31 : answer (exec (.aoKey (zeros 31)) State.reset) = reply 1 0 := by decide

/-- 95 V53; 60 R225: no draw. -/
theorem test_aoPackage :
    answer (exec (.aoPackage 31 []) { State.reset with entropy := [.fail] }) = reply 1 0 ∧
      answer (exec (.aoPackage 32 []) { State.reset with entropy := [.fail] }) = reply 3 0 := by decide

/-- 95 V50, under T0. -/
theorem test_ao_v50 :
    (aoPackageFn t0Str Params.default (zeros 32) 32 ([0x40, 0x41, 0x42, 0x43, 0x44, 0x45, 0x46, 0x47, 0x48, 0x49, 0x4a, 0x4b,
      0x4c, 0x4d, 0x4e, 0x4f] ++ [0x50, 0x51, 0x52, 0x53, 0x54, 0x55, 0x56, 0x57, 0x58, 0x59, 0x5a, 0x5b, 0x5c, 0x5d, 0x5e,
      0x5f]) msgA7).take 22 =
      [0xb6, 0x9b, 0x6a, 0xfc, 0xfc, 0x10, 0xa9, 0x32, 0x42, 0x3f, 0x0b, 0x5e, 0x5b, 0xab] ++ [0xcc, 0xee, 0x16, 0x07, 0xc9,
      0x91, 0x8a, 0xc5] := by decide

/-- 95 V52, under T0. -/
theorem test_ao_v52 :
    aoUnpackageFn t0Str Params.default (zeros 32) 32 [0xb7, 0x9b, 0x6a, 0xfc, 0xfc, 0x10, 0xa9, 0x32, 0x42, 0x3f, 0x0b, 0x5e,
      0x5b, 0xab] ([0xcc, 0xee, 0x16, 0x07, 0xc9, 0x91, 0x8a, 0xc5, 0xa1, 0xe2, 0xba, 0x96, 0x98, 0xb5, 0x87, 0x29] ++ [0xbf,
      0xc1, 0xa9, 0xb9, 0xdd, 0xcb, 0xa3, 0x77, 0xb0, 0x8a, 0x7e, 0x06, 0x02, 0x95, 0xc5, 0x78]) =
      [0x3b, 0xa2, 0xc7, 0xac, 0x14, 0x2b, 0x74, 0x42, 0x04, 0x07, 0x3f, 0xca, 0xdc, 0x10] := by decide

/-- 95 V53. -/
theorem test_aoUnpackage_31 : answer (exec (.aoUnpackage [] (zeros 31)) State.reset) = reply 1 0 := by decide

/-- 95 B7. -/
theorem test_rdsr_5 : answer (exec (.rdsr 5) State.reset) = reply 0 4 ++ [0x04, 0x00, 0x00, 0x00] := by decide

/-- 46 R205. -/
theorem test_rdsr_1 :
    answer (exec (.rdsr 1) (withSponge { fresh 136 6 false 0 with pos := 3 })) =
      reply 0 4 ++ [0x03, 0x00, 0x00, 0x00] := by decide

/-- 95 B7, 60 R222. -/
theorem test_step_illegal :
    answer (step (handed [.frame []])) = reply 6 0 ∧ (after (step (handed [.frame []]))).ERRLOG = 0x40 := by decide

/-- 95 B7: `RDSR n=8`. -/
theorem test_step_fetch_word : answer (step (State.reset.withFetchWord 32 0x60080000)) = reply 1 0 := by decide

/-! ### Witnesses: a concrete input that meets the hypotheses of each obligation, clause by clause -/

/-- A machine that meets the invariant with every group in use and a frame handed over. -/
def busy : State :=
  { State.reset with
    S := { fresh 136 6 true 32 with pos := 135, remain := 31 }
    SS := { toSponge := { fresh 200 0 false 0 with dir := .squeezing, pos := 200 }, valid := true }
    V := { valid := true, A := lane0 1, snap := lane0 7, pos := 0, idx := 128, ovf := false }
    SIV := { valid := true, key := zeros 255, adlen := 3 }
    ST := { valid := true, hashKey := hashKeyV40, cipherKey := cipherKeyV40 }
    AO := { key := hashKeyV40, dflt := false }
    ERRLOG := 0x7e
    inbox := [.frame [0x00, 0x00, 0x05, 0x60]]
    entropy := [.fail] }

theorem witness_DecodeOfEncodeIsTheCommand :
    (Instr.sivUnseal [1] [2] (zeros 255) [3]).wellFormed = true ∧ (Instr.kfRound 255 (zeros 200)).wellFormed = true := by decide

theorem witness_EncodeOfDecodeIsTheFrame : decode [0x00, 0x00, 0xff, 0x12] = .ok (.spPad 255) := by rfl

theorem witness_IllegalFrames_short : ([0, 0, 0] : Frame).length < 4 ∧ decode [0, 0, 0] = .error .shortHeader := ⟨by decide, by rfl⟩

theorem witness_IllegalFrames_opcode :
    4 ≤ ([0, 0, 0, 0x61] : Frame).length ∧ Op.ofCode (([0, 0, 0, 0x61] : Frame).getD 3 0) = none := by decide

theorem witness_IllegalFrames_mbz :
    Op.ofCode (([2, 6, 136, 0x10] : Frame).getD 3 0) = some .spInit ∧
      frameWord [2, 6, 136, 0x10] 0 &&& Op.spInit.format.mbzMask ≠ 0 := by decide

theorem witness_IllegalFrames_operands :
    frameWord [1, 6, 136, 0x10, 0, 0, 0] 0 &&& Op.spInit.format.mbzMask = 0 ∧
      ([1, 6, 136, 0x10, 0, 0, 0] : Frame).length < 4 + 4 * Op.spInit.format.words := by decide

theorem witness_IllegalFrames_length :
    let F : Frame := [0, 0, 0, 0x11, 2, 0, 0, 0, 0x61]
    Op.ofCode (F.getD 3 0) = some .spAbsorb ∧ 4 + 4 * Op.spAbsorb.format.words ≤ F.length ∧
      F.length ≠ 4 + 4 * Op.spAbsorb.format.words +
        payloadLength .spAbsorb (F.getD 2 0) (F.getD 1 0) [frameWord F 1, frameWord F 2, frameWord F 3] := by decide

theorem witness_IllegalFrames_legal :
    let F : Frame := [0, 0, 0, 0x11, 1, 0, 0, 0, 0x61]
    Op.ofCode (F.getD 3 0) = some .spAbsorb ∧ frameWord F 0 &&& Op.spAbsorb.format.mbzMask = 0 ∧
      F.length = 4 + 4 * Op.spAbsorb.format.words +
        payloadLength .spAbsorb (F.getD 2 0) (F.getD 1 0) [frameWord F 1, frameWord F 2, frameWord F 3] := by decide

theorem witness_IllegalFrames_step :
    (handed [.frame []]).inbox = .frame [] :: [] ∧ decode [] = .error .shortHeader := ⟨rfl, by rfl⟩

theorem witness_IllegalFrames_values :
    23 < (24 : Byte).toNat ∧ 7 < (8 : Byte).toNat ∧ (31 : Byte).toNat < 32 ∧ (zeros 31).length < 32 := by decide

theorem witness_OpcodeMapIsExact :
    Op.ofCode (([0, 0, 0, 0xff] : Frame).getD 3 0) = none ∧ decode [0, 0, 0, 0x14] = .ok .spReset := ⟨by decide, by rfl⟩

theorem witness_ResponseFrameLayout : (zeros 200).length < 2 ^ 32 := by decide

theorem witness_StateByteView :
    (24 : Nat) < 25 ∧ (7 : Nat) < 8 ∧ getByte (lane0 0x0807060504030201) 7 = 8 ∧ (zeros 200).length = 200 := by decide

/-- For `ThetaAndChiFormulas`, `RhoOffsetsAndPiPositions`, `IotaRoundConstants` (95 V3). -/
theorem witness_PermutationSteps :
    (4 : Nat) < 5 ∧ (24 : Nat) < 25 ∧ (23 : Nat) < 24 ∧ (63 : Nat) < 64 ∧ (theta (lane0 1)).at 4 4 = 2 ∧
      (iota LaneFile.zero 23).lane 0 = 0x8000000080008008 ∧ rol64 0x8000000000000001 62 = 0x6000000000000000 := by decide

theorem witness_MemXorTouchesOneByte : (199 : Nat) < 200 ∧ getByte (memXor LaneFile.zero 199 0x80) 199 = 0x80 := by decide

theorem witness_AbsorbWithinABlock : 198 + ([1] : Bytes).length < 200 ∧ 0 + (zeros 135).length < 136 ∧ 136 ≤ 200 := by decide

theorem witness_AbsorbPermutesFullBlocks : 199 < 200 ∧ 0 < 1 ∧ 1 ≤ 200 ∧ ([7] : Bytes).length = 1 := by decide

theorem witness_PaddingFlipsTwoPositions : 135 < 136 ∧ 0 < 1 ∧ 199 < 200 ∧ 200 ≤ 200 := by decide

theorem witness_SqueezeReadsTheWindow : 0 + 136 ≤ 136 ∧ 0 < 136 ∧ (squeeze (lane0 0x0201) 0 136 2).out = [1, 2] := by decide

theorem witness_RawPermutationCommandsRespond :
    (zeros 200).length = 200 ∧ (23 : Byte).toNat ≤ 23 ∧ 23 < (24 : Byte).toNat := by decide

/-- 24 rounds of the zero state, each fed the output of the one before. -/
theorem witness_RoundCommandsComposeToPermute :
    let sts : Nat → Bytes := fun n => bytesOfLanes (keccakRounds n LaneFile.zero)
    ∀ ir : Nat, ir < 24 →
      exec (.kfRound (BitVec.ofNat 8 ir) (sts ir)) State.reset = .next (okResponse (sts (ir + 1)) State.reset) := by
  intro sts ir h
  have e : (BitVec.ofNat 8 ir).toNat = ir := by rw [BitVec.toNat_ofNat]; omega
  simp only [exec, execKfRound, e]
  rw [if_neg (by omega), respond_eq, lanesOfBytes_bytesOfLanes]; rfl

theorem witness_SpInitConstructs :
    1 ≤ (1 : Byte).toNat ∧ (200 : Byte).toNat ≤ 200 ∧ (0 : Byte).toNat < 1 ∧ 200 < (201 : Byte).toNat ∧ (1 : Word) ≠ 0 := by decide

/-- For `SpAbsorbAbsorbs`, `SpPadSwitches` and the unconfigured case of `SpSqueezeGivesOutput`. -/
theorem witness_SpongeCommands_absorbing :
    sponge136.S.cfg = true ∧ sponge136.S.dir = .absorbing ∧ State.reset.S.cfg = false ∧ squeezing136.S.dir = .squeezing := by decide

/-- For `SpSqueezeGivesOutput`: all asked bytes, and the truncated rest (95 V10's first bytes). -/
theorem witness_SpSqueeze_all_cases :
    let s := withSponge (fresh 136 6 true 4)
    s.S.cfg = true ∧ answer (exec (.spSqueeze 4) s) = reply 0 4 ++ [0xa7, 0xff, 0xc6, 0xf8] ∧
      answer (exec (.spSqueeze 5) s) = reply 4 4 ++ [0xa7, 0xff, 0xc6, 0xf8] := by decide

theorem witness_SpResetAndSnap : sponge136.S.cfg = true ∧ State.reset.S.cfg = false := by decide

theorem witness_SnapThenRestoreReturnsTheSponge :
    busy.SS.valid = true ∧ State.reset.SS.valid = false ∧ busy.S.cfg = true ∧ NoReset busy ∧
      Instr.spSnap ∉ [Instr.spPad 1, .spInit 9 9 false 0, .spRestore] := by decide

theorem witness_PiecewiseSqueezeAndAbsorb :
    busy.S.cfg = true ∧ 31 < 2 ^ 32 ∧ 31 ≤ busy.S.remain.toNat ∧ busy.S.dir = .absorbing := by decide

theorem witness_SqueezedBytesStayWithinBudget :
    1 ≤ (1 : Byte).toNat ∧ (200 : Byte).toNat ≤ 200 ∧ NoReset busy ∧ busy.S.cfg = true ∧ busy.S.fx = true ∧
      ∀ i ∈ [Instr.spSqueeze 20, .spSnap, .spSqueeze 20],
        i.command.op ≠ .spInit ∧ i.command.op ≠ .spReset ∧ i.command.op ≠ .spRestore := by decide

theorem witness_SqueezingEndsOnlyByThreeCommands :
    NoReset squeezing136 ∧ squeezing136.S.dir = .squeezing ∧ (after (exec .spReset squeezing136)).S.dir = .absorbing ∧
      (Instr.spAbsorb [1]).command.op = .spAbsorb ∧ (Instr.spPad 1).command.op = .spPad := by decide

theorem witness_VmKeyPrimes : ([1] : Bytes) ≠ [] := by decide

theorem witness_VmInput_accepted :
    (withVmac LaneFile.zero 127 false).V.valid = true ∧ (withVmac LaneFile.zero 127 false).V.ovf = false ∧
      (withVmac LaneFile.zero 127 false).V.idx < (withVmac LaneFile.zero 127 false).params.vmacMaxInputs := by decide

theorem witness_VmInput_refused :
    (withVmac LaneFile.zero 128 false).params.vmacMaxInputs ≤ (withVmac LaneFile.zero 128 false).V.idx ∧
      (withVmac LaneFile.zero 0 true).V.ovf = true ∧ State.reset.V.valid = false := by decide

theorem witness_VmTagAnswersAndRestores :
    (withVmac LaneFile.zero 1 false).V.valid = true ∧ (withVmac LaneFile.zero 1 false).V.ovf = false ∧
      (withVmac LaneFile.zero 1 true).V.ovf = true ∧ State.reset.V.valid = false := by decide

theorem witness_ComputationGivesTheVmac :
    ([1] : Bytes) ≠ [] ∧ (List.replicate 128 ([] : Bytes)).length ≤ State.reset.params.vmacMaxInputs := by decide

theorem witness_TooManyInputsGiveNoTag :
    State.reset.params.vmacMaxInputs < (List.replicate 129 ([] : Bytes)).length := by decide

theorem witness_SivContextLoads : zeros 255 ≠ [] ∧ (Instr.sivCtx (zeros 255) 0).wellFormed = true := by decide

/-- For `SivSealResponds` and `SivUnsealResponds`. -/
theorem witness_SivSealAndUnseal :
    withSiv.SIV.valid = true ∧ adA7.length = withSiv.SIV.adlen.toNat ∧ State.reset.SIV.valid = false ∧
      ([] : Bytes).length ≠ withSiv.SIV.adlen.toNat ∧ (zeros 23).length ≠ 24 := by decide

/-- The tag recomputed over the candidate is the supplied one: 95 V34, where no keystream byte is used. -/
theorem witness_SivUnseal_accepts :
    let s : State := { State.reset with SIV := { valid := true, key := zeros 32, adlen := 0 } }
    let tag : Bytes :=
      [0x0c, 0x59, 0xb9, 0xb2, 0x15, 0xb4, 0xcf, 0x66, 0x20, 0x43, 0x12, 0xd0] ++
        [0xa1, 0x5c, 0x39, 0x0f, 0x68, 0x66, 0xba, 0xdf, 0x40, 0x3f, 0x06, 0xbc]
    s.SIV.valid = true ∧ ([] : Bytes).length = s.SIV.adlen.toNat ∧ tag.length = 24 ∧
      vmac s.params s.SIV.key [[0x6e], [], [0x61], [], [0x6d], []] 24 = tag ∧
      answer (exec (.sivUnseal [] [] tag []) s) = reply 0 0 := by decide

theorem witness_SivUnsealRecoversSealedMessage :
    withSiv.SIV.valid = true ∧ adA7.length = withSiv.SIV.adlen.toNat := by decide

theorem witness_StContextDerives : ([1] : Bytes) ≠ [] := by decide

theorem witness_StSealResponds :
    (withStream [.ok nonceV40]).ST.valid = true ∧ (withStream [.ok nonceV40]).entropy = .ok nonceV40 :: [] ∧
      nonceV40.length = 24 ∧ (withStream [.fail]).entropy = .fail :: [] ∧ State.reset.ST.valid = false := by decide

theorem witness_StSeal_waits :
    WaitsForEntropy 24 (withStream []) ∧ WaitsForEntropy 24 (withStream [.ok [1]]) ∧ NoReset (withStream []) :=
  ⟨.inl rfl, .inr ⟨[1], [], rfl, by decide⟩, by decide⟩

/-- 95 V44: a sealed string of 56 bytes with its tag. -/
theorem witness_StOpen_accepts :
    let s := withStream []
    s.ST.valid = true ∧ 56 ≤ (nonceV40 ++ tagV44).length ∧
      xof s.params (s.ST.hashKey ++ (nonceV40 ++ tagV44).take 24 ++ [] ++ (nonceV40 ++ tagV44).drop 56) 32 =
        ((nonceV40 ++ tagV44).drop 24).take 32 := by decide

theorem witness_StOpen_refuses : (zeros 55).length < 56 ∧ State.reset.ST.valid = false := by decide

theorem witness_StOpenRecoversSealedPlaintext :
    (withStream [.ok nonceV40]).ST.valid = true ∧ (withStream [.ok nonceV40]).entropy = .ok nonceV40 :: [] ∧
      nonceV40.length = 24 := by decide

theorem witness_AoKeyLoads : (zeros 32).length = 32 ∧ (zeros 33).length ≠ 32 := by decide

theorem witness_AoPackageResponds :
    32 ≤ (32 : Byte).toNat ∧ (zeros 32).length = (32 : Byte).toNat ∧ (31 : Byte).toNat < 32 ∧
      ({ State.reset with entropy := [.ok (zeros 32)] } : State).entropy = .ok (zeros 32) :: [] := by decide

theorem witness_AoPackage_waits :
    WaitsForEntropy (255 : Byte).toNat { State.reset with entropy := [.ok (zeros 32)] } ∧ NoReset State.reset :=
  ⟨.inr ⟨zeros 32, [], rfl, by decide⟩, by decide⟩

theorem witness_AoUnpackageResponds :
    (zeros 255).length < 256 ∧ 32 ≤ (zeros 255).length ∧ 32 ≤ (zeros 32).length ∧ (zeros 31).length < 32 := by decide

theorem witness_AoUnpackageRecoversPackagedMessage :
    32 ≤ (255 : Byte).toNat ∧ (zeros 255).length = (255 : Byte).toNat := by decide

theorem witness_RdsrReadsStatusRegisters : 7 < (8 : Byte).toNat := by decide

theorem witness_StepRunsTheDecodedCommand :
    busy.inbox = .frame [0x00, 0x00, 0x05, 0x60] :: [] ∧ decode [0x00, 0x00, 0x05, 0x60] = .ok (.rdsr 5) := ⟨rfl, by rfl⟩

theorem witness_StepWaitsOrResets :
    State.reset.inbox = [] ∧ (handed [.hardwareReset]).inbox = .hardwareReset :: [] := by decide

theorem witness_StepWaitsOrResets_held :
    let F : Frame := [0x00, 0x00, 0x20, 0x51, 0x00, 0x00, 0x00, 0x00]
    (handed [.frame F, .hardwareReset]).inbox = .frame F :: .hardwareReset :: [] ∧ decode F = .ok (.aoPackage 32 []) ∧
      drawLength (.aoPackage 32 []) = some 32 ∧ WaitsForEntropy 32 (handed [.frame F, .hardwareReset]) ∧
      ¬ phaseErrorCause (.aoPackage 32 []) (handed [.frame F, .hardwareReset]) ∧
      ¬ configErrorCause (.aoPackage 32 []) (handed [.frame F, .hardwareReset]) := by
  refine ⟨rfl, by rfl, rfl, .inl rfl, id, ?_⟩
  show ¬ (32 : Byte).toNat < 32
  decide

theorem witness_StepKeepsInvariant : busy.Inv ∧ ∃ t, step busy = .next t :=
  ⟨⟨by decide, by decide, by decide, by decide, by decide, by decide, by decide, by decide⟩, step_next busy⟩

theorem witness_EveryFrameGetsOneResponse :
    busy.inbox = .frame [0x00, 0x00, 0x05, 0x60] :: [] ∧ ([] : List HostEvent).head? ≠ some .hardwareReset := by decide

/-- `coreStep` answers a frame, and gives nothing while a draw is blocked. -/
theorem witness_coreStep :
    (coreStep Params.default none [0x00, 0x00, 0x05, 0x60] Arch.reset).isSome = true ∧
      (coreStep Params.default none [0x00, 0x00, 0x20, 0x51, 0x00, 0x00, 0x00, 0x00] Arch.reset).isNone = true := by decide

theorem witness_ResetStateMeetsInvariant :
    Params.default.Admissible ∧ ({ vmacRate := 1, xofRate := 168, vmacMaxInputs := 95, streamIvLen := 1 } : Params).Admissible := by
  decide

theorem witness_ErrorsChangeNothingElse :
    (after (exec (.vmInput []) (withVmac LaneFile.zero 128 false))).outbox = [] ++ [responseFrame .configError []] ∧
      (after (exec (.vmTag 1) (withVmac LaneFile.zero 0 true))).outbox = [] ++ [responseFrame .configError []] ∧
      (after (exec (.spAbsorb []) State.reset)).outbox = [] ++ [responseFrame .phaseError []] := by decide

theorem witness_PhaseErrorsMatchTheTable :
    phaseErrorCause (.spAbsorb []) State.reset ∧ phaseErrorCause (.spPad 1) squeezing136 ∧
      ¬ phaseErrorCause (.spAbsorb []) sponge136 := by
  refine ⟨.inl rfl, .inr rfl, ?_⟩
  rintro (h | h) <;> exact absurd h (by decide)

theorem witness_ConfigErrorsMatchTheTable :
    ¬ phaseErrorCause (.rdsr 8) State.reset ∧ configErrorCause (.rdsr 8) State.reset ∧
      (after (exec (.rdsr 8) State.reset)).outbox = [] ++ [responseFrame .configError []] := by
  refine ⟨id, ?_, by decide⟩
  show 7 < (8 : Byte).toNat
  decide

/-- Two machines that differ in a field without a value. -/
theorem witness_UnvaluedFieldsNeverMatter :
    State.reset.Agree { State.reset with S := { State.reset.S with rate := 7 } } ∧ step State.reset = .next State.reset :=
  ⟨{ sponge := ⟨rfl, fun h => absurd h (by decide), rfl, rfl, rfl⟩, shadowValid := rfl, shadow := fun _ => rfl, vmac := rfl,
     sivValid := rfl, siv := fun _ => rfl, streamValid := rfl, stream := fun _ => rfl, aont := rfl, errlog := rfl, params := rfl,
     inbox := rfl, outbox := rfl, entropy := rfl }, rfl⟩

theorem witness_EnginesShareNoState : NoReset busy ∧ family (.rdsr 5) ≠ 1 ∧ family (.rdsr 5) ≠ 2 := by decide

theorem witness_KeysReachOnlyTheirEngines :
    ¬ usesKey (.rdsr 5) ∧ (Instr.stSeal [] []).command.op ≠ .sivSeal ∧ (Instr.stSeal [] []).command.op ≠ .sivUnseal ∧
      (Instr.aoPackage 32 []).command.op ≠ .stSeal ∧ (Instr.aoPackage 32 []).command.op ≠ .stOpen ∧
      (Instr.sivSeal [] [] []).command.op ≠ .aoPackage ∧ (Instr.sivSeal [] [] []).command.op ≠ .aoUnpackage := by
  unfold usesKey; decide

theorem witness_XofIsASpongeRun :
    1 ≤ (1 : Byte).toNat ∧ (200 : Byte).toNat ≤ 200 ∧ State.reset.params.Admissible ∧
      ({ State.reset.params with xofRate := 168 } : Params).Admissible := by decide

theorem witness_OnlyTwoCommandsDraw :
    drawLength (.rdsr 5) = none ∧ drawLength (.stSeal [] []) = some 24 ∧ drawLength (.aoPackage 255 []) = some 255 := by decide

end Sys2Proof.Tests
end

section
/-! PROOFS, 00 scope: what a step does when the oldest thing the host has sent is a frame that decodes (00 R15, 20 R60). -/

namespace Sys2Proof.Machine

/-- A decoding frame at the head of the inbox is fetched as its command, whatever follows it. -/
theorem fetch_eq_command {s : State} {F : Frame} {rest : List HostEvent} {i : Instr}
    (hin : s.inbox = .frame F :: rest) (hdec : decode F = .ok i) : fetch s = .command i := by
  simp only [fetch, hin, hdec]

/-- The command is executed at the state it was fetched from: fetching takes no frame (log 1). -/
theorem step_eq_exec {s : State} {i : Instr} (hfetch : fetch s = .command i) : step s = exec i s := by
  simp only [step, hfetch]

/-- Settles O47: the frame is fetched as its command, and the step executes what was fetched. -/
theorem stepRunsTheDecodedCommand : Obligations.StepRunsTheDecodedCommand := by
  intro s F rest i hin hdec
  exact step_eq_exec (fetch_eq_command hin hdec)

end Sys2Proof.Machine
end

section
/-! PROOFS, 10 state: a command as its effect, that is the response it gives, the one group it writes and the entropy answers it
leaves, or the hold of a blocked draw. The effect is decided in the order of the checks: the phase (60 R221), the operand values
(60 R217), then the command's own work (60 R225). -/

namespace Sys2Proof.Machine

/-- The one group of the architectural state that a command writes, with the value it writes there (10 R20). -/
inductive GroupWrite where
  | nothing
  | sponge (S : Sponge)
  | shadow (SS : Shadow)
  | vmac (V : VectorMac)
  | siv (c : SivContext)
  | stream (c : StreamContext)
  | aont (c : AontContext)

/-- The state with the group written. -/
def GroupWrite.apply : GroupWrite → State → State
  | .nothing, s => s
  | .sponge S, s => { s with S := S }
  | .shadow SS, s => { s with SS := SS }
  | .vmac V, s => { s with V := V }
  | .siv c, s => { s with SIV := c }
  | .stream c, s => { s with ST := c }
  | .aont c, s => { s with AO := c }

/-- What executing a command comes to: a response with a write and the entropy answers left, or the hold (46 R207). -/
inductive Effect where
  | answer (st : Status) (out : Bytes) (w : GroupWrite) (left : List EntropyAnswer)
  | held

/-- The effect taken at a state. -/
def Effect.run : Effect → State → State
  | .answer st out w left, s => finish st out (w.apply { s with entropy := left })
  | .held, s => hold s

/-- The effect's write, if it answers, has the property `P`. -/
def Effect.Writes (P : GroupWrite → Prop) : Effect → Prop
  | .answer _ _ w _ => P w
  | .held => True

/-- The effect of a command that draws `n` bytes and answers `f` of them, by the source's coming answers (46 R207). -/
def Effect.ofDraw (n : Nat) (f : Bytes → Bytes) : List EntropyAnswer → Effect
  | [] => .held
  | .fail :: left => .answer .entropyError [] .nothing left
  | .ok r :: left => if r.length = n then .answer .ok (f r) .nothing left else .held

/-- The effect of an authenticated opening: the message, or `AUTH_FAIL` (43 R166, 44 R179). -/
def Effect.ofOpened (left : List EntropyAnswer) : Option Bytes → Effect
  | none => .answer .authFail [] .nothing left
  | some msg => .answer .ok msg .nothing left

/-- What `SP.SQUEEZE olen` squeezes from a configured sponge (41 R120). -/
def squeezeOf (S : Sponge) (olen : Word) : Squeezed :=
  squeeze (readyToSqueeze S).A (readyToSqueeze S).pos (readyToSqueeze S).rate.toNat (squeezeCount S olen)

/-- The sponge that `SP.SQUEEZE olen` leaves (41 R120). -/
def spongeAfterSqueeze (S : Sponge) (olen : Word) : Sponge :=
  { readyToSqueeze S with
    A := (squeezeOf S olen).A, pos := (squeezeOf S olen).pos, remain := remainAfter S (squeezeCount S olen) }

/-- `BUDGET_EXCEEDED` when fewer bytes are left than asked for (41 R120). -/
def squeezeStatus (S : Sponge) (olen : Word) : Status :=
  if squeezeCount S olen < olen.toNat then .budgetExceeded else .ok

/-- What a command writes although its operands are refused: the two exceptions of 60 R226. -/
def refusedWrite (i : Instr) (s : State) : GroupWrite :=
  match i with
  | .vmInput _ => .vmac { s.V with ovf := true }
  | .vmTag _ => .vmac (restoreSnapshot s.V)
  | _ => .nothing

/-- The effect of a command whose phase and operand values are accepted (40 to 46). -/
def acceptedEffect (i : Instr) (s : State) : Effect :=
  let done (out : Bytes) (w : GroupWrite) : Effect := .answer .ok out w s.entropy
  match i with
  | .kfPermute st => done (bytesOfLanes (keccakF (lanesOfBytes st))) .nothing
  | .kfRound ir st => done (bytesOfLanes (keccakRound (lanesOfBytes st) ir.toNat)) .nothing
  | .spInit rate ds fx budget =>
    done [] (.sponge ⟨LaneFile.zero, rate, ds, fx, budget, budget, .absorbing, 0, true⟩)
  | .spAbsorb data =>
    let a := absorb s.S.A s.S.pos s.S.rate.toNat data
    done [] (.sponge { s.S with A := a.1, pos := a.2 })
  | .spPad dsb => done [] (.sponge (padAndSwitch dsb s.S))
  | .spSqueeze olen =>
    .answer (squeezeStatus s.S olen) (squeezeOf s.S olen).out (.sponge (spongeAfterSqueeze s.S olen)) s.entropy
  | .spReset => done [] (.sponge { s.S with A := LaneFile.zero, dir := .absorbing, pos := 0, remain := s.S.budget0 })
  | .spSnap => done [] (.shadow ⟨s.S, true⟩)
  | .spRestore => done [] (.sponge s.SS.toSponge)
  | .vmKey key => done [] (.vmac ⟨true, vmPrime s.params key, vmPrime s.params key, 0, 0, false⟩)
  | .vmInput x => done [] (.vmac { s.V with A := vmInputLanes s.params s.V.A s.V.idx x, idx := s.V.idx + 1 })
  | .vmTag tlen => done (vmTagBytes s.params s.V.A tlen.toNat) (.vmac (restoreSnapshot s.V))
  | .vmReset => done [] (.vmac (restoreSnapshot s.V))
  | .sivCtx key adlen => done [] (.siv ⟨true, key, adlen⟩)
  | .sivSeal nonce ad msg =>
    let r := sivSealFn Config.ctrKeystream s.params s.SIV.key nonce ad msg
    done (r.2 ++ r.1) .nothing
  | .sivUnseal nonce ad tag ct =>
    .ofOpened s.entropy (sivUnsealFn Config.ctrKeystream s.params s.SIV.key nonce ad ct tag)
  | .stCtx key cnonce =>
    let k := stCtxFn s.params key cnonce
    done [] (.stream ⟨true, k.1, k.2⟩)
  | .stSeal ad pt =>
    .ofDraw Config.stNonceLen
      (fun nonce => stSealFn Config.streamKeystream s.params s.ST.hashKey s.ST.cipherKey nonce ad pt) s.entropy
  | .stOpen ad sealed =>
    .ofOpened s.entropy (stOpenFn Config.streamKeystream s.params s.ST.hashKey s.ST.cipherKey ad sealed)
  | .aoKey key => done [] (.aont ⟨key, false⟩)
  | .aoPackage tlen msg =>
    .ofDraw tlen.toNat (fun r => aoPackageFn Config.streamKeystream s.params s.AO.key tlen.toNat r msg) s.entropy
  | .aoUnpackage ct tag =>
    done (aoUnpackageFn Config.streamKeystream s.params s.AO.key tag.length ct tag) .nothing
  | .rdsr n => done (le32 ((statusRegister n.toNat s).getD 0)) .nothing

/-- The effect a command has at a state, by the order of the checks (60 R225). -/
inductive HasEffect (i : Instr) (s : State) : Effect → Prop where
  | phaseError (hp : phaseErrorCause i s) : HasEffect i s (.answer .phaseError [] .nothing s.entropy)
  | configError (hp : ¬ phaseErrorCause i s) (hc : configErrorCause i s) :
      HasEffect i s (.answer .configError [] (refusedWrite i s) s.entropy)
  | accepted (hp : ¬ phaseErrorCause i s) (hc : ¬ configErrorCause i s) : HasEffect i s (acceptedEffect i s)

theorem exists_hasEffect (i : Instr) (s : State) : ∃ e, HasEffect i s e := by
  by_cases hp : phaseErrorCause i s
  · exact ⟨_, .phaseError hp⟩
  · by_cases hc : configErrorCause i s
    · exact ⟨_, .configError hp hc⟩
    · exact ⟨_, .accepted hp hc⟩

/-! ### What an effect writes -/

/-- A drawing command writes no group, however its draw ends. -/
theorem Effect.ofDraw_writes {P : GroupWrite → Prop} (h : P .nothing) (n : Nat) (f : Bytes → Bytes)
    (answers : List EntropyAnswer) : (Effect.ofDraw n f answers).Writes P := by
  unfold Effect.ofDraw
  split
  · trivial
  · exact h
  · split
    · exact h
    · trivial

/-- An opening writes no group, whether it succeeds or not. -/
theorem Effect.ofOpened_writes {P : GroupWrite → Prop} (h : P .nothing) (left : List EntropyAnswer) (opened : Option Bytes) :
    (Effect.ofOpened left opened).Writes P := by
  cases opened <;> exact h

/-- A property of every command's write, from the three kinds of effect. -/
theorem HasEffect.writes {P : GroupWrite → Prop} {i : Instr} {s : State} {e : Effect} (he : HasEffect i s e)
    (hnothing : P .nothing) (hrefused : P (refusedWrite i s))
    (haccepted : ¬ phaseErrorCause i s → ¬ configErrorCause i s → (acceptedEffect i s).Writes P) : e.Writes P := by
  cases he with
  | phaseError hp => exact hnothing
  | configError hp hc => exact hrefused
  | accepted hp hc => exact haccepted hp hc

/-! ### `exec` is the taking of this effect -/

/-- A status register has a value exactly for the numbers 0 to 7 (10 R37). -/
theorem statusRegister_cases (n : Nat) (s : State) :
    (n ≤ 7 ∧ ∃ v, statusRegister n s = some v) ∨ (7 < n ∧ statusRegister n s = none) := by
  rcases Nat.lt_or_ge 7 n with hn | hn
  · obtain ⟨k, rfl⟩ := Nat.exists_eq_add_of_le' hn
    exact .inr ⟨hn, rfl⟩
  · exact .inl ⟨hn, by interval_cases n <;> exact ⟨_, rfl⟩⟩

/-- A command in the wrong phase answers `PHASE_ERROR` and writes nothing else (60 R221). -/
theorem exec_of_phaseErrorCause {i : Instr} {s : State} (hp : phaseErrorCause i s) :
    exec i s = .next (raise .phaseError s) := by
  cases i
  case spAbsorb | spPad =>
    rcases hp with hcfg | hdir
    · exact if_pos hcfg
    · exact (ite_congr rfl (fun _ => rfl) fun _ => if_pos hdir).trans (ite_self _)
  case spSqueeze | spReset | spSnap | spRestore | vmInput | vmTag | vmReset | sivSeal | sivUnseal | stSeal | stOpen =>
    exact if_pos hp
  all_goals exact hp.elim

/-- A command with a refused operand value answers `CONFIG_ERROR` (60 R217). -/
theorem exec_of_configErrorCause {i : Instr} {s : State} (hp : ¬ phaseErrorCause i s) (hc : configErrorCause i s) :
    exec i s = .next ((Effect.answer .configError [] (refusedWrite i s) s.entropy).run s) := by
  cases i
  case kfRound | vmKey | sivCtx | stCtx | aoKey | aoPackage | aoUnpackage => exact if_pos hc
  case spInit rate ds fx budget =>
    by_cases hr : rate.toNat < Config.rateMin ∨ rate.toNat > Config.rateMax
    · exact if_pos hr
    · refine (if_neg hr).trans (if_pos ?_)
      rcases hc with h | h | h
      · exact absurd (.inl (Nat.lt_one_iff.mpr h)) hr
      · exact absurd (.inr h) hr
      · exact h
  case vmInput => exact (if_neg hp).trans (if_pos hc.symm)
  case vmTag | sivSeal | sivUnseal => exact (if_neg hp).trans (if_pos hc)
  case rdsr n =>
    rcases statusRegister_cases n.toNat s with ⟨hn, -⟩ | ⟨-, hreg⟩
    · exact absurd hc (Nat.not_lt.mpr hn)
    · simp only [exec, execRdsr, hreg, raise_eq_finish, Effect.run, refusedWrite, GroupWrite.apply]
  all_goals exact hc.elim

/-- `SP.SQUEEZE` of a configured sponge. -/
theorem execSpSqueeze_of_cfg {s : State} (olen : Word) (h : ¬ s.S.cfg = false) :
    execSpSqueeze olen s =
      .next (finish (squeezeStatus s.S olen) (squeezeOf s.S olen).out { s with S := spongeAfterSqueeze s.S olen }) := by
  unfold execSpSqueeze squeezeStatus
  rw [if_neg h]
  dsimp only
  split <;> rfl

/-- A drawing command's three endings are `Effect.ofDraw` of the source's answers (46 R207). -/
theorem draw_eq_ofDraw (n : Nat) (f : Bytes → Bytes) (s : State) :
    (match draw n s with
      | .waiting => Host.Outcome.next (hold s)
      | .failed t => .next (raise .entropyError t)
      | .got r t => .next (respond (f r) t) : Host.Outcome State Fault Refusal) =
      .next ((Effect.ofDraw n f s.entropy).run s) := by
  rcases draw_cases n s with ⟨he, e⟩ | ⟨left, he, e⟩ | ⟨r, left, he, hl, e⟩ | ⟨r, left, he, hl, e⟩ <;>
    simp only [e, he, Effect.ofDraw]
  · rfl
  · rfl
  · rw [if_pos hl]; rfl
  · rw [if_neg hl]; rfl

/-- An accepted command does its own work. -/
theorem exec_of_accepted {i : Instr} {s : State} (hp : ¬ phaseErrorCause i s) (hc : ¬ configErrorCause i s) :
    exec i s = .next ((acceptedEffect i s).run s) := by
  cases i
  case kfPermute => rfl
  case kfRound | vmKey | sivCtx | stCtx | aoKey | aoUnpackage => exact if_neg hc
  case spReset | spSnap | spRestore | vmReset => exact if_neg hp
  case vmTag | sivSeal => exact (if_neg hp).trans (if_neg hc)
  case vmInput => exact (if_neg hp).trans (if_neg fun h => hc h.symm)
  case spAbsorb | spPad => exact (if_neg fun h => hp (.inl h)).trans (if_neg fun h => hp (.inr h))
  case spSqueeze olen => exact execSpSqueeze_of_cfg olen hp
  case spInit rate ds fx budget =>
    refine (if_neg fun hr => hc ?_).trans (if_neg fun hb => hc (.inr (.inr hb)))
    rcases hr with h | h
    · exact .inl (Nat.lt_one_iff.mp h)
    · exact .inr (.inl h)
  case sivUnseal nonce ad tag ct =>
    refine ((if_neg hp).trans (if_neg hc)).trans ?_
    simp only [acceptedEffect]
    cases sivUnsealFn Config.ctrKeystream s.params s.SIV.key nonce ad ct tag <;> rfl
  case stOpen ad sealed =>
    refine (if_neg hp).trans ?_
    simp only [acceptedEffect]
    cases stOpenFn Config.streamKeystream s.params s.ST.hashKey s.ST.cipherKey ad sealed <;> rfl
  case stSeal ad pt => exact (if_neg hp).trans (draw_eq_ofDraw _ _ s)
  case aoPackage tlen msg => exact (if_neg hc).trans (draw_eq_ofDraw _ _ s)
  case rdsr n =>
    rcases statusRegister_cases n.toNat s with ⟨-, v, hreg⟩ | ⟨hn, -⟩
    · simp only [exec, execRdsr, acceptedEffect, hreg, respond_eq_finish, Effect.run, GroupWrite.apply, Option.getD_some]
    · exact absurd hn hc

/-- Executing a command is taking its effect. -/
theorem HasEffect.exec_eq {i : Instr} {s : State} {e : Effect} (h : HasEffect i s e) : exec i s = .next (e.run s) := by
  cases h with
  | phaseError hp => exact exec_of_phaseErrorCause hp
  | configError hp hc => exact exec_of_configErrorCause hp hc
  | accepted hp hc => exact exec_of_accepted hp hc

end Sys2Proof.Machine
end

section
/-! PROOFS, 10 state: the values after hardware reset (10 R42), and the invariant I1 to I7 (10 R40) at reset and over every step. -/

namespace Sys2Proof.Machine

/-- Every lane of the zero lane file is 0. -/
@[simp] theorem zero_lane (i : Nat) : LaneFile.zero.lane i = 0 := by
  have hcol : ∀ x, LaneRow.zero.col x = 0 := fun x => by unfold LaneRow.col; split <;> rfl
  have hrow : ∀ y, LaneFile.zero.row y = LaneRow.zero := fun y => by unfold LaneFile.row; split <;> rfl
  rw [LaneFile.lane, LaneFile.at, hrow, hcol]

/-- Settles O49: every field is read off `Arch.reset`, and `State.resetWith` takes its groups from there. -/
theorem resetLeavesTheSpecsValues : Obligations.ResetLeavesTheSpecsValues :=
  ⟨rfl, fun i _ => zero_lane i, rfl, rfl, rfl, rfl, fun i _ => ⟨zero_lane i, zero_lane i⟩, rfl, rfl, rfl, rfl, rfl, rfl, rfl,
    rfl, fun _ => ⟨rfl, rfl⟩, rfl⟩

/-- The groups at their reset values meet the invariant, whatever stands beside them (10 R40, R42). -/
theorem inv_of_toArch_eq_reset {s : State} (hp : s.params.Admissible) (harch : s.toArch = Arch.reset) : s.Inv where
  params := hp
  sponge := by rw [harch]; exact fun h => nomatch h
  shadow := by rw [harch]; exact fun h => nomatch h
  vmac := by rw [harch]; exact fun h => nomatch h
  siv := by rw [harch]; exact fun h => nomatch h
  stream := by rw [harch]; exact fun h => nomatch h
  aont := by rw [harch]; exact ⟨zeros_length 32, fun _ => rfl⟩
  errlog := by rw [harch]; exact BitVec.zero_and

/-- Settles O50: the reset groups meet the invariant at every admissible value of the parameters, and the model's defaults are
admissible (log 4). -/
theorem resetStateMeetsInvariant : Obligations.ResetStateMeetsInvariant :=
  ⟨fun _ hp => inv_of_toArch_eq_reset hp rfl, inv_of_toArch_eq_reset (s := State.reset) (by decide) rfl⟩

/-! ### What a write must meet for the invariant to stay -/

/-- The value written meets its group's clauses of the invariant (10 R40). -/
def GroupWrite.Ok (p : Params) : GroupWrite → Prop
  | .nothing => True
  | .sponge S => S.Ok
  | .shadow SS => SS.Ok
  | .vmac V => V.Ok p
  | .siv c => c.Ok
  | .stream c => c.Ok
  | .aont c => c.Ok

/-- The `ERRLOG` bits no status owns stay 0 (10 R36). -/
theorem ErrlogOk.errlogAfter {log : Word} (h : ErrlogOk log) (st : Status) : ErrlogOk (errlogAfter st log) := by
  have hbit : st.logBit &&& 0xffffff81 = 0 := by cases st <;> decide
  have hor : (log ||| st.logBit) &&& 0xffffff81 = (log &&& 0xffffff81) ||| (st.logBit &&& 0xffffff81) := by
    ext i; simp only [BitVec.getElem_and, BitVec.getElem_or, Bool.and_or_distrib_right]
  rw [ErrlogOk, Machine.errlogAfter, hor, h, hbit]
  rfl

theorem State.Inv.finish {s : State} (h : s.Inv) (st : Status) (out : Bytes) : (finish st out s).Inv :=
  { h with errlog := h.errlog.errlogAfter st }

theorem State.Inv.hardwareReset {s : State} (hp : s.params.Admissible) : (hardwareReset s).Inv :=
  inv_of_toArch_eq_reset hp rfl

theorem State.Inv.hold {s : State} (h : s.Inv) : (hold s).Inv := by
  rcases hold_cases s with e | ⟨_, rest, _, e⟩ <;> rw [e]
  · exact h
  · exact .hardwareReset h.params

theorem State.Inv.apply {s : State} (h : s.Inv) {w : GroupWrite} (hw : w.Ok s.params) : (w.apply s).Inv := by
  cases w with
  | nothing => exact h
  | sponge S => exact { h with sponge := hw }
  | shadow SS => exact { h with shadow := hw }
  | vmac V => exact { h with vmac := hw }
  | siv c => exact { h with siv := hw }
  | stream c => exact { h with stream := hw }
  | aont c => exact { h with aont := hw }

theorem State.Inv.run {s : State} (h : s.Inv) {e : Effect} (he : e.Writes (·.Ok s.params)) : (e.run s).Inv := by
  cases e with
  | answer st out w left =>
    have hleft : ({ s with entropy := left } : State).Inv := { h with }
    exact (hleft.apply he).finish st out
  | held => exact h.hold

/-! ### Every command's write meets it -/

/-- Padding resets the cursor and leaves rate and budget (I2, I3). -/
theorem Sponge.Ok.padAndSwitch {S : Sponge} (h : S.Ok) (d : Byte) : (padAndSwitch d S).Ok := fun hcfg => by
  obtain ⟨hmin, hmax, -, -, hbudget⟩ := h hcfg
  exact ⟨hmin, hmax, Nat.zero_le _, nofun, hbudget⟩

theorem Sponge.Ok.readyToSqueeze {S : Sponge} (h : S.Ok) : (readyToSqueeze S).Ok := by
  unfold Machine.readyToSqueeze
  split
  · exact h.padAndSwitch S.ds
  · exact h

/-- A sponge ready to squeeze is squeezing, and its budget is the sponge's own (41 R120). -/
theorem readyToSqueeze_eq (S : Sponge) :
    (readyToSqueeze S).dir = .squeezing ∧ (readyToSqueeze S).fx = S.fx ∧ (readyToSqueeze S).budget0 = S.budget0 ∧
      (readyToSqueeze S).cfg = S.cfg := by
  unfold readyToSqueeze
  split
  · exact ⟨rfl, rfl, rfl, rfl⟩
  · exact ⟨‹_›, rfl, rfl, rfl⟩

/-- The budget never grows (I3). -/
theorem remainAfter_toNat_le (S : Sponge) (n : Nat) : (remainAfter S n).toNat ≤ S.remain.toNat := by
  unfold remainAfter
  split
  · rw [BitVec.toNat_ofNat]
    exact (Nat.mod_le _ _).trans (Nat.sub_le _ _)
  · exact le_rfl

/-- Squeezing keeps I1 to I3: the cursor stays within the window and the budget only counts down (41 R113, R120). -/
theorem Sponge.Ok.afterSqueeze {S : Sponge} (h : S.Ok) (olen : Word) : (spongeAfterSqueeze S olen).Ok := by
  obtain ⟨hdir, hfx, hbudget0, hcfg⟩ := readyToSqueeze_eq S
  intro hcfg'
  have hS : S.cfg = true := hcfg.symm.trans hcfg'
  obtain ⟨hmin, hmax, hpos, -, -, -⟩ := h.readyToSqueeze hcfg'
  obtain ⟨-, -, -, -, hfixed, hfree⟩ := h hS
  refine ⟨hmin, hmax, squeeze_pos_le _ hmin _ _ _ hpos, fun habs => ?_, fun hfix => ?_, fun hfree' => ?_⟩
  · exact absurd (hdir.symm.trans habs) (by decide)
  · have hle := hfixed (hfx.symm.trans hfix)
    exact (remainAfter_toNat_le S _).trans (hbudget0 ▸ hle)
  · have hfxS : S.fx = false := hfx.symm.trans hfree'
    obtain ⟨hb, hr⟩ := hfree hfxS
    refine ⟨hbudget0.trans hb, ?_⟩
    show remainAfter S _ = 0
    rw [remainAfter, hfxS, if_neg (by decide), hr]

theorem restoreSnapshot_ok (p : Params) (v : VectorMac) : (restoreSnapshot v).Ok p :=
  fun _ => ⟨rfl, Nat.zero_le _, fun _ _ => rfl⟩

/-- The sub-keys derived by `ST.CTX` have 32 bytes each (44 R176). -/
theorem stCtxFn_length (p : Params) (key cnonce : Bytes) :
    (stCtxFn p key cnonce).1.length = 32 ∧ (stCtxFn p key cnonce).2.length = 32 :=
  ⟨slice_length _ _ _ (by rw [xof_length]; decide), slice_length _ _ _ (by rw [xof_length])⟩

/-- A refused command's write meets the invariant: a refused input leaves the cursor, the index and I5's premise (42 R147). -/
theorem refusedWrite_ok (i : Instr) {s : State} (h : s.Inv) : (refusedWrite i s).Ok s.params := by
  unfold refusedWrite
  split
  · intro hv
    obtain ⟨hpos, hidx, -⟩ := h.vmac hv
    exact ⟨hpos, hidx, fun _ hovf => nomatch hovf⟩
  · exact restoreSnapshot_ok _ _
  · trivial

/-- An accepted command's write meets the invariant. The key of `SIV.CTX` is bounded by its length field (10 R33). -/
theorem acceptedEffect_ok {i : Instr} {s : State} (h : s.Inv) (hp : ¬ phaseErrorCause i s) (hc : ¬ configErrorCause i s)
    (hkey : ∀ key adlen, i = .sivCtx key adlen → key.length ≤ Config.keyMax) : (acceptedEffect i s).Writes (·.Ok s.params) := by
  cases i
  case kfPermute | kfRound | sivSeal | aoUnpackage | rdsr => trivial
  case sivUnseal | stOpen => exact Effect.ofOpened_writes trivial _ _
  case stSeal | aoPackage => exact Effect.ofDraw_writes trivial _ _ _
  case spPad dsb => exact h.sponge.padAndSwitch dsb
  case spSqueeze olen => exact h.sponge.afterSqueeze olen
  case vmTag | vmReset => exact restoreSnapshot_ok _ _
  case spSnap => exact fun _ => ⟨eq_true_of_ne_false hp, h.sponge⟩
  case spRestore => exact (h.shadow (eq_true_of_ne_false hp)).2
  case spInit rate ds fx budget =>
    intro _
    have hr : ¬ rate.toNat = 0 := fun e => hc (.inl e)
    have hr' : ¬ rate.toNat > 200 := fun e => hc (.inr (.inl e))
    have hb : fx = false → budget = 0 := fun hfx => by_contra fun hne => hc (.inr (.inr ⟨hfx, hne⟩))
    have hmin : 0 < rate.toNat := Nat.pos_of_ne_zero hr
    exact ⟨hmin, Nat.le_of_not_lt hr', Nat.zero_le _, fun _ => hmin, fun _ => le_rfl, fun hfx => ⟨hb hfx, hb hfx⟩⟩
  case spAbsorb data =>
    intro hcfg
    obtain ⟨hmin, hmax, -, habs, hbudget⟩ := h.sponge hcfg
    have hdir : s.S.dir = .absorbing := by
      cases hd : s.S.dir with
      | absorbing => rfl
      | squeezing => exact absurd (.inr hd) hp
    have hlt := absorb_pos_lt s.S.rate.toNat data s.S.A s.S.pos (habs hdir)
    exact ⟨hmin, hmax, hlt.le, fun _ => hlt, hbudget⟩
  case spReset =>
    intro hcfg
    obtain ⟨hmin, hmax, -, -, -, hfree⟩ := h.sponge hcfg
    exact ⟨hmin, hmax, Nat.zero_le _, fun _ => hmin, fun _ => le_rfl, fun hfx => ⟨(hfree hfx).1, (hfree hfx).1⟩⟩
  case vmKey => exact fun _ => ⟨rfl, Nat.zero_le _, fun _ _ => rfl⟩
  case vmInput =>
    intro hv
    obtain ⟨hpos, -, -⟩ := h.vmac hv
    exact ⟨hpos, Nat.lt_of_not_le fun hge => hc (.inl hge), fun hidx => absurd hidx (Nat.succ_ne_zero _)⟩
  case sivCtx key adlen => exact fun _ => ⟨Nat.pos_of_ne_zero hc, hkey key adlen rfl⟩
  case stCtx key cnonce => exact fun _ => stCtxFn_length s.params key cnonce
  case aoKey key => exact ⟨not_not.mp hc, fun hdflt => nomatch hdflt⟩

theorem HasEffect.ok {i : Instr} {s : State} {e : Effect} (he : HasEffect i s e) (h : s.Inv)
    (hkey : ∀ key adlen, i = .sivCtx key adlen → key.length ≤ Config.keyMax) : e.Writes (·.Ok s.params) :=
  he.writes trivial (refusedWrite_ok i h) fun hp hc => acceptedEffect_ok h hp hc hkey

/-- A decoded `SIV.CTX` has a key of at most 255 bytes, as its length field has 8 bits (30 R71, R73). -/
theorem sivCtx_key_length_le {F : Frame} {key : Bytes} {adlen : Word} (h : decode F = .ok (.sivCtx key adlen)) :
    key.length ≤ Config.keyMax := by
  obtain ⟨k, hparse, hinstr⟩ := decode_ok h
  obtain ⟨-, -, -, hlen⟩ := parseFrame_ok hparse
  obtain ⟨op, a, b, c, words, payload⟩ := k
  cases op <;> simp only [Command.instr, reduceCtorEq, Instr.sivCtx.injEq] at hinstr
  obtain ⟨rfl, -⟩ := hinstr
  exact hlen.trans_le (Nat.le_of_lt_succ a.isLt)

/-- Settles O51: a step waits, resets, answers an illegal frame, or takes the effect of a decoded command, whose write meets its
group's clauses. -/
theorem stepKeepsInvariant : Obligations.StepKeepsInvariant := by
  intro s t h hstep
  unfold step at hstep
  rcases fetch_cases s with ⟨_, e⟩ | ⟨_, _, e⟩ | ⟨_, _, _, _, _, e⟩ | ⟨F, _, i, _, hdec, e⟩ <;> rw [e] at hstep
  · exact Host.Outcome.next.inj hstep ▸ h
  · exact Host.Outcome.next.inj hstep ▸ .hardwareReset h.params
  · exact Host.Outcome.next.inj hstep ▸ h.finish .illegal []
  · obtain ⟨eff, heff⟩ := exists_hasEffect i s
    have ht : eff.run s = t := Host.Outcome.next.inj (heff.exec_eq.symm.trans hstep)
    exact ht ▸ h.run (heff.ok h fun key adlen hi => sivCtx_key_length_le (hi ▸ hdec))

end Sys2Proof.Machine
end

section
/-! PROOFS, 10 state: what a command writes (10 R20, R23), and what it can see: two states that look the same to a command give the
same effect (10 R38, R42). -/

namespace Sys2Proof.Machine

/-! ### One writer each -/

/-- The write is one the command may make at `s`: each group has its own writers, and only `VM.KEY` writes the vector MAC's
snapshot and valid flag (10 R20, R23, R32 to R36). -/
def GroupWrite.Allowed (i : Instr) (s : State) : GroupWrite → Prop
  | .nothing => True
  | .sponge _ => family i = 1
  | .shadow _ => i.command.op = .spSnap
  | .vmac v => family i = 2 ∧ (i.command.op ≠ .vmKey → v.snap = s.V.snap ∧ v.valid = s.V.valid)
  | .siv _ => i.command.op = .sivCtx
  | .stream _ => i.command.op = .stCtx
  | .aont _ => i.command.op = .aoKey

theorem acceptedEffect_allowed (i : Instr) (s : State) : (acceptedEffect i s).Writes (·.Allowed i s) := by
  cases i
  case kfPermute | kfRound | sivSeal | aoUnpackage | rdsr => trivial
  case sivUnseal | stOpen => exact Effect.ofOpened_writes trivial _ _
  case stSeal | aoPackage => exact Effect.ofDraw_writes trivial _ _ _
  case spInit | spAbsorb | spPad | spSqueeze | spReset | spRestore =>
    show family _ = 1
    simp [family, Instr.command, Op.code]
  case spSnap | sivCtx | stCtx | aoKey => rfl
  case vmKey => exact ⟨by simp [family, Instr.command, Op.code], fun h => absurd rfl h⟩
  case vmInput | vmTag | vmReset => exact ⟨by simp [family, Instr.command, Op.code], fun _ => ⟨rfl, rfl⟩⟩

theorem refusedWrite_allowed (i : Instr) (s : State) : (refusedWrite i s).Allowed i s := by
  cases i
  case vmInput | vmTag => exact ⟨by simp [family, Instr.command, Op.code], fun _ => ⟨rfl, rfl⟩⟩
  all_goals trivial

theorem HasEffect.allowed {i : Instr} {s : State} {e : Effect} (h : HasEffect i s e) : e.Writes (·.Allowed i s) :=
  h.writes trivial (refusedWrite_allowed i s) fun _ _ => acceptedEffect_allowed i s

/-! What an allowed write leaves: a group whose writers the command is not among. -/

section allowed
variable {i : Instr} {s u : State} {w : GroupWrite} (h : w.Allowed i s)
include h

theorem GroupWrite.Allowed.S_eq (hi : family i ≠ 1) : (w.apply u).S = u.S := by
  cases w
  case sponge => exact absurd h hi
  all_goals rfl

theorem GroupWrite.Allowed.SS_eq (hi : i.command.op ≠ .spSnap) : (w.apply u).SS = u.SS := by
  cases w
  case shadow => exact absurd h hi
  all_goals rfl

theorem GroupWrite.Allowed.V_eq (hi : family i ≠ 2) : (w.apply u).V = u.V := by
  cases w
  case vmac => exact absurd h.1 hi
  all_goals rfl

theorem GroupWrite.Allowed.snap_valid_eq (hV : u.V = s.V) (hi : i.command.op ≠ .vmKey) :
    (w.apply u).V.snap = s.V.snap ∧ (w.apply u).V.valid = s.V.valid := by
  cases w
  case vmac => exact h.2 hi
  all_goals exact ⟨congrArg VectorMac.snap hV, congrArg VectorMac.valid hV⟩

theorem GroupWrite.Allowed.SIV_eq (hi : i.command.op ≠ .sivCtx) : (w.apply u).SIV = u.SIV := by
  cases w
  case siv => exact absurd h hi
  all_goals rfl

theorem GroupWrite.Allowed.ST_eq (hi : i.command.op ≠ .stCtx) : (w.apply u).ST = u.ST := by
  cases w
  case stream => exact absurd h hi
  all_goals rfl

theorem GroupWrite.Allowed.AO_eq (hi : i.command.op ≠ .aoKey) : (w.apply u).AO = u.AO := by
  cases w
  case aont => exact absurd h hi
  all_goals rfl

end allowed

@[simp] theorem GroupWrite.apply_params (w : GroupWrite) (s : State) : (w.apply s).params = s.params := by cases w <;> rfl
@[simp] theorem GroupWrite.apply_ERRLOG (w : GroupWrite) (s : State) : (w.apply s).ERRLOG = s.ERRLOG := by cases w <;> rfl

/-- Settles O57: a command's effect is a response with one allowed write, or a hold that without a reset signal changes nothing. -/
theorem enginesShareNoState : Obligations.EnginesShareNoState := by
  intro i s hno
  obtain ⟨e, he⟩ := exists_hasEffect i s
  refine ⟨e.run s, he.exec_eq, ?_⟩
  cases e with
  | held =>
    rw [Effect.run, hold_of_noReset hno]
    exact ⟨fun _ => rfl, fun _ => rfl, fun _ => rfl, fun _ => ⟨rfl, rfl⟩, fun _ => rfl, fun _ => rfl, fun _ => rfl, rfl,
      BitVec.and_self⟩
  | answer st out w left =>
    have hw : w.Allowed i s := he.allowed
    refine ⟨hw.S_eq, hw.SS_eq, hw.V_eq, hw.snap_valid_eq rfl, hw.SIV_eq, hw.ST_eq, hw.AO_eq, w.apply_params _, ?_⟩
    rw [Effect.run, finish_ERRLOG, GroupWrite.apply_ERRLOG]
    exact errlogAfter_keeps st s.ERRLOG

/-! ### What a command can see -/

/-- Two states look the same to a command: the groups agree where they are valid, and a key register only counts for a command
that uses it (10 R38, R42; 43 R168, R169; 44 R181, R182; 45 R197, R198). -/
structure SameView (i : Instr) (s t : State) : Prop where
  cfg : s.S.cfg = t.S.cfg
  sponge : s.S.cfg = true → s.S = t.S
  shadowValid : s.SS.valid = t.SS.valid
  shadow : s.SS.valid = true → s.SS = t.SS
  vmac : s.V = t.V
  sivValid : s.SIV.valid = t.SIV.valid
  sivAdlen : s.SIV.valid = true → s.SIV.adlen = t.SIV.adlen
  sivKey : i.command.op = .sivSeal ∨ i.command.op = .sivUnseal → s.SIV.valid = true → s.SIV.key = t.SIV.key
  streamValid : s.ST.valid = t.ST.valid
  stream : i.command.op = .stSeal ∨ i.command.op = .stOpen → s.ST.valid = true → s.ST = t.ST
  dflt : s.AO.dflt = t.AO.dflt
  aont : i.command.op = .aoPackage ∨ i.command.op = .aoUnpackage → s.AO = t.AO
  errlog : s.ERRLOG = t.ERRLOG
  params : s.params = t.params
  entropy : s.entropy = t.entropy

section sameView
variable {i : Instr} {s t : State} (h : SameView i s t)
include h

/-- The status registers show a group's fields only while it is valid, and no key (10 R37, R38). -/
theorem SameView.statusRegister_eq (n : Nat) : statusRegister n s = statusRegister n t := by
  have hsponge : spCfg s = spCfg t ∧ spStat s = spStat t ∧ spBudget s = spBudget t := by
    unfold spCfg spStat spBudget
    cases hc : s.S.cfg with
    | true => rw [← h.sponge hc, hc]; exact ⟨rfl, rfl, rfl⟩
    | false => rw [← h.cfg, hc]; exact ⟨rfl, rfl, rfl⟩
  obtain ⟨hcfg, hstat, hbudget⟩ := hsponge
  have hadlen : Machine.sivAdlen s = Machine.sivAdlen t := by
    unfold Machine.sivAdlen
    cases hv : s.SIV.valid with
    | true => rw [← h.sivValid, ← h.sivAdlen hv, hv]
    | false => rw [← h.sivValid, hv]; rfl
  have hvm : vmStat s = vmStat t := by rw [vmStat, vmStat, h.vmac]
  have hctx : ctxStat s = ctxStat t := by rw [ctxStat, ctxStat, h.sivValid, h.streamValid, h.dflt]
  unfold statusRegister
  rw [hcfg, hstat, hbudget, hadlen, hvm, hctx, ssStat, ssStat, h.shadowValid, errlogView, errlogView, h.errlog]

theorem SameView.phaseErrorCause_iff : phaseErrorCause i s ↔ phaseErrorCause i t := by
  cases i
  case spAbsorb | spPad =>
    simp only [phaseErrorCause]
    cases hc : s.S.cfg with
    | true => rw [← h.sponge hc, hc]
    | false => simp [← h.cfg, hc]
  case spSqueeze | spReset | spSnap => simp only [phaseErrorCause, h.cfg]
  case spRestore => simp only [phaseErrorCause, h.shadowValid]
  case vmInput | vmTag | vmReset => simp only [phaseErrorCause, h.vmac]
  case sivSeal | sivUnseal => simp only [phaseErrorCause, h.sivValid]
  case stSeal | stOpen => simp only [phaseErrorCause, h.streamValid]
  all_goals exact Iff.rfl

theorem SameView.configErrorCause_iff (hp : ¬ phaseErrorCause i s) : configErrorCause i s ↔ configErrorCause i t := by
  cases i
  case vmInput | vmTag => simp only [configErrorCause, h.vmac, h.params]
  case sivSeal | sivUnseal => simp only [configErrorCause, h.sivAdlen (eq_true_of_ne_false hp)]
  all_goals exact Iff.rfl

theorem SameView.refusedWrite_eq : refusedWrite i s = refusedWrite i t := by
  cases i
  case vmInput | vmTag => simp only [refusedWrite, h.vmac]
  all_goals rfl

/-- The work of an accepted command reads only what the command sees. -/
theorem SameView.acceptedEffect_eq (hp : ¬ phaseErrorCause i s) : acceptedEffect i s = acceptedEffect i t := by
  unfold acceptedEffect
  rw [h.entropy]
  cases i
  case spAbsorb | spPad => dsimp only; rw [h.sponge (eq_true_of_ne_false fun hc => hp (.inl hc))]
  case spSqueeze | spReset | spSnap => dsimp only; rw [h.sponge (eq_true_of_ne_false hp)]
  case spRestore => dsimp only; rw [h.shadow (eq_true_of_ne_false hp)]
  case vmKey | stCtx => dsimp only; rw [h.params]
  case vmInput | vmTag => dsimp only; rw [h.vmac, h.params]
  case vmReset => dsimp only; rw [h.vmac]
  case sivSeal => dsimp only; rw [h.params, h.sivKey (.inl rfl) (eq_true_of_ne_false hp)]
  case sivUnseal => dsimp only; rw [h.params, h.sivKey (.inr rfl) (eq_true_of_ne_false hp)]
  case stSeal => dsimp only; rw [h.params, h.stream (.inl rfl) (eq_true_of_ne_false hp)]
  case stOpen => dsimp only; rw [h.params, h.stream (.inr rfl) (eq_true_of_ne_false hp)]
  case aoPackage => dsimp only; rw [h.params, h.aont (.inl rfl)]
  case aoUnpackage => dsimp only; rw [h.params, h.aont (.inr rfl)]
  case rdsr => dsimp only; rw [h.statusRegister_eq]
  all_goals rfl

/-- A command has the same effect at two states that look the same to it. -/
theorem SameView.hasEffect {e : Effect} (he : HasEffect i s e) : HasEffect i t e := by
  cases he with
  | phaseError hp => rw [h.entropy]; exact .phaseError (h.phaseErrorCause_iff.mp hp)
  | configError hp hc =>
    rw [h.entropy, h.refusedWrite_eq]
    exact .configError (mt h.phaseErrorCause_iff.mpr hp) ((h.configErrorCause_iff hp).mp hc)
  | accepted hp hc =>
    rw [h.acceptedEffect_eq hp]
    exact .accepted (mt h.phaseErrorCause_iff.mpr hp) (mt (h.configErrorCause_iff hp).mpr hc)

end sameView

/-! ### One effect at two states that are alike -/

/-- A reflexive relation on each group that may differ between two states. -/
structure Likeness where
  sponge : Sponge → Sponge → Prop
  shadow : Shadow → Shadow → Prop
  siv : SivContext → SivContext → Prop
  stream : StreamContext → StreamContext → Prop
  aont : AontContext → AontContext → Prop
  sponge_refl : ∀ S, sponge S S
  shadow_refl : ∀ SS, shadow SS SS
  siv_refl : ∀ c, siv c c
  stream_refl : ∀ c, stream c c
  aont_refl : ∀ c, aont c c

/-- Two states are alike: these groups as `L` says, everything else the same. -/
structure Likeness.Holds (L : Likeness) (s t : State) : Prop where
  sponge : L.sponge s.S t.S
  shadow : L.shadow s.SS t.SS
  siv : L.siv s.SIV t.SIV
  stream : L.stream s.ST t.ST
  aont : L.aont s.AO t.AO
  vmac : s.V = t.V
  errlog : s.ERRLOG = t.ERRLOG
  params : s.params = t.params
  inbox : s.inbox = t.inbox
  outbox : s.outbox = t.outbox
  entropy : s.entropy = t.entropy

section holds
variable {L : Likeness} {s t : State} (h : L.Holds s t)
include h

theorem Likeness.Holds.finish (st : Status) (out : Bytes) : L.Holds (finish st out s) (finish st out t) :=
  { h with
    errlog := congrArg (errlogAfter st) h.errlog
    inbox := congrArg List.tail h.inbox
    outbox := congrArg (· ++ [responseFrame st out]) h.outbox }

theorem Likeness.Holds.hardwareReset (rest : List HostEvent) :
    L.Holds (hardwareReset { s with inbox := rest }) (hardwareReset { t with inbox := rest }) :=
  { sponge := L.sponge_refl _, shadow := L.shadow_refl _, siv := L.siv_refl _, stream := L.stream_refl _,
    aont := L.aont_refl _, vmac := rfl, errlog := rfl, params := h.params, inbox := rfl, outbox := h.outbox,
    entropy := h.entropy }

theorem Likeness.Holds.hold : L.Holds (hold s) (hold t) := by
  unfold Machine.hold
  rw [← h.inbox]
  split
  · exact h.hardwareReset _
  · exact h

theorem Likeness.Holds.apply (w : GroupWrite) : L.Holds (w.apply s) (w.apply t) := by
  cases w with
  | nothing => exact h
  | sponge S => exact { h with sponge := L.sponge_refl S }
  | shadow SS => exact { h with shadow := L.shadow_refl SS }
  | vmac V => exact { h with vmac := rfl }
  | siv c => exact { h with siv := L.siv_refl c }
  | stream c => exact { h with stream := L.stream_refl c }
  | aont c => exact { h with aont := L.aont_refl c }

/-- An effect writes the same value at both states or leaves the group at both. -/
theorem Likeness.Holds.run (e : Effect) : L.Holds (e.run s) (e.run t) := by
  cases e with
  | answer st out w left =>
    have hleft : L.Holds { s with entropy := left } { t with entropy := left } := { h with entropy := rfl }
    exact (hleft.apply w).finish st out
  | held => exact h.hold

/-- Noninterference: a command that sees no difference gives one effect, which leaves the states alike. -/
theorem Likeness.Holds.exec {i : Instr} (hview : SameView i s t) :
    ∃ s' t', exec i s = .next s' ∧ exec i t = .next t' ∧ L.Holds s' t' := by
  obtain ⟨e, he⟩ := exists_hasEffect i s
  exact ⟨e.run s, e.run t, he.exec_eq, (hview.hasEffect he).exec_eq, h.run e⟩

/-- Noninterference of a step: both states fetch the same thing, and taking it leaves them alike. -/
theorem Likeness.Holds.step (hview : ∀ i, SameView i s t) :
    ∃ s' t', step s = .next s' ∧ step t = .next t' ∧ L.Holds s' t' := by
  unfold Machine.step
  rcases fetch_cases s with ⟨hin, e⟩ | ⟨rest, hin, e⟩ | ⟨F, rest, why, hin, hdec, e⟩ | ⟨F, rest, i, hin, hdec, e⟩ <;>
    rw [e] <;> rw [h.inbox] at hin
  · exact ⟨s, t, rfl, by simp only [fetch, hin], h⟩
  · exact ⟨_, _, rfl, by simp only [fetch, hin], h.hardwareReset rest⟩
  · exact ⟨_, _, rfl, by simp only [fetch, hin, hdec, raise_eq_finish], h.finish .illegal []⟩
  · rw [fetch_eq_command hin hdec]
    exact h.exec (hview i)

end holds

/-! ### Fields without a value -/

/-- The groups agree wherever 10 R42 gives a value. -/
def Likeness.valued : Likeness where
  sponge := Sponge.Agree
  shadow x y := x.valid = y.valid ∧ (x.valid = true → x = y)
  siv x y := x.valid = y.valid ∧ (x.valid = true → x = y)
  stream x y := x.valid = y.valid ∧ (x.valid = true → x = y)
  aont := Eq
  sponge_refl _ := ⟨rfl, fun _ => rfl, rfl, rfl, rfl⟩
  shadow_refl _ := ⟨rfl, fun _ => rfl⟩
  siv_refl _ := ⟨rfl, fun _ => rfl⟩
  stream_refl _ := ⟨rfl, fun _ => rfl⟩
  aont_refl _ := rfl

theorem agree_iff_valued (s t : State) : s.Agree t ↔ Likeness.valued.Holds s t := by
  constructor
  · intro h
    exact { h with shadow := ⟨h.shadowValid, h.shadow⟩, siv := ⟨h.sivValid, h.siv⟩, stream := ⟨h.streamValid, h.stream⟩ }
  · intro h
    exact { h with
      shadowValid := h.shadow.1, shadow := h.shadow.2, sivValid := h.siv.1, siv := h.siv.2, streamValid := h.stream.1,
      stream := h.stream.2 }

/-- No command sees a field without a value. -/
theorem State.Agree.sameView {s t : State} (h : s.Agree t) (i : Instr) : SameView i s t :=
  { h with
    cfg := h.sponge.cfg, sponge := h.sponge.configured
    sivAdlen := fun hv => congrArg SivContext.adlen (h.siv hv)
    sivKey := fun _ hv => congrArg SivContext.key (h.siv hv)
    stream := fun _ => h.stream
    dflt := congrArg AontContext.dflt h.aont
    aont := fun _ => h.aont }

/-- Settles O56: no command sees a field without a value, so by noninterference the steps leave the states in agreement. -/
theorem unvaluedFieldsNeverMatter : Obligations.UnvaluedFieldsNeverMatter := by
  intro s t s' hagree hstep
  have h := (agree_iff_valued s t).mp hagree
  obtain ⟨u, t', hs, ht, hu⟩ := h.step hagree.sameView
  obtain rfl : u = s' := Host.Outcome.next.inj (hs.symm.trans hstep)
  exact ⟨t', ht, (agree_iff_valued u t').mpr hu⟩

/-! ### The key registers -/

/-- The contexts named by `true` may differ, every other group is the same. -/
def Likeness.outside (siv stream aont : Bool) : Likeness where
  sponge := Eq
  shadow := Eq
  siv x y := siv = true ∨ x = y
  stream x y := stream = true ∨ x = y
  aont x y := aont = true ∨ x = y
  sponge_refl _ := rfl
  shadow_refl _ := rfl
  siv_refl _ := .inr rfl
  stream_refl _ := .inr rfl
  aont_refl _ := .inr rfl

section withKeys
variable {i : Instr} {s : State} {k1 k2 k3 k4 : Bytes}

/-- Only the named contexts hold another key. -/
theorem holds_withKeys {siv stream aont : Bool} (hsiv : siv = true ∨ k1 = s.SIV.key)
    (hstream : stream = true ∨ k2 = s.ST.hashKey ∧ k3 = s.ST.cipherKey) (haont : aont = true ∨ k4 = s.AO.key) :
    (Likeness.outside siv stream aont).Holds s (withKeys k1 k2 k3 k4 s) where
  sponge := rfl
  shadow := rfl
  siv := hsiv.imp_right fun e => by rw [withKeys, e]
  stream := hstream.imp_right fun e => by rw [withKeys, e.1, e.2]
  aont := haont.imp_right fun e => by rw [withKeys, e]
  vmac := rfl
  errlog := rfl
  params := rfl
  inbox := rfl
  outbox := rfl
  entropy := rfl

/-- A command sees no other key than the one its engine uses (10 R38). -/
theorem sameView_withKeys (hsiv : i.command.op = .sivSeal ∨ i.command.op = .sivUnseal → k1 = s.SIV.key)
    (hstream : i.command.op = .stSeal ∨ i.command.op = .stOpen → k2 = s.ST.hashKey ∧ k3 = s.ST.cipherKey)
    (haont : i.command.op = .aoPackage ∨ i.command.op = .aoUnpackage → k4 = s.AO.key) :
    SameView i s (withKeys k1 k2 k3 k4 s) where
  cfg := rfl
  sponge _ := rfl
  shadowValid := rfl
  shadow _ := rfl
  vmac := rfl
  sivValid := rfl
  sivAdlen _ := rfl
  sivKey hi _ := (hsiv hi).symm
  streamValid := rfl
  stream hi _ := by rw [withKeys, (hstream hi).1, (hstream hi).2]
  dflt := rfl
  aont hi := by rw [withKeys, haont hi]
  errlog := rfl
  params := rfl
  entropy := rfl

/-- Noninterference of the key registers: a key that differs and is not used stays the only difference (10 R38). -/
theorem exec_withKeys {siv stream aont : Bool}
    (hsiv : (siv = true ∧ i.command.op ≠ .sivSeal ∧ i.command.op ≠ .sivUnseal) ∨ k1 = s.SIV.key)
    (hstream : (stream = true ∧ i.command.op ≠ .stSeal ∧ i.command.op ≠ .stOpen) ∨ k2 = s.ST.hashKey ∧ k3 = s.ST.cipherKey)
    (haont : (aont = true ∧ i.command.op ≠ .aoPackage ∧ i.command.op ≠ .aoUnpackage) ∨ k4 = s.AO.key) :
    ∃ t u, exec i s = .next t ∧ exec i (withKeys k1 k2 k3 k4 s) = .next u ∧ (Likeness.outside siv stream aont).Holds t u := by
  have unused : ∀ {a b : Op} {c : Bool} {P : Prop}, (c = true ∧ i.command.op ≠ a ∧ i.command.op ≠ b) ∨ P →
      i.command.op = a ∨ i.command.op = b → P :=
    fun h hop => h.resolve_left fun hne => hop.elim hne.2.1 hne.2.2
  exact (holds_withKeys (hsiv.imp_left And.left) (hstream.imp_left And.left) (haont.imp_left And.left)).exec
    (sameView_withKeys (unused hsiv) (unused hstream) (unused haont))

end withKeys

/-- Settles O58: in each clause the keys that differ are not used by the command, so they stay the only difference. -/
theorem keysReachOnlyTheirEngines : Obligations.KeysReachOnlyTheirEngines := by
  intro i s k1 k2 k3 k4 same
  have toSame : ∀ {siv stream aont : Bool} {t u : State}, (Likeness.outside siv stream aont).Holds t u → same t u :=
    fun h => ⟨h.outbox.symm, h.inbox.symm, h.entropy.symm, h.sponge.symm, h.shadow.symm, h.vmac.symm, h.errlog.symm⟩
  refine ⟨fun hseal hunseal => ?_, fun hseal hopen => ?_, fun hpack hunpack => ?_, fun hnone => ?_⟩
  · obtain ⟨t, u, ht, hu, h⟩ := exec_withKeys (k1 := k1) (siv := true) (stream := false) (aont := false)
      (.inl ⟨rfl, hseal, hunseal⟩) (.inr ⟨rfl, rfl⟩) (.inr rfl)
    exact ⟨t, u, ht, hu, toSame h, (h.stream.resolve_left nofun).symm, (h.aont.resolve_left nofun).symm⟩
  · obtain ⟨t, u, ht, hu, h⟩ := exec_withKeys (k2 := k2) (k3 := k3) (siv := false) (stream := true) (aont := false)
      (.inr rfl) (.inl ⟨rfl, hseal, hopen⟩) (.inr rfl)
    exact ⟨t, u, ht, hu, toSame h, (h.siv.resolve_left nofun).symm, (h.aont.resolve_left nofun).symm⟩
  · obtain ⟨t, u, ht, hu, h⟩ := exec_withKeys (k4 := k4) (siv := false) (stream := false) (aont := true)
      (.inr rfl) (.inr ⟨rfl, rfl⟩) (.inl ⟨rfl, hpack, hunpack⟩)
    exact ⟨t, u, ht, hu, toSame h, (h.siv.resolve_left nofun).symm, (h.stream.resolve_left nofun).symm⟩
  · simp only [usesKey, List.mem_cons, List.not_mem_nil, or_false, not_or] at hnone
    obtain ⟨hseal, hunseal, hstSeal, hopen, hpack, hunpack⟩ := hnone
    obtain ⟨t, u, ht, hu, h⟩ := exec_withKeys (siv := true) (stream := true) (aont := true)
      (.inl ⟨rfl, hseal, hunseal⟩) (.inl ⟨rfl, hstSeal, hopen⟩) (.inl ⟨rfl, hpack, hunpack⟩)
    exact ⟨t, u, ht, hu, toSame h⟩

end Sys2Proof.Machine
end

section
/-! PROOFS, 20 memory: the byte view of the lanes (20 R51, R52). -/

namespace Sys2Proof.Machine

/-- The low `n` base-256 digits of a number, each at its place, make up the number modulo `2 ^ (8n)`. -/
theorem sum_byte_digits (v n : Nat) :
    ((List.range n).map fun k => v / 2 ^ (8 * k) % 2 ^ 8 * 2 ^ (8 * k)).sum = v % 2 ^ (8 * n) := by
  induction n with
  | zero => simp [Nat.mod_one]
  | succ n ih =>
    rw [List.range_succ, List.map_append, List.sum_append, ih, Nat.mul_succ, Nat.pow_add, Nat.mod_mul]
    simp [Nat.mul_comm]

/-- A lane is the sum of its eight bytes, each at its place (20 R51). -/
theorem lane_toNat_eq_sum_getByte (A : LaneFile) (i : Nat) :
    (A.lane i).toNat = ((List.range 8).map fun k => (getByte A (8 * i + k)).toNat * 2 ^ (8 * k)).sum := by
  have byte : ∀ k ∈ List.range 8, (getByte A (8 * i + k)).toNat * 2 ^ (8 * k) =
      (A.lane i).toNat / 2 ^ (8 * k) % 2 ^ 8 * 2 ^ (8 * k) := fun k hk => by
    rw [getByte_eq_extract A i k (List.mem_range.mp hk), BitVec.extractLsb'_toNat, Nat.shiftRight_eq_div_pow]
  rw [List.map_congr_left byte, sum_byte_digits, Nat.mod_eq_of_lt (A.lane i).isLt]

/-- Settles O7: the byte read and the 200-byte string agree at every index, and a lane's bytes are its base-256 digits. -/
theorem stateByteViewIsLittleEndian : Obligations.StateByteViewIsLittleEndian :=
  ⟨fun A i k _ hk => ⟨getByte_eq_extract A i k hk, bytesOfLanes_get A _ (by omega)⟩,
    fun A i _ => lane_toNat_eq_sum_getByte A i,
    fun A => ⟨bytesOfLanes_length A, lanesOfBytes_bytesOfLanes A⟩,
    bytesOfLanes_lanesOfBytes⟩

end Sys2Proof.Machine
end

section
/-! PROOFS, 30 encoding: the commands whose parts fit their format are exactly the parts of the well-formed instructions, so the
decoder and the encoder are inverse to each other (30 R70 to R74, R82). -/

namespace Sys2Proof

/-! ### A frame parses exactly when its parts fit the format -/

/-- The parts fit the format of their opcode: the must-be-zero bits, the number of operand words, the payload's length (30 R72,
R74). -/
structure Command.Fits (k : Command) : Prop where
  mbz : headerWord k.op.code k.a k.b k.c &&& k.op.format.mbzMask = 0
  words : k.words.length = k.op.format.words
  payload : k.payload.length = payloadLength k.op k.a k.b k.words

/-- The parser answers the parts that make up the frame and fit their format, and no others (30 R82). -/
theorem parseFrame_eq_ok_iff {F : Frame} {k : Command} : parseFrame F = .ok k ↔ F = k.frame ∧ k.Fits := by
  constructor
  · intro h
    obtain ⟨hframe, hmbz, hwords, hpayload⟩ := parseFrame_ok h
    exact ⟨hframe, hmbz, hwords, hpayload⟩
  · rintro ⟨rfl, h⟩
    exact parseFrame_frame k h.mbz h.words h.payload

/-- The decoder is the parser, followed by the cutting of the payload. -/
theorem decode_eq_map (F : Frame) : decode F = (parseFrame F).map Command.instr := by
  unfold decode
  cases parseFrame F <;> rfl

/-! ### The parts of a well-formed instruction -/

/-- A field that the format does not use is written as zero (30 R71). -/
theorem Instr.command_mbz (i : Instr) :
    headerWord i.command.op.code i.command.a i.command.b i.command.c &&& i.command.op.format.mbzMask = 0 := by
  rw [mbz_iff]
  cases i
  case spInit rate ds fx budget => exact flagField_mbz fx
  case stCtx => exact rfl
  case kfRound | spPad | sivCtx | sivUnseal | aoKey | aoPackage | aoUnpackage | rdsr => exact ⟨rfl, rfl⟩
  all_goals exact ⟨rfl, rfl, rfl⟩

theorem Instr.command_words_length (i : Instr) : i.command.words.length = i.command.op.format.words := by
  cases i <;> rfl

/-- The lengths written into the frame count the payload (30 R74). -/
theorem Instr.command_payload_length {i : Instr} (h : i.wellFormed = true) :
    i.command.payload.length = payloadLength i.command.op i.command.a i.command.b i.command.words := by
  cases i <;> simp only [Instr.wellFormed, Bool.and_eq_true, decide_eq_true_eq] at h <;>
    simp [Instr.command, payloadLength, lenWord_toNat, lenField_toNat, h, Nat.add_assoc]

theorem Instr.command_fits {i : Instr} (h : i.wellFormed = true) : i.command.Fits :=
  ⟨i.command_mbz, i.command_words_length, command_payload_length h⟩

/-- The payload is cut where its parts were joined, because the lengths in the frame count them (30 R74). -/
theorem Instr.instr_command {i : Instr} (h : i.wellFormed = true) : i.command.instr = i := by
  cases i <;> simp only [Instr.wellFormed, Bool.and_eq_true] at h <;>
    simp [Instr.command, Command.instr, lenWord_toNat, lenField_toNat, h, ← List.drop_drop]

/-! ### Every command that fits is a well-formed instruction's -/

/-- What a format leaves free: the fields it uses and as many operand words as it has (30 R72). -/
theorem Command.Fits.shape {k : Command} (h : k.Fits) :
    match k.op.format with
    | .Z => k = ⟨k.op, 0, 0, 0, [], k.payload⟩
    | .A1 => k = ⟨k.op, k.a, 0, 0, [], k.payload⟩
    | .A2 => k = ⟨k.op, k.a, k.b, 0, [], k.payload⟩
    | .L1 => ∃ w, k = ⟨k.op, 0, 0, 0, [w], k.payload⟩
    | .I1 => ∃ fx w, k = ⟨k.op, k.a, k.b, flagField fx, [w], k.payload⟩
    | .AL1 => ∃ w, k = ⟨k.op, k.a, 0, 0, [w], k.payload⟩
    | .L2 => ∃ w1 w2, k = ⟨k.op, 0, 0, 0, [w1, w2], k.payload⟩
    | .L3 => ∃ w1 w2 w3, k = ⟨k.op, 0, 0, 0, [w1, w2, w3], k.payload⟩
    | .AL3 => ∃ w1 w2 w3, k = ⟨k.op, k.a, 0, 0, [w1, w2, w3], k.payload⟩ := by
  obtain ⟨op, a, b, c, words, P⟩ := k
  obtain ⟨hmbz, hwords, -⟩ := h
  rw [mbz_iff] at hmbz
  dsimp only at hmbz hwords ⊢
  generalize op.format = f at hmbz hwords ⊢
  cases f
  case Z =>
    obtain ⟨rfl, rfl, rfl⟩ := hmbz
    obtain rfl := List.length_eq_zero_iff.mp hwords
    rfl
  case A1 =>
    obtain ⟨rfl, rfl⟩ := hmbz
    obtain rfl := List.length_eq_zero_iff.mp hwords
    rfl
  case A2 =>
    obtain rfl : c = 0 := hmbz
    obtain rfl := List.length_eq_zero_iff.mp hwords
    rfl
  case L1 =>
    obtain ⟨rfl, rfl, rfl⟩ := hmbz
    obtain ⟨w, rfl⟩ := List.length_eq_one_iff.mp hwords
    exact ⟨w, rfl⟩
  case I1 =>
    obtain ⟨w, rfl⟩ := List.length_eq_one_iff.mp hwords
    exact ⟨c.getLsbD 0, w, by rw [flagField_of_mbz c hmbz]⟩
  case AL1 =>
    obtain ⟨rfl, rfl⟩ := hmbz
    obtain ⟨w, rfl⟩ := List.length_eq_one_iff.mp hwords
    exact ⟨w, rfl⟩
  case L2 =>
    obtain ⟨rfl, rfl, rfl⟩ := hmbz
    obtain ⟨w1, w2, rfl⟩ := List.length_eq_two.mp hwords
    exact ⟨w1, w2, rfl⟩
  case L3 =>
    obtain ⟨rfl, rfl, rfl⟩ := hmbz
    obtain ⟨w1, w2, w3, rfl⟩ := List.length_eq_three.mp hwords
    exact ⟨w1, w2, w3, rfl⟩
  case AL3 =>
    obtain ⟨rfl, rfl⟩ := hmbz
    obtain ⟨w1, w2, w3, rfl⟩ := List.length_eq_three.mp hwords
    exact ⟨w1, w2, w3, rfl⟩

/-- The last part of a payload, cut off where the lengths before it end. -/
theorem exists_append_of_length {P : Bytes} {m n : Nat} (h : P.length = m + n) :
    ∃ x y : Bytes, P = x ++ y ∧ x.length = m ∧ y.length = n :=
  ⟨P.take m, P.drop m, (List.take_append_drop m P).symm, by simp [h], by simp [h]⟩

/-- The last part of a payload, where an operand word counts it (30 R73). -/
theorem exists_append_lenWord {P : Bytes} {m : Nat} {w : Word} (h : P.length = m + w.toNat) :
    ∃ x y : Bytes, P = x ++ y ∧ x.length = m ∧ lenWord y = w ∧ fitsWord y = true := by
  obtain ⟨x, y, hP, hx, hy⟩ := exists_append_of_length h
  exact ⟨x, y, hP, hx, lenWord_of_toNat hy⟩

/-- The last part of a payload, where a header field counts it (30 R71). -/
theorem exists_append_lenField {P : Bytes} {m : Nat} {a : Byte} (h : P.length = m + a.toNat) :
    ∃ x y : Bytes, P = x ++ y ∧ x.length = m ∧ lenField y = a ∧ fitsField y = true := by
  obtain ⟨x, y, hP, hx, hy⟩ := exists_append_of_length h
  exact ⟨x, y, hP, hx, lenField_of_toNat hy⟩

/-- A command that is read as a well-formed instruction and written back as it was. -/
theorem Command.exists_instr_of_instr {k : Command} (hwf : k.instr.wellFormed = true) (hcommand : k.instr.command = k) :
    ∃ i : Instr, i.wellFormed = true ∧ i.command = k :=
  ⟨k.instr, hwf, hcommand⟩

/-- A command that fits its format is what a well-formed instruction is written as: its payload splits into parts that the header
fields and operand words count (30 R74). -/
theorem Command.Fits.exists_instr {k : Command} (h : k.Fits) : ∃ i : Instr, i.wellFormed = true ∧ i.command = k := by
  have hshape := h.shape
  have hP := h.payload
  obtain ⟨op, a, b, c, words, P⟩ := k
  cases op
  case kfPermute | kfRound =>
    obtain ⟨⟩ := hshape
    exact exists_instr_of_instr (decide_eq_true hP) rfl
  case spPad | spReset | spSnap | spRestore | vmReset | rdsr =>
    obtain ⟨⟩ := hshape
    obtain rfl := List.length_eq_zero_iff.mp hP
    exact exists_instr_of_instr rfl rfl
  case spSqueeze | vmTag =>
    obtain ⟨w, ⟨⟩⟩ := hshape
    obtain rfl := List.length_eq_zero_iff.mp hP
    exact exists_instr_of_instr rfl rfl
  case spInit =>
    obtain ⟨fx, w, ⟨⟩⟩ := hshape
    obtain rfl := List.length_eq_zero_iff.mp hP
    exact ⟨.spInit a b fx w, rfl, rfl⟩
  case spAbsorb | vmKey | vmInput | aoPackage =>
    obtain ⟨w, ⟨⟩⟩ := hshape
    obtain ⟨rfl, hfits⟩ := lenWord_of_toNat (s := P) hP
    exact exists_instr_of_instr hfits rfl
  case aoKey =>
    obtain ⟨⟩ := hshape
    obtain ⟨rfl, hfits⟩ := lenField_of_toNat (s := P) hP
    exact ⟨.aoKey P, hfits, rfl⟩
  case sivCtx =>
    obtain ⟨w, ⟨⟩⟩ := hshape
    obtain ⟨rfl, hfits⟩ := lenField_of_toNat (s := P) hP
    exact ⟨.sivCtx P w, hfits, rfl⟩
  case stCtx =>
    obtain ⟨⟩ := hshape
    obtain ⟨key, cnonce, rfl, hlen, rfl, hcnonce⟩ := exists_append_lenField hP
    obtain ⟨rfl, hkey⟩ := lenField_of_toNat hlen
    exact ⟨.stCtx key cnonce, by simp only [Instr.wellFormed, hkey, hcnonce, Bool.and_self], rfl⟩
  case stSeal =>
    obtain ⟨w1, w2, ⟨⟩⟩ := hshape
    obtain ⟨ad, pt, rfl, hlen, rfl, hpt⟩ := exists_append_lenWord hP
    obtain ⟨rfl, had⟩ := lenWord_of_toNat hlen
    exact ⟨.stSeal ad pt, by simp only [Instr.wellFormed, had, hpt, Bool.and_self], rfl⟩
  case stOpen =>
    obtain ⟨w1, w2, ⟨⟩⟩ := hshape
    obtain ⟨ad, sealed, rfl, hlen, rfl, hsealed⟩ := exists_append_lenWord hP
    obtain ⟨rfl, had⟩ := lenWord_of_toNat hlen
    exact ⟨.stOpen ad sealed, by simp only [Instr.wellFormed, had, hsealed, Bool.and_self], rfl⟩
  case aoUnpackage =>
    obtain ⟨w, ⟨⟩⟩ := hshape
    obtain ⟨ct, tag, rfl, hlen, rfl, htag⟩ := exists_append_lenField hP
    obtain ⟨rfl, hct⟩ := lenWord_of_toNat hlen
    exact ⟨.aoUnpackage ct tag, by simp only [Instr.wellFormed, hct, htag, Bool.and_self], rfl⟩
  case sivSeal =>
    obtain ⟨w1, w2, w3, ⟨⟩⟩ := hshape
    obtain ⟨_, msg, rfl, hlen, rfl, hmsg⟩ := exists_append_lenWord hP
    obtain ⟨nonce, ad, rfl, hlen, rfl, had⟩ := exists_append_lenWord hlen
    obtain ⟨rfl, hnonce⟩ := lenWord_of_toNat hlen
    exact ⟨.sivSeal nonce ad msg, by simp only [Instr.wellFormed, hnonce, had, hmsg, Bool.and_self], rfl⟩
  case sivUnseal =>
    obtain ⟨w1, w2, w3, ⟨⟩⟩ := hshape
    obtain ⟨_, ct, rfl, hlen, rfl, hct⟩ := exists_append_lenWord hP
    obtain ⟨_, tag, rfl, hlen, rfl, htag⟩ := exists_append_lenField hlen
    obtain ⟨nonce, ad, rfl, hlen, rfl, had⟩ := exists_append_lenWord hlen
    obtain ⟨rfl, hnonce⟩ := lenWord_of_toNat hlen
    exact ⟨.sivUnseal nonce ad tag ct, by simp only [Instr.wellFormed, hnonce, had, htag, hct, Bool.and_self], rfl⟩

/-- The commands that fit their format are the well-formed instructions, written out in parts. -/
theorem Command.fits_iff {k : Command} : k.Fits ↔ ∃ i : Instr, i.wellFormed = true ∧ i.command = k :=
  ⟨Fits.exists_instr, fun ⟨_, hi, hk⟩ => hk ▸ Instr.command_fits hi⟩

/-! ### The two round trips -/

/-- The frames that decode to an instruction: its one frame when it is well formed, else none (30 R70, R82). -/
theorem decode_eq_ok_iff {F : Frame} {i : Instr} : decode F = .ok i ↔ i.wellFormed = true ∧ encode i = F := by
  constructor
  · intro h
    obtain ⟨k, hparse, rfl⟩ := decode_ok h
    obtain ⟨rfl, hfits⟩ := parseFrame_eq_ok_iff.mp hparse
    obtain ⟨i, hi, rfl⟩ := Command.fits_iff.mp hfits
    rw [Instr.instr_command hi]
    exact ⟨hi, rfl⟩
  · rintro ⟨hi, rfl⟩
    have hparse : parseFrame (encode i) = .ok i.command := parseFrame_eq_ok_iff.mpr ⟨rfl, Instr.command_fits hi⟩
    rw [decode_eq_map, hparse, Except.map, Instr.instr_command hi]

/-- Settles O1: a well-formed instruction's parts fit their format, so its frame parses to them and its payload is cut where it
was joined. -/
theorem decodeOfEncodeIsTheCommand : Obligations.DecodeOfEncodeIsTheCommand :=
  fun _ hi => decode_eq_ok_iff.mpr ⟨hi, rfl⟩

/-- Settles O2: a frame that decodes is made of parts that fit their format, and only a well-formed instruction has such parts. -/
theorem encodeOfDecodeIsTheFrame : Obligations.EncodeOfDecodeIsTheFrame :=
  fun _ _ h => decode_eq_ok_iff.mp h

end Sys2Proof
end

section
/-! PROOFS, 30 encoding: the tests of the parser in their order (30 R76, R82), the opcode map (30 R75), frames written out, and
the layout of a response (30 R78). -/

namespace Sys2Proof.Machine

/-! ### The words of a frame -/

/-- The operand words are read off at their places, when they are all there (30 R82). -/
theorem takeWords_of_le : ∀ (n : Nat) (F : Bytes), 4 * n ≤ F.length →
    takeWords n F = some ((List.range n).map (frameWord F), F.drop (4 * n))
  | 0, F, _ => by simp
  | n + 1, b0 :: b1 :: b2 :: b3 :: rest, h => by
    have ih := takeWords_of_le n rest (by simp only [List.length_cons] at h; omega)
    have hword : frameWord (b0 :: b1 :: b2 :: b3 :: rest) ∘ Nat.succ = frameWord rest := rfl
    simp only [takeWords, ih, List.range_succ_eq_map, List.map_cons, List.map_map, hword]
    rfl
  | _ + 1, [], h | _ + 1, [_], h | _ + 1, [_, _], h | _ + 1, [_, _, _], h => by
    simp only [List.length_cons, List.length_nil] at h; omega

/-- The parts of a frame of opcode `op`, read off at their places (30 R71, R82). -/
def partsOf (op : Op) (F : Frame) : Command :=
  { op := op, a := F.getD 2 0, b := F.getD 1 0, c := F.getD 0 0
    words := (List.range op.format.words).map fun k => frameWord F (k + 1)
    payload := (F.drop 4).drop (4 * op.format.words) }

/-- The length that a frame of opcode `op` declares, `4 + 4n + plen` (30 R70). -/
def frameLength (op : Op) (F : Frame) : Nat :=
  4 + 4 * op.format.words + payloadLength op (F.getD 2 0) (F.getD 1 0) [frameWord F 1, frameWord F 2, frameWord F 3]

/-- The payload's length is counted by the operand words the format has, and by no others (30 R74). -/
theorem payloadLength_partsOf (op : Op) (F : Frame) : payloadLength op (partsOf op F).a (partsOf op F).b (partsOf op F).words =
    payloadLength op (F.getD 2 0) (F.getD 1 0) [frameWord F 1, frameWord F 2, frameWord F 3] := by
  cases op <;> rfl

/-- The payload has the declared length exactly when the frame has (30 R70, R76). -/
theorem partsOf_payload_length_iff {op : Op} {F : Frame} (h : 4 + 4 * op.format.words ≤ F.length) :
    (partsOf op F).payload.length = payloadLength op (partsOf op F).a (partsOf op F).b (partsOf op F).words ↔
      F.length = frameLength op F := by
  rw [payloadLength_partsOf, frameLength, partsOf, List.length_drop, List.length_drop]
  omega

/-! ### The five tests in their order -/

/-- Test (1) of 30 R76. -/
theorem decode_of_length_lt {F : Frame} (h : F.length < 4) : decode F = .error .shortHeader := by
  match F, h with
  | [], _ | [_], _ | [_, _], _ | [_, _, _], _ => rfl

/-- Test (2) of 30 R76. -/
theorem decode_of_ofCode_none {F : Frame} (hlen : 4 ≤ F.length) (hop : Op.ofCode (F.getD 3 0) = none) :
    decode F = .error .unknownOpcode := by
  match F, hlen with
  | f0 :: f1 :: f2 :: f3 :: rest, _ =>
    have hop : Op.ofCode f3 = none := hop
    simp only [decode_eq_map, parseFrame, extract24_wordOfBytes, hop, Except.map]

/-- Tests (3) to (5) of 30 R76, on a frame whose opcode is known. -/
theorem parseFrame_of_ofCode {F : Frame} {op : Op} (hlen : 4 ≤ F.length) (hop : Op.ofCode (F.getD 3 0) = some op) :
    parseFrame F =
      if frameWord F 0 &&& op.format.mbzMask ≠ 0 then .error .mustBeZero
      else if F.length < 4 + 4 * op.format.words then .error .operandsMissing
      else if F.length ≠ frameLength op F then .error .wrongLength
      else .ok (partsOf op F) := by
  match F, hlen with
  | f0 :: f1 :: f2 :: f3 :: rest, _ =>
    have hop : Op.ofCode f3 = some op := hop
    have hheader : frameWord (f0 :: f1 :: f2 :: f3 :: rest) 0 = wordOfBytes f0 f1 f2 f3 := rfl
    have hlength : (f0 :: f1 :: f2 :: f3 :: rest).length = rest.length + 4 := rfl
    simp only [parseFrame, extract24_wordOfBytes, extract16_wordOfBytes, extract8_wordOfBytes, extract0_wordOfBytes, hop, hheader]
    refine if_congr Iff.rfl rfl ?_
    by_cases hwords : rest.length < 4 * op.format.words
    · rw [(takeWords_none_iff _ _).mpr hwords, if_pos (by omega)]
    · rw [takeWords_of_le _ _ (Nat.le_of_not_lt hwords), if_neg (by omega)]
      have hfits := partsOf_payload_length_iff (op := op) (F := f0 :: f1 :: f2 :: f3 :: rest) (by omega)
      exact if_congr (not_congr hfits) rfl rfl

/-- The tests as the decoder answers them; a frame that passes them is the command of its parts. -/
theorem decode_of_ofCode {F : Frame} {op : Op} (hlen : 4 ≤ F.length) (hop : Op.ofCode (F.getD 3 0) = some op) :
    decode F =
      if frameWord F 0 &&& op.format.mbzMask ≠ 0 then .error .mustBeZero
      else if F.length < 4 + 4 * op.format.words then .error .operandsMissing
      else if F.length ≠ frameLength op F then .error .wrongLength
      else .ok (partsOf op F).instr := by
  rw [decode_eq_map, parseFrame_of_ofCode hlen hop]
  split_ifs <;> rfl

/-- The payload's cutting keeps the opcode. -/
theorem instr_command_op (k : Command) : k.instr.command.op = k.op := by
  obtain ⟨op, a, b, c, words, P⟩ := k
  cases op <;> rfl

/-! ### What an illegal frame and a refused operand are answered -/

/-- A step that takes an illegal frame raises `ILLEGAL` (60 R222). -/
theorem step_of_decode_error {s : State} {F : Frame} {rest : List HostEvent} {why : Illegal}
    (hin : s.inbox = .frame F :: rest) (hdec : decode F = .error why) : step s = .next (errorResponse .illegal s) := by
  rw [← raise_eq (by decide)]
  simp only [step, fetch, hin, hdec]

/-- A refused operand changes nothing but `ERRLOG`, for every command outside the vector MAC's two exceptions (60 R217, R226). -/
theorem exec_eq_configError {i : Instr} {s : State} (hp : ¬ phaseErrorCause i s) (hc : configErrorCause i s)
    (hw : refusedWrite i s = .nothing) : exec i s = .next (errorResponse .configError s) := by
  rw [exec_of_configErrorCause hp hc, hw, ← raise_eq (by decide)]
  rfl

/-- Settles O3: the tests are the branches of the decoder's equation; the refused values are causes of a `CONFIG_ERROR`. -/
theorem illegalFramesAreRejectedInOrder : Obligations.IllegalFramesAreRejectedInOrder := by
  refine ⟨fun _ => decode_of_length_lt, fun _ => decode_of_ofCode_none, fun F op hlen hop => ?_, fun _ _ _ _ => step_of_decode_error,
    fun ds ir n tlen fx budget st msg ct tag s => ⟨?_, fun hir => ?_, fun hn => ?_, fun htlen => ?_, fun htag => ?_⟩⟩
  · rw [decode_of_ofCode hlen hop]
    refine ⟨fun hmbz => if_pos hmbz, fun hmbz => ?_⟩
    rw [if_neg (not_not.mpr hmbz)]
    refine ⟨fun hshort => if_pos hshort, fun hwords => ?_⟩
    rw [if_neg (Nat.not_lt.mpr hwords)]
    refine ⟨fun hwrong => if_pos hwrong, fun hframe => ⟨(partsOf op F).instr, ?_, instr_command_op _⟩⟩
    exact if_neg (not_not.mpr hframe)
  · exact exec_eq_configError id (.inl rfl) rfl
  · exact exec_eq_configError id hir rfl
  · exact exec_eq_configError id hn rfl
  · exact exec_eq_configError id htlen rfl
  · exact exec_eq_configError id htag rfl

/-! ### The opcode map -/

/-- The opcode of a decoded command is the frame's fourth byte (30 R71, R75). -/
theorem decode_ok_code {F : Frame} {i : Instr} (h : decode F = .ok i) : i.command.op.code = F.getD 3 0 := by
  obtain ⟨-, rfl⟩ := decode_eq_ok_iff.mp h
  simp [encode, Command.frame]

/-- 233 of the 256 byte values name no opcode (30 R75). -/
theorem length_illegal_opcodes :
    ((List.range 256).filter fun n => (Op.ofCode (BitVec.ofNat 8 n)).isNone).length = 233 := by decide +kernel

/-- Settles O4: the map by evaluation, the decoder's part from the round trip and the second test. -/
theorem opcodeMapIsExact : Obligations.OpcodeMapIsExact :=
  ⟨rfl, rfl, rfl, rfl, rfl, rfl, rfl, fun op => ⟨op.mem_all, op.ofCode_code⟩, length_illegal_opcodes, fun _ _ => decode_ok_code,
    fun _ => decode_of_ofCode_none⟩

/-! ### Frames written out -/

/-- The frame of `KF.ROUND`: its header, then the state (30 R74). -/
theorem decode_kfRound {ir : Byte} {st : Bytes} (h : st.length = 200) :
    decode ([0x00, 0x00, ir, 0x02] ++ st) = .ok (.kfRound ir st) :=
  decode_eq_ok_iff.mpr ⟨decide_eq_true h, by simp [encode, Command.frame, Instr.command, Op.code]⟩

/-- Settles O5: each frame is what its well-formed command is written as, which the encoder evaluates; the last one has a bit of
`b` set, which `RDSR` does not use. -/
theorem tableWordsDecode : Obligations.TableWordsDecode := by
  have decodes : ∀ {F : Frame} {i : Instr}, i.wellFormed = true → encode i = F → decode F = .ok i :=
    fun hwf hF => decode_eq_ok_iff.mpr ⟨hwf, hF⟩
  exact ⟨decodes rfl rfl, decodes rfl rfl, decodes rfl rfl, decodes rfl rfl, decodes rfl rfl, decodes rfl rfl,
    decode_kfRound List.length_replicate, decodes rfl rfl, decodes rfl rfl, decodes rfl rfl, decodes rfl rfl, rfl⟩

/-! ### Responses -/

/-- The status word: the code in its low byte, the other bytes zero (30 R78, R79). -/
theorem le32_status_code (st : Status) : le32 (BitVec.ofNat 32 st.code) = [BitVec.ofNat 8 st.code, 0, 0, 0] := by
  cases st <;> rfl

/-- Settles O6: the status word and, for an output whose length fits 32 bits, the length word are written out. -/
theorem responseFrameLayout : Obligations.ResponseFrameLayout := by
  refine ⟨fun st out hout => ?_, rfl, rfl, rfl, rfl, rfl, rfl, rfl⟩
  rw [responseFrame, le32_status_code, olenWord, if_pos hout]

end Sys2Proof.Machine
end

section
/-! PROOFS, 40 permutation: the five step mappings lane by lane (40 R91 to R95), the 24 rounds (40 R90, R96), and the raw
permutation commands (40 R100, R101). -/

namespace Sys2Proof.Machine

/-! ### Rows and columns of the lane matrix -/

theorem mapCols_col (r : LaneRow) (f : Nat → Lane → Lane) {x : Nat} (hx : x < 5) : (r.mapCols f).col x = f x (r.col x) := by
  interval_cases x <;> rfl

theorem mapRows_row (A : LaneFile) (f : Nat → LaneRow → LaneRow) {y : Nat} (hy : y < 5) : (A.mapRows f).row y = f y (A.row y) := by
  interval_cases y <;> rfl

/-- A map over rows is read at `(x, y)` from the image of row `y`. -/
theorem mapRows_at (A : LaneFile) (f : Nat → LaneRow → LaneRow) (x : Nat) {y : Nat} (hy : y < 5) :
    (A.mapRows f).at x y = (f y (A.row y)).col x :=
  congrArg (LaneRow.col · x) (mapRows_row A f hy)

/-! ### theta and chi -/

/-- `C[x]` of theta (40 R91). -/
theorem columnParity_col (A : LaneFile) {x : Nat} (hx : x < 5) :
    (columnParity A).col x = A.at x 0 ^^^ A.at x 1 ^^^ A.at x 2 ^^^ A.at x 3 ^^^ A.at x 4 := by
  interval_cases x <;> rfl

/-- `D[x]` of theta (40 R91). -/
theorem thetaEffect_col (C : LaneRow) {x : Nat} (hx : x < 5) :
    (thetaEffect C).col x = C.col ((x + 4) % 5) ^^^ rol64 (C.col ((x + 1) % 5)) 1 := by
  interval_cases x <;> rfl

theorem theta_at (A : LaneFile) {x y : Nat} (hx : x < 5) (hy : y < 5) :
    (theta A).at x y = A.at x y ^^^ (thetaEffect (columnParity A)).col x := by
  rw [theta, mapRows_at _ _ _ hy, mapCols_col _ _ hx]
  rfl

theorem chiRow_col (r : LaneRow) {x : Nat} (hx : x < 5) :
    (chiRow r).col x = r.col x ^^^ (~~~(r.col ((x + 1) % 5)) &&& r.col ((x + 2) % 5)) := by
  interval_cases x <;> rfl

theorem chi_at (A : LaneFile) {x y : Nat} (hx : x < 5) (hy : y < 5) :
    (chi A).at x y = A.at x y ^^^ (~~~(A.at ((x + 1) % 5) y) &&& A.at ((x + 2) % 5) y) := by
  rw [chi, mapRows_at _ _ _ hy, chiRow_col _ hx]
  rfl

/-- Settles O8: theta's `C` and `D` and chi's row are read off column by column, and the rotation by one is its two shifts. -/
theorem thetaAndChiFormulas : Obligations.ThetaAndChiFormulas := by
  intro A x y hx hy
  refine ⟨?_, chi_at A hx hy⟩
  rw [theta_at A hx hy, thetaEffect_col _ hx, columnParity_col A (Nat.mod_lt _ (by decide)),
    columnParity_col A (Nat.mod_lt _ (by decide)), rol64_eq _ (by decide)]

/-! ### rho and pi -/

theorem rho_at (A : LaneFile) {x y : Nat} (hx : x < 5) (hy : y < 5) :
    (rho A).at x y = rol64 (A.at x y) (rhoOffsets.getD (x + 5 * y) 0) := by
  rw [rho, mapRows_at _ _ _ hy, mapCols_col _ _ hx]
  rfl

/-- Lane 0 is rotated by 0 (40 R92). -/
theorem rho_lane_zero (A : LaneFile) : (rho A).lane 0 = A.lane 0 :=
  (rho_at A (x := 0) (y := 0) (by decide) (by decide)).trans (rol64_zero _)

/-- pi, written by destination in the model, read by source as 40 R93 has it. -/
theorem pi_at (A : LaneFile) {x y : Nat} (hx : x < 5) (hy : y < 5) : (pi A).at y ((2 * x + 3 * y) % 5) = A.at x y := by
  interval_cases x <;> interval_cases y <;> rfl

/-- The lane index to which pi moves lane `i`: `(x, y)` to `(y, (2x+3y) mod 5)` (40 R93). -/
def piIndex (i : Nat) : Nat := i / 5 + 5 * ((2 * (i % 5) + 3 * (i / 5)) % 5)

theorem pi_lane_piIndex (A : LaneFile) {i : Nat} (hi : i < 25) : (pi A).lane (piIndex i) = A.lane i := by
  have hy : i / 5 < 5 := by omega
  rw [piIndex, lane_eq_at _ _ _ hy, pi_at A (Nat.mod_lt _ (by decide)) hy]
  rfl

/-- Settles O9: the positions of both steps from their lemmas; the tables are small closed facts. -/
theorem rhoOffsetsAndPiPositions : Obligations.RhoOffsetsAndPiPositions := by
  refine ⟨fun A x y hx hy => ⟨rho_at A hx hy, pi_at A hx hy⟩, fun v n _ hn => rol64_eq v hn, rol64_zero, rho_lane_zero, rfl,
    by decide, fun A i hi => ?_, rfl, by decide⟩
  have table : ∀ k < 25, [0, 10, 20, 5, 15, 16, 1, 11, 21, 6, 7, 17, 2, 12, 22, 23, 8, 18, 3, 13, 14, 24, 9, 19, 4].getD k 0 =
      piIndex k := by decide
  rw [table i hi, pi_lane_piIndex A hi]

/-! ### iota -/

/-- iota as a change of lane 0, whose reads `modifyLane_lane` gives. -/
theorem iota_eq_modifyLane (A : LaneFile) (ir : Nat) : iota A ir = A.modifyLane 0 (· ^^^ roundConstants.getD ir 0) := rfl

/-- One step of the shift register that generates the round constants (40 R95). -/
def lfsrStep (v : Nat) : Nat := if 2 * v ≥ 256 then (2 * v) ^^^ 0x171 else 2 * v

/-- `rc(t)` (40 R95). -/
def rcBit (t : Nat) : Bool := (Nat.iterate lfsrStep (t % 255) 1).testBit 0

/-- The generating rule of the round constants, for every bit of every constant (40 R95). -/
theorem roundConstants_getLsbD : ∀ ir < 24, ∀ b < 64,
    (roundConstants.getD ir 0).getLsbD b = (List.range 7).any fun j => b == 2 ^ j - 1 && rcBit (j + 7 * ir) := by
  decide +kernel

/-- Settles O10: iota modifies lane 0 only; the table is the model's list, and its bits follow the rule. -/
theorem iotaRoundConstants : Obligations.IotaRoundConstants := by
  refine ⟨fun A ir i hi => ?_, rfl, roundConstants_getLsbD⟩
  rw [iota_eq_modifyLane, modifyLane_lane _ _ _ _ (by decide) hi]
  split
  case isTrue h => rw [h]
  case isFalse => rfl

/-! ### The rounds -/

/-- The rounds `0..n-1` in ascending order are a fold over the round numbers (40 R90). -/
theorem keccakRounds_eq_foldl (n : Nat) (A : LaneFile) : keccakRounds n A = (List.range n).foldl keccakRound A := by
  induction n with
  | zero => rfl
  | succ n ih => rw [keccakRounds, ih, List.range_succ, List.foldl_append]; rfl

/-- Settles O11: the recursion over the rounds is the fold. -/
theorem permutationIsTwentyFourRounds : Obligations.PermutationIsTwentyFourRounds :=
  ⟨keccakRounds_eq_foldl 24, fun _ _ => rfl⟩

/-! ### The raw permutation commands -/

theorem exec_kfPermute (st : Bytes) (s : State) :
    exec (.kfPermute st) s = .next (okResponse (bytesOfLanes (keccakF (lanesOfBytes st))) s) :=
  congrArg Host.Outcome.next (respond_eq _ s)

theorem exec_kfRound {ir : Byte} (hir : ir.toNat ≤ 23) (st : Bytes) (s : State) :
    exec (.kfRound ir st) s = .next (okResponse (bytesOfLanes (keccakRound (lanesOfBytes st) ir.toNat)) s) := by
  rw [← respond_eq]
  exact if_neg (Nat.not_lt.mpr hir)

/-- Settles O17: both commands answer with the function's bytes; a round number above 23 is a refused operand. -/
theorem rawPermutationCommandsRespond : Obligations.RawPermutationCommandsRespond :=
  fun st s _ => ⟨exec_kfPermute st s, fun _ hir => exec_kfRound hir st s, fun _ hir => exec_eq_configError id hir rfl⟩

/-- Responses of one status tell their output, of any length: it follows the eight header bytes (30 R78). -/
theorem output_of_responseFrame {st : Status} {out out' : Bytes} (h : responseFrame st out = responseFrame st out') :
    out = out' :=
  (List.append_inj h rfl).2

theorem okResponse_inj {out out' : Bytes} {s : State} (h : okResponse out s = okResponse out' s) : out = out' := by
  have hbox : s.outbox ++ [responseFrame .ok out] = s.outbox ++ [responseFrame .ok out'] := congrArg State.outbox h
  exact output_of_responseFrame (List.cons.inj (List.append_cancel_left hbox)).1

/-- What `KF.ROUND` answered is the rounded state (40 R101). -/
theorem eq_of_exec_kfRound {ir : Nat} (hir : ir < 24) {st out : Bytes} {s : State}
    (h : exec (.kfRound (BitVec.ofNat 8 ir) st) s = .next (okResponse out s)) :
    out = bytesOfLanes (keccakRound (lanesOfBytes st) ir) := by
  have hnat : (BitVec.ofNat 8 ir).toNat = ir := Nat.mod_eq_of_lt (by omega)
  rw [exec_kfRound (by omega), hnat] at h
  exact okResponse_inj (Host.Outcome.next.inj h).symm

/-- Strings each the round of the one before hold the lanes of the ascending rounds (40 R101). -/
theorem lanesOfBytes_round_chain {sts : Nat → Bytes}
    (hround : ∀ ir < 24, sts (ir + 1) = bytesOfLanes (keccakRound (lanesOfBytes (sts ir)) ir)) :
    ∀ n ≤ 24, lanesOfBytes (sts n) = keccakRounds n (lanesOfBytes (sts 0)) := by
  intro n hn
  induction n with
  | zero => rfl
  | succ n ih => rw [hround n hn, lanesOfBytes_bytesOfLanes, ih (Nat.le_of_succ_le hn)]; rfl

/-- Settles O18: each answer is the round of the string before it, so the last holds the 24 rounds of string 0. -/
theorem roundCommandsComposeToPermute : Obligations.RoundCommandsComposeToPermute := by
  intro sts s hexec
  have hround : ∀ ir < 24, sts (ir + 1) = bytesOfLanes (keccakRound (lanesOfBytes (sts ir)) ir) :=
    fun ir hir => eq_of_exec_kfRound hir (hexec ir hir)
  have hlast : sts 24 = bytesOfLanes (keccakF (lanesOfBytes (sts 0))) := by
    rw [hround 23 (by decide), lanesOfBytes_round_chain hround 23 (by decide)]
    rfl
  rw [hlast, exec_kfPermute]

end Sys2Proof.Machine
end

section
/-! PROOFS, 41 sponge, the primitives: byte access, absorbing, padding and squeezing on a lane file (41 R110 to R113). -/

namespace Sys2Proof.Machine

/-! ### Byte access -/

/-- XOR with the zero byte changes no lane, at any index (20 R54). -/
theorem memXor_zero (A : LaneFile) (j : Nat) : memXor A j 0 = A :=
  modifyLane_id A (j / 8) _ fun v => by simp

/-- Settles O12: a byte XORed in shows at its own index only. -/
theorem memXorTouchesOneByte : Obligations.MemXorTouchesOneByte :=
  ⟨fun A j k b => getByte_memXor A j k b, memXor_zero⟩

/-- Every byte of the view after `MemXor`, as an XOR with the written byte or with 0 (41 R110). -/
theorem getByte_memXor_eq_xor (A : LaneFile) {j k : Nat} (b : Byte) (hj : j < 200) (hk : k < 200) :
    getByte (memXor A j b) k = getByte A k ^^^ (if k = j then b else 0) := by
  rw [getByte_memXor A j k b hj hk]
  split
  · rfl
  · exact BitVec.xor_zero.symm

/-! ### Absorbing -/

/-- A byte that does not fill the block is XORed in, and the cursor advances (41 R111). -/
theorem absorbByte_of_lt {A : LaneFile} {pos rate : Nat} (b : Byte) (h : pos + 1 < rate) :
    absorbByte rate (A, pos) b = (memXor A pos b, pos + 1) :=
  if_neg h.ne

/-- The byte that fills the block is XORed in, and the lanes are permuted (41 R111). -/
theorem absorbByte_of_eq {A : LaneFile} {pos rate : Nat} (b : Byte) (h : pos + 1 = rate) :
    absorbByte rate (A, pos) b = (keccakF (memXor A pos b), 0) :=
  if_pos h

/-- One byte moves the cursor on by one, modulo the rate (41 R111). -/
theorem absorbByte_pos {A : LaneFile} {pos rate : Nat} (b : Byte) (h : pos < rate) :
    (absorbByte rate (A, pos) b).2 = (pos + 1) % rate := by
  rcases Nat.lt_or_eq_of_le h with hlt | heq
  · rw [absorbByte_of_lt b hlt, Nat.mod_eq_of_lt hlt]
  · rw [absorbByte_of_eq b heq, ← Nat.succ_eq_add_one, heq, Nat.mod_self]

/-- The cursor after absorbing counts the absorbed bytes modulo the rate (41 R111). -/
theorem absorb_pos {A : LaneFile} {pos rate : Nat} (data : Bytes) (h : pos < rate) :
    (absorb A pos rate data).2 = (pos + data.length) % rate := by
  induction data generalizing A pos with
  | nil => exact (Nat.mod_eq_of_lt h).symm
  | cons b bs ih =>
    rw [absorb_cons, ih (absorbByte_pos_lt rate (A, pos) b h), absorbByte_pos b h, Nat.mod_add_mod, List.length_cons,
      Nat.add_right_comm, Nat.add_assoc]

/-- Data that does not fill the block is XORed into the bytes from the cursor on (41 R111). -/
theorem getByte_absorb_of_lt {A : LaneFile} {pos rate k : Nat} {data : Bytes} (h : pos + data.length < rate)
    (hrate : rate ≤ 200) (hk : k < 200) :
    getByte (absorb A pos rate data).1 k =
      if pos ≤ k ∧ k < pos + data.length then getByte A k ^^^ data.getD (k - pos) 0 else getByte A k := by
  induction data generalizing A pos with
  | nil => exact (if_neg (by simp)).symm
  | cons b bs ih =>
    rw [List.length_cons] at h ⊢
    rw [absorb_cons, absorbByte_of_lt b (by omega), ih (by omega), getByte_memXor A pos k b (by omega) hk]
    rcases Nat.lt_trichotomy k pos with hlt | rfl | hgt
    · rw [if_neg hlt.ne, if_neg (by omega), if_neg (by omega)]
    · rw [if_pos rfl, if_neg (by omega), if_pos (by omega), Nat.sub_self, List.getD_cons_zero]
    · have hsub : k - pos = k - (pos + 1) + 1 := by omega
      rw [if_neg hgt.ne', hsub, List.getD_cons_succ]
      exact if_congr (by omega) rfl rfl

/-- Settles O13: the cursor law without a wrap, and the bytes of the view. -/
theorem absorbWithinABlock : Obligations.AbsorbWithinABlock := fun _ _ _ data h hrate =>
  ⟨(absorb_pos data (by omega)).trans (Nat.mod_eq_of_lt h), fun _ => getByte_absorb_of_lt h hrate⟩

/-- Data that fills the block: all but the last byte stay within it, and the last byte permutes (41 R111). -/
theorem absorb_concat_of_eq {A : LaneFile} {pos rate : Nat} {init : Bytes} (b : Byte) (h : pos + init.length + 1 = rate) :
    absorb A pos rate (init ++ [b]) = (keccakF (memXor (absorb A pos rate init).1 (pos + init.length) b), 0) := by
  have hpos : (absorb A pos rate init).2 = pos + init.length := by
    rw [absorb_pos init (by omega), Nat.mod_eq_of_lt (by omega)]
  rw [absorb_append, absorb_cons, absorb_nil, hpos, absorbByte_of_eq b h]

/-- Settles O14: the cursor law, and a block as its bytes but the last, absorbed within it, and the last, which permutes. -/
theorem absorbPermutesFullBlocks : Obligations.AbsorbPermutesFullBlocks := by
  refine ⟨fun _ _ _ data h => absorb_pos data h, fun A rate data hmin hmax hlen => ?_⟩
  rcases List.eq_nil_or_concat' data with rfl | ⟨init, b, rfl⟩
  · exact absurd hlen hmin.ne
  · have hinit : init.length + 1 = rate := by rw [← hlen, List.length_append, List.length_singleton]
    refine ⟨memXor (absorb A 0 rate init).1 (0 + init.length) b, absorb_concat_of_eq b (by omega), fun k hk => ?_⟩
    rw [getByte_memXor _ _ k b (by omega) hk, getByte_absorb_of_lt (by omega) hmax hk]
    rcases Nat.lt_trichotomy k init.length with hlt | rfl | hgt
    · rw [if_neg (by omega), if_pos (by omega), if_pos (by omega), Nat.sub_zero, List.getD_append _ _ _ _ hlt]
    · rw [if_pos (by omega), if_neg (by omega), if_pos (by omega), List.getD_append_right _ _ _ _ le_rfl, Nat.sub_self,
        List.getD_cons_zero]
    · rw [if_neg (by omega), if_neg (by omega), if_neg (by omega)]

/-! ### Padding -/

/-- Settles O15: both flips of the byte view, before the one permutation. -/
theorem paddingFlipsTwoPositions : Obligations.PaddingFlipsTwoPositions := by
  intro A pos rate d hpos hrate
  refine ⟨memXor (memXor A pos d) (rate - 1) Config.padLast, rfl, fun k hk => ?_⟩
  rw [getByte_memXor_eq_xor _ _ (by omega) hk, getByte_memXor_eq_xor _ _ (by omega) hk]

/-! ### Squeezing -/

theorem refill_of_ne {A : LaneFile} {pos rate : Nat} (h : pos ≠ rate) : refill rate A pos = (A, pos) := if_neg h

/-- A used-up window is renewed by the permutation and read from its start (41 R113). -/
theorem refill_self (A : LaneFile) (rate : Nat) : refill rate A rate = (keccakF A, 0) := if_pos rfl

/-- Inside the window a squeeze only reads on (41 R113). -/
theorem squeeze_of_le {A : LaneFile} {pos rate n : Nat} (h : pos + n ≤ rate) :
    squeeze A pos rate n = { A := A, pos := pos + n, out := (List.range n).map fun k => getByte A (pos + k) } := by
  induction n generalizing pos with
  | zero => rfl
  | succ n ih =>
    rw [squeeze_succ, refill_of_ne (by omega), ih (by omega), List.range_succ_eq_map, List.map_cons, List.map_map]
    simp only [Function.comp_def, Nat.succ_eq_add_one, Nat.add_zero, Nat.add_assoc, Nat.add_comm 1]

/-- Settles O16: reading on within the window, and the renewal of a window that is used up when a byte is wanted. -/
theorem squeezeReadsTheWindow : Obligations.SqueezeReadsTheWindow := by
  refine ⟨fun _ _ _ _ => squeeze_of_le, fun A rate n hrate => ?_⟩
  rw [squeeze_succ, squeeze_succ, refill_self, refill_of_ne hrate.ne]

end Sys2Proof.Machine
end

section
/-! PROOFS, 41 sponge, the commands: what each answers and writes in every phase (41 R117 to R123; 60 R225). -/

namespace Sys2Proof.Machine

/-! ### An effect as the update a statement writes -/

/-- An accepted command that answers `OK` and draws nothing makes its write and nothing else (60 R225). -/
theorem exec_eq_okResponse {i : Instr} {s : State} {out : Bytes} {w : GroupWrite} (hp : ¬ phaseErrorCause i s)
    (hc : ¬ configErrorCause i s) (heffect : acceptedEffect i s = .answer .ok out w s.entropy) :
    exec i s = .next (okResponse out (w.apply s)) := by
  rw [exec_of_accepted hp hc, heffect, ← respond_eq]
  rfl

/-- A command in the wrong phase changes nothing but `ERRLOG` (60 R221, R226). -/
theorem exec_eq_phaseError {i : Instr} {s : State} (hp : phaseErrorCause i s) : exec i s = .next (errorResponse .phaseError s) := by
  rw [exec_of_phaseErrorCause hp, raise_eq (by decide)]

/-- A sponge that is configured and absorbing is in the phase of `SP.ABSORB` and `SP.PAD` (60 R221). -/
theorem not_unconfigured_or_squeezing {S : Sponge} (hcfg : S.cfg = true) (hdir : S.dir = .absorbing) :
    ¬ (S.cfg = false ∨ S.dir = .squeezing) := by
  simp [hcfg, hdir]

/-! ### Construction -/

/-- A sponge right after construction (41 R117). -/
def Sponge.fresh (rate ds : Byte) (fx : Bool) (budget : Word) : Sponge :=
  ⟨LaneFile.zero, rate, ds, fx, budget, budget, .absorbing, 0, true⟩

theorem exec_spInit {rate ds : Byte} {fx : Bool} {budget : Word} (hmin : 1 ≤ rate.toNat) (hmax : rate.toNat ≤ 200)
    (hbudget : fx = false → budget = 0) (s : State) :
    exec (.spInit rate ds fx budget) s = .next (okResponse [] { s with S := .fresh rate ds fx budget }) := by
  have hc : ¬ configErrorCause (.spInit rate ds fx budget) s := by
    rintro (h | h | ⟨hfx, hne⟩)
    · omega
    · omega
    · exact hne (hbudget hfx)
  exact exec_eq_okResponse (w := .sponge _) not_false hc rfl

/-- Settles O19: the accepted operands construct, and each of the two tests of R117 refuses. -/
theorem spInitConstructs : Obligations.SpInitConstructs := by
  refine fun rate ds fx budget s =>
    ⟨fun hmin hmax hbudget => exec_spInit hmin hmax hbudget s, fun hrate => ?_, fun hfx hne => ?_⟩
  · exact exec_eq_configError not_false (hrate.imp Nat.lt_one_iff.mp .inl) rfl
  · exact exec_eq_configError not_false (.inr (.inr ⟨hfx, hne⟩)) rfl

/-! ### Absorbing and padding -/

/-- The sponge with the data absorbed (41 R111, R118). -/
def Sponge.absorbed (S : Sponge) (data : Bytes) : Sponge :=
  { S with A := (absorb S.A S.pos S.rate.toNat data).1, pos := (absorb S.A S.pos S.rate.toNat data).2 }

theorem exec_spAbsorb {s : State} (hcfg : s.S.cfg = true) (hdir : s.S.dir = .absorbing) (data : Bytes) :
    exec (.spAbsorb data) s = .next (okResponse [] { s with S := s.S.absorbed data }) :=
  exec_eq_okResponse (w := .sponge _) (not_unconfigured_or_squeezing hcfg hdir) not_false rfl

/-- Settles O20. -/
theorem spAbsorbAbsorbs : Obligations.SpAbsorbAbsorbs :=
  fun data _ => ⟨fun hcfg hdir => exec_spAbsorb hcfg hdir data, fun hphase => exec_eq_phaseError hphase⟩

theorem exec_spPad {s : State} (hcfg : s.S.cfg = true) (hdir : s.S.dir = .absorbing) (dsb : Byte) :
    exec (.spPad dsb) s = .next (okResponse [] { s with S := padAndSwitch dsb s.S }) :=
  exec_eq_okResponse (w := .sponge _) (not_unconfigured_or_squeezing hcfg hdir) not_false rfl

/-- Settles O21: padding with the command's byte, written out. -/
theorem spPadSwitches : Obligations.SpPadSwitches :=
  fun dsb _ => ⟨fun hcfg hdir => exec_spPad hcfg hdir dsb, fun hphase => exec_eq_phaseError hphase⟩

/-! ### Squeezing -/

/-- A squeeze gives what is asked, but of a fixed-output sponge no more than what remains (41 R120). -/
theorem squeezeCount_eq_min (S : Sponge) (olen : Word) :
    squeezeCount S olen = if S.fx = true then min olen.toNat S.remain.toNat else olen.toNat := by
  unfold squeezeCount
  cases S.fx with
  | false => rfl
  | true =>
    simp only [true_and, if_true]
    split <;> omega

theorem squeezeCount_le_remain {S : Sponge} (hfx : S.fx = true) (olen : Word) : squeezeCount S olen ≤ S.remain.toNat := by
  rw [squeezeCount_eq_min, if_pos hfx]
  exact min_le_right _ _

/-- The budget is subtracted as a word, since no more than it is given (41 R120). -/
theorem remainAfter_squeezeCount (S : Sponge) (olen : Word) :
    remainAfter S (squeezeCount S olen) =
      if S.fx = true then S.remain - BitVec.ofNat 32 (squeezeCount S olen) else S.remain := by
  unfold remainAfter
  refine ite_congr rfl (fun hfx => ?_) fun _ => rfl
  have hle := squeezeCount_le_remain hfx olen
  have hlt : squeezeCount S olen < 2 ^ 32 := hle.trans_lt S.remain.isLt
  rw [← BitVec.ofNat_sub_ofNat_of_le _ _ hlt hle, BitVec.ofNat_toNat, BitVec.setWidth_eq]

theorem exec_spSqueeze {s : State} (hcfg : s.S.cfg = true) (olen : Word) :
    exec (.spSqueeze olen) s =
      .next (finish (squeezeStatus s.S olen) (squeezeOf s.S olen).out { s with S := spongeAfterSqueeze s.S olen }) :=
  execSpSqueeze_of_cfg olen (by simp [hcfg])

/-- What a squeeze starts from, written out: the padded lanes from their first byte, or the lanes as they are (41 R120). -/
theorem readyToSqueeze_eq_ite (S : Sponge) :
    readyToSqueeze S =
      { S with
        A := if S.dir = .absorbing then padPermute S.A S.pos S.rate.toNat S.ds else S.A
        pos := if S.dir = .absorbing then 0 else S.pos
        dir := .squeezing } := by
  unfold readyToSqueeze padAndSwitch
  cases hdir : S.dir with
  | absorbing => rfl
  | squeezing =>
    obtain ⟨A, rate, ds, fx, budget0, remain, dir, pos, cfg⟩ := S
    cases hdir
    rfl

/-- Settles O22: the squeeze from the ready sponge, with its count and the budget left written out. -/
theorem spSqueezeGivesOutput : Obligations.SpSqueezeGivesOutput := by
  refine fun olen s => ⟨fun hcfg => ?_, fun hcfg => exec_eq_phaseError hcfg⟩
  intro rate A0 p0 n q S1
  have hn : squeezeCount s.S olen = n := squeezeCount_eq_min s.S olen
  have hq : squeezeOf s.S olen = q := by
    rw [squeezeOf, hn, readyToSqueeze_eq_ite]
  have hS1 : spongeAfterSqueeze s.S olen = S1 := by
    rw [spongeAfterSqueeze, hq, remainAfter_squeezeCount, hn, readyToSqueeze_eq_ite]
  refine ⟨squeeze_out_length rate n A0 p0, ?_⟩
  rw [exec_spSqueeze hcfg, hq, hS1, squeezeStatus, hn]
  split
  · rfl
  · exact congrArg _ (respond_eq q.out { s with S := S1 })

/-! ### Reset, snapshot and restore -/

theorem exec_spReset {s : State} (hcfg : s.S.cfg = true) :
    exec .spReset s =
      .next (okResponse [] { s with S := { s.S with A := LaneFile.zero, dir := .absorbing, pos := 0, remain := s.S.budget0 } }) :=
  exec_eq_okResponse (w := .sponge _) (ne_false_of_eq_true hcfg) not_false rfl

theorem exec_spSnap {s : State} (hcfg : s.S.cfg = true) :
    exec .spSnap s = .next (okResponse [] { s with SS := { toSponge := s.S, valid := true } }) :=
  exec_eq_okResponse (w := .shadow _) (ne_false_of_eq_true hcfg) not_false rfl

theorem exec_spRestore {s : State} (hvalid : s.SS.valid = true) :
    exec .spRestore s = .next (okResponse [] { s with S := s.SS.toSponge }) :=
  exec_eq_okResponse (w := .sponge _) (ne_false_of_eq_true hvalid) not_false rfl

/-- Settles O23. -/
theorem spResetAndSnap : Obligations.SpResetAndSnap :=
  fun _ => ⟨fun hcfg => ⟨exec_spReset hcfg, exec_spSnap hcfg⟩,
    fun hcfg => ⟨exec_eq_phaseError hcfg, exec_eq_phaseError hcfg⟩⟩

end Sys2Proof.Machine
end

section
/-! PROOFS, 41 sponge, what runs of commands keep: the snapshot (41 R123), the squeezing phase (41 R124), the budget (41 R127). -/

namespace Sys2Proof.Machine

/-! ### Running a list of commands -/

theorem execList_cons {i : Instr} {s t : State} (h : exec i s = .next t) (X : List Instr) :
    execList (i :: X) s = execList X t := by
  simp only [execList, h]

theorem execList_append {X : List Instr} {s t : State} (h : execList X s = some t) (Y : List Instr) :
    execList (X ++ Y) s = execList Y t := by
  induction X generalizing s with
  | nil => exact congrArg (execList Y) (Option.some.inj h)
  | cons i X ih =>
    obtain ⟨e, he⟩ := exists_hasEffect i s
    rw [execList_cons he.exec_eq] at h
    rw [List.cons_append, execList_cons he.exec_eq, ih h]

/-- A command hands over nothing, so no reset signal comes to be among what the host has sent (70 R245). -/
theorem noReset_of_exec {i : Instr} {s t : State} (hno : NoReset s) (h : exec i s = .next t) : NoReset t := by
  rcases exec_cases i s with ⟨st, out, u, e, hquiet, -⟩ | ⟨n, -, -, e⟩ <;> obtain rfl := Host.Outcome.next.inj (h.symm.trans e)
  · intro ev hev
    rw [finish_inbox, hquiet.inbox] at hev
    exact hno ev (List.mem_of_mem_tail hev)
  · rwa [hold_of_noReset hno]

/-! ### The snapshot -/

/-- No command but `SP.SNAP` writes the shadow, so no list without it does (41 R122). -/
theorem execList_keeps_shadow {X : List Instr} {s : State} (hno : NoReset s) (hX : Instr.spSnap ∉ X) :
    ∃ t, execList X s = some t ∧ t.SS = s.SS := by
  induction X generalizing s with
  | nil => exact ⟨s, rfl, rfl⟩
  | cons i X ih =>
    obtain ⟨hi, hrest⟩ := not_or.mp (mt List.mem_cons.mpr hX)
    have hop : i.command.op ≠ .spSnap := by
      cases i
      case spSnap => exact absurd rfl hi
      all_goals exact Op.noConfusion
    obtain ⟨t, hexec, -, hSS, -⟩ := enginesShareNoState i s hno
    obtain ⟨u, hrun, hu⟩ := ih (noReset_of_exec hno hexec) hrest
    exact ⟨u, (execList_cons hexec X).trans hrun, hu.trans (hSS hop)⟩

/-- Settles O24: the shadow holds the saved sponge until `SP.RESTORE` copies it back. -/
theorem snapThenRestoreReturnsTheSponge : Obligations.SnapThenRestoreReturnsTheSponge := by
  refine ⟨fun s => exec_spRestore, fun s hvalid => exec_eq_phaseError hvalid, fun s X hcfg hno hX => ?_⟩
  have hsnap := exec_spSnap hcfg
  obtain ⟨u, hrun, hSS⟩ := execList_keeps_shadow (noReset_of_exec hno hsnap) hX
  have hvalid : u.SS.valid = true := congrArg Shadow.valid hSS
  refine ⟨okResponse [] { u with S := u.SS.toSponge }, ?_, congrArg Shadow.toSponge hSS⟩
  rw [List.append_assoc, List.singleton_append, execList_cons hsnap, execList_append hrun, execList_cons (exec_spRestore hvalid)]
  rfl

/-! ### What a command leaves of a running sponge -/

/-- `S'` is what a command that is none of `SP.INIT`, `SP.RESET`, `SP.RESTORE` leaves of `S`: the same configuration, not back from
squeezing to absorbing, and with the same budget unless bytes were squeezed (41 R120, R124). -/
structure Sponge.Continues (i : Instr) (S S' : Sponge) : Prop where
  cfg : S'.cfg = S.cfg
  fx : S'.fx = S.fx
  dir : S.dir = .squeezing → S'.dir = .squeezing
  remain : i.command.op ≠ .spSqueeze → S'.remain = S.remain

theorem Sponge.Continues.refl (i : Instr) (S : Sponge) : S.Continues i S := ⟨rfl, rfl, id, fun _ => rfl⟩

/-- The command does not construct, reset or restore the sponge. -/
abbrev LeavesInstance (i : Instr) : Prop :=
  i.command.op ≠ .spInit ∧ i.command.op ≠ .spReset ∧ i.command.op ≠ .spRestore

/-- A write that leaves the sponge alone, or continues it. -/
def GroupWrite.Continues (i : Instr) (S : Sponge) : GroupWrite → Prop
  | .sponge S' => S.Continues i S'
  | _ => True

theorem GroupWrite.Continues.apply {i : Instr} {s : State} {w : GroupWrite} (h : w.Continues i s.S) :
    s.S.Continues i (w.apply s).S := by
  cases w
  case sponge => exact h
  all_goals exact .refl i s.S

theorem refusedWrite_continues (i : Instr) (s : State) (S : Sponge) : (refusedWrite i s).Continues i S := by
  cases i <;> trivial

theorem acceptedEffect_continues {i : Instr} (hi : LeavesInstance i) (s : State) :
    (acceptedEffect i s).Writes (·.Continues i s.S) := by
  obtain ⟨hinit, hreset, hrestore⟩ := hi
  cases i
  case spInit => exact absurd rfl hinit
  case spReset => exact absurd rfl hreset
  case spRestore => exact absurd rfl hrestore
  case spAbsorb => exact ⟨rfl, rfl, id, fun _ => rfl⟩
  case spPad => exact ⟨rfl, rfl, fun _ => rfl, fun _ => rfl⟩
  case spSqueeze =>
    obtain ⟨hdir, hfx, -, hcfg⟩ := readyToSqueeze_eq s.S
    exact ⟨hcfg, hfx, fun _ => hdir, fun h => absurd rfl h⟩
  case sivUnseal | stOpen => exact Effect.ofOpened_writes trivial _ _
  case stSeal | aoPackage => exact Effect.ofDraw_writes trivial _ _ _
  all_goals trivial

/-- What a command leaves of the sponge, said once for the claims about phases and budgets. -/
theorem exec_continues {i : Instr} {s : State} (hi : LeavesInstance i) (hno : NoReset s) :
    ∃ t, exec i s = .next t ∧ s.S.Continues i t.S := by
  obtain ⟨e, he⟩ := exists_hasEffect i s
  refine ⟨e.run s, he.exec_eq, ?_⟩
  cases e with
  | held =>
    rw [Effect.run, hold_of_noReset hno]
    exact .refl i s.S
  | answer st out w left =>
    have hw : w.Continues i s.S := he.writes trivial (refusedWrite_continues i s s.S) fun _ _ => acceptedEffect_continues hi s
    exact hw.apply (s := { s with entropy := left })

/-- While squeezing, `SP.ABSORB` and `SP.PAD` are in the wrong phase (60 R221). -/
theorem phaseErrorCause_of_squeezing {i : Instr} {s : State} (hdir : s.S.dir = .squeezing)
    (hi : i.command.op = .spAbsorb ∨ i.command.op = .spPad) : phaseErrorCause i s := by
  cases i
  case spAbsorb | spPad => exact .inr hdir
  all_goals exact absurd hi (by simp [Instr.command])

/-- Settles O27: one of the three commands, or a command that continues the sponge. -/
theorem squeezingEndsOnlyByThreeCommands : Obligations.SqueezingEndsOnlyByThreeCommands := by
  intro i s hno hdir
  obtain ⟨e, he⟩ := exists_hasEffect i s
  refine ⟨e.run s, he.exec_eq, fun habs => ?_, fun hi => ?_⟩
  · by_contra hthree
    have hleaves : LeavesInstance i :=
      ⟨fun h => hthree (.inr (.inl h)), fun h => hthree (.inl h), fun h => hthree (.inr (.inr h))⟩
    obtain ⟨t, hexec, hcont⟩ := exec_continues hleaves hno
    obtain rfl := Host.Outcome.next.inj (he.exec_eq.symm.trans hexec)
    exact absurd (habs.symm.trans (hcont.dir hdir)) (by decide)
  · have hraise := exec_of_phaseErrorCause (phaseErrorCause_of_squeezing hdir hi)
    rw [Host.Outcome.next.inj (he.exec_eq.symm.trans hraise), raise_S]

/-! ### The budget -/

theorem responseFrame_length (st : Status) (out : Bytes) : (responseFrame st out).length = 8 + out.length := by
  rw [responseFrame, List.length_append]
  rfl

/-- The bytes that the response to one command counts for in `squeezedBytes`. -/
def bytesGiven (i : Instr) (t : State) : Nat :=
  if i.command.op = .spSqueeze then (t.outbox.getLast?.getD []).length - 8 else 0

theorem squeezedBytes_cons {i : Instr} {s t : State} (h : exec i s = .next t) (X : List Instr) :
    squeezedBytes (i :: X) s = bytesGiven i t + squeezedBytes X t := by
  simp only [squeezedBytes, h]
  rfl

theorem bytesGiven_spSqueeze_finish (olen : Word) (st : Status) (out : Bytes) (s : State) :
    bytesGiven (.spSqueeze olen) (finish st out s) = out.length := by
  have hop : (Instr.spSqueeze olen).command.op = .spSqueeze := rfl
  rw [bytesGiven, if_pos hop, finish_outbox, List.getLast?_concat, Option.getD_some, responseFrame_length, Nat.add_sub_cancel_left]

/-- A squeeze of a fixed-output sponge takes from the budget what it gives (41 R120). -/
theorem squeezeCount_add_remainAfter {S : Sponge} (hfx : S.fx = true) (olen : Word) :
    squeezeCount S olen + (remainAfter S (squeezeCount S olen)).toNat = S.remain.toNat := by
  have hle := squeezeCount_le_remain hfx olen
  have hlt : S.remain.toNat - squeezeCount S olen < 2 ^ 32 := (Nat.sub_le _ _).trans_lt S.remain.isLt
  rw [remainAfter, if_pos hfx, BitVec.toNat_ofNat, Nat.mod_eq_of_lt hlt, Nat.add_sub_cancel' hle]

/-- One command of a fixed-output sponge: what it gives and what it leaves make up the budget before it (41 R127). -/
theorem exec_conserves_budget {i : Instr} {s : State} (hi : LeavesInstance i) (hno : NoReset s) (hcfg : s.S.cfg = true)
    (hfx : s.S.fx = true) :
    ∃ t, exec i s = .next t ∧ s.S.Continues i t.S ∧ bytesGiven i t + t.S.remain.toNat = s.S.remain.toNat := by
  obtain ⟨t, hexec, hcont⟩ := exec_continues hi hno
  refine ⟨t, hexec, hcont, ?_⟩
  by_cases hop : i.command.op = .spSqueeze
  · cases i
    case spSqueeze olen =>
      obtain rfl := Host.Outcome.next.inj (hexec.symm.trans (exec_spSqueeze hcfg olen))
      rw [bytesGiven_spSqueeze_finish, squeezeOf, squeeze_out_length]
      exact squeezeCount_add_remainAfter hfx olen
    all_goals exact Op.noConfusion hop
  · rw [bytesGiven, if_neg hop, Nat.zero_add, hcont.remain hop]

theorem execList_conserves_budget {X : List Instr} {s : State} (hX : ∀ i ∈ X, LeavesInstance i) (hno : NoReset s)
    (hcfg : s.S.cfg = true) (hfx : s.S.fx = true) :
    ∃ u, execList X s = some u ∧ squeezedBytes X s + u.S.remain.toNat = s.S.remain.toNat := by
  induction X generalizing s with
  | nil => exact ⟨s, rfl, Nat.zero_add _⟩
  | cons i X ih =>
    obtain ⟨hi, hrest⟩ := List.forall_mem_cons.mp hX
    obtain ⟨t, hexec, hcont, hstep⟩ := exec_conserves_budget hi hno hcfg hfx
    obtain ⟨u, hrun, hsum⟩ := ih hrest (noReset_of_exec hno hexec) (hcont.cfg.trans hcfg) (hcont.fx.trans hfx)
    refine ⟨u, (execList_cons hexec X).trans hrun, ?_⟩
    rw [squeezedBytes_cons hexec, Nat.add_assoc, hsum, hstep]

/-- Settles O26: the law from any fixed-output sponge, so also from the one `SP.RESET` or `SP.INIT` leaves. -/
theorem squeezedBytesStayWithinBudget : Obligations.SqueezedBytesStayWithinBudget := by
  refine fun X s hno hX => ⟨execList_conserves_budget hX hno, fun hcfg hfx => ?_, fun rate ds budget hmin hmax => ?_⟩
  · have hexec := exec_spReset hcfg
    obtain ⟨u, hrun⟩ := execList_conserves_budget hX (noReset_of_exec hno hexec) hcfg hfx
    exact ⟨_, u, hexec, hrun⟩
  · have hexec := exec_spInit (ds := ds) (budget := budget) hmin hmax (fx := true) nofun s
    obtain ⟨u, hrun⟩ := execList_conserves_budget hX (noReset_of_exec hno hexec) rfl rfl
    exact ⟨_, u, hexec, hrun⟩

end Sys2Proof.Machine
end

section
/-! PROOFS, 41 sponge, what runs of commands compute: squeezing and absorbing in pieces (41 R128), and the XOF (41 R114, R115). -/

namespace Sys2Proof.Machine

/-! ### Squeezing and absorbing in pieces -/

/-- The sponge after `n` bytes were squeezed from it as it stands (41 R113, R120). -/
def Sponge.squeezed (S : Sponge) (n : Nat) : Sponge :=
  { S with
    A := (squeeze S.A S.pos S.rate.toNat n).A
    pos := (squeeze S.A S.pos S.rate.toNat n).pos
    remain := remainAfter S n }

theorem remainAfter_zero (S : Sponge) : remainAfter S 0 = S.remain := by
  rw [remainAfter, Nat.sub_zero, BitVec.ofNat_toNat, BitVec.setWidth_eq, ite_self]

theorem squeezed_zero (S : Sponge) : S.squeezed 0 = S := by
  simp only [Sponge.squeezed, remainAfter_zero, squeeze_zero]

/-- Counting down twice is counting down once (41 R120). -/
theorem remainAfter_squeezed (S : Sponge) (m n : Nat) : remainAfter (S.squeezed m) n = remainAfter S (m + n) := by
  unfold remainAfter Sponge.squeezed
  refine ite_congr rfl (fun hfx => ?_) fun hfx => if_neg hfx
  have hlt : S.remain.toNat - m < 2 ^ 32 := (Nat.sub_le _ _).trans_lt S.remain.isLt
  rw [remainAfter, if_pos hfx, BitVec.toNat_ofNat, Nat.mod_eq_of_lt hlt, Nat.sub_sub]

theorem squeezed_squeezed (S : Sponge) (m n : Nat) : (S.squeezed m).squeezed n = S.squeezed (m + n) := by
  rw [Sponge.squeezed, remainAfter_squeezed]
  simp only [Sponge.squeezed, squeeze_add]

/-- Bytes squeezed within the budget leave the budget for the rest. -/
theorem le_remain_squeezed {S : Sponge} {m n : Nat} (h : S.fx = true → m + n ≤ S.remain.toNat) :
    (S.squeezed m).fx = true → n ≤ (S.squeezed m).remain.toNat := by
  intro hfx
  have hle : m + n ≤ S.remain.toNat := h hfx
  have hremain : (S.squeezed m).remain = BitVec.ofNat 32 (S.remain.toNat - m) := if_pos hfx
  rw [hremain, BitVec.toNat_ofNat]
  omega

theorem readyToSqueeze_of_squeezing {S : Sponge} (h : S.dir = .squeezing) : readyToSqueeze S = S := by
  rw [readyToSqueeze, h]

theorem readyToSqueeze_remain (S : Sponge) : (readyToSqueeze S).remain = S.remain := by
  rw [readyToSqueeze_eq_ite]

/-- The next `n` bytes of a sponge as it stands (41 R113). -/
def Sponge.nextBytes (S : Sponge) (n : Nat) : Bytes := (squeeze S.A S.pos S.rate.toNat n).out

theorem nextBytes_length (S : Sponge) (n : Nat) : (S.nextBytes n).length = n := squeeze_out_length _ n _ _

theorem nextBytes_add (S : Sponge) (m n : Nat) : S.nextBytes (m + n) = S.nextBytes m ++ (S.squeezed m).nextBytes n :=
  congrArg Squeezed.out (squeeze_add S.rate.toNat m n S.A S.pos)

/-- Within the budget `SP.SQUEEZE olen` answers `OK` with all it was asked for (41 R120). -/
theorem exec_spSqueeze_within_budget {s : State} {olen : Word} (hcfg : s.S.cfg = true)
    (hbudget : s.S.fx = true → olen.toNat ≤ s.S.remain.toNat) :
    ∃ t, exec (.spSqueeze olen) s = .next t ∧
      t.outbox = s.outbox ++ [responseFrame .ok ((readyToSqueeze s.S).nextBytes olen.toNat)] ∧
      t.S = (readyToSqueeze s.S).squeezed olen.toNat := by
  have hcount : squeezeCount s.S olen = olen.toNat := if_neg fun ⟨hfx, hgt⟩ => Nat.not_lt.mpr (hbudget hfx) hgt
  have hstatus : squeezeStatus s.S olen = .ok := if_neg hcount.not_lt
  have hremain : remainAfter s.S olen.toNat = remainAfter (readyToSqueeze s.S) olen.toNat := by
    rw [remainAfter, remainAfter, readyToSqueeze_eq_ite]
  refine ⟨_, exec_spSqueeze hcfg olen, ?_, ?_⟩
  · rw [finish_outbox, hstatus, squeezeOf, hcount]
    rfl
  · rw [finish_S, spongeAfterSqueeze, squeezeOf, hcount, hremain]
    rfl

/-- `N` bytes squeezed one by one; after the first of them the sponge is squeezing (41 R128). -/
theorem execList_replicate_spSqueeze {s : State} {N : Nat} (hcfg : s.S.cfg = true)
    (hbudget : s.S.fx = true → N ≤ s.S.remain.toNat) :
    ∃ u, execList (List.replicate N (.spSqueeze 1)) s = some u ∧
      u.outbox = s.outbox ++ ((readyToSqueeze s.S).nextBytes N).map (fun b => responseFrame .ok [b]) ∧
      (s.S.dir = .squeezing ∨ 0 < N → u.S = (readyToSqueeze s.S).squeezed N) := by
  induction N generalizing s with
  | zero =>
    refine ⟨s, rfl, (List.append_nil _).symm, fun h => ?_⟩
    rw [squeezed_zero, readyToSqueeze_of_squeezing (h.resolve_right (lt_irrefl 0))]
  | succ N ih =>
    obtain ⟨hdir, hfx, -, hrcfg⟩ := readyToSqueeze_eq s.S
    obtain ⟨t, hexec, hbox, hS⟩ :=
      exec_spSqueeze_within_budget (olen := 1) hcfg fun hfx => (Nat.le_add_left 1 N).trans (hbudget hfx)
    have htdir : t.S.dir = .squeezing := (congrArg Sponge.dir hS).trans hdir
    have hready : readyToSqueeze t.S = (readyToSqueeze s.S).squeezed 1 := (readyToSqueeze_of_squeezing htdir).trans hS
    have hrest : t.S.fx = true → N ≤ t.S.remain.toNat := by
      rw [hS]
      refine le_remain_squeezed fun h => ?_
      rw [readyToSqueeze_remain, Nat.add_comm]
      exact hbudget (hfx.symm.trans h)
    obtain ⟨u, hrun, hubox, huS⟩ := ih ((congrArg Sponge.cfg hS).trans (hrcfg.trans hcfg)) hrest
    refine ⟨u, (execList_cons hexec _).trans hrun, ?_, fun _ => ?_⟩
    · obtain ⟨b, hb⟩ := List.length_eq_one_iff.mp (nextBytes_length (readyToSqueeze s.S) 1)
      have hbox1 : t.outbox = s.outbox ++ [responseFrame .ok [b]] := hb ▸ hbox
      rw [hubox, hbox1, hready, Nat.add_comm N 1, nextBytes_add, hb, List.map_append, List.map_singleton, List.append_assoc]
    · rw [huS (.inl htdir), hready, squeezed_squeezed, Nat.add_comm]

/-- Absorbing in two pieces is absorbing them joined (41 R111). -/
theorem absorbed_absorbed (S : Sponge) (x y : Bytes) : (S.absorbed x).absorbed y = S.absorbed (x ++ y) := by
  simp only [Sponge.absorbed, absorb_append]

/-- Settles O25: a run of one-byte squeezes is the one squeeze, by the additivity of squeezing, and absorbing likewise. -/
theorem piecewiseSqueezeAndAbsorb : Obligations.PiecewiseSqueezeAndAbsorb := by
  refine ⟨fun s N hcfg hN hbudget => ?_, fun s x y hcfg hdir => ?_⟩
  · have hnat : (BitVec.ofNat 32 N).toNat = N := Nat.mod_eq_of_lt hN
    obtain ⟨t, hexec, hbox, hS⟩ := exec_spSqueeze_within_budget (olen := BitVec.ofNat 32 N) hcfg (by rwa [hnat])
    obtain ⟨u, hrun, hubox, huS⟩ := execList_replicate_spSqueeze hcfg hbudget
    rw [hnat] at hbox hS
    exact ⟨_, t, u, nextBytes_length _ N, hexec, hbox, hrun, hubox, fun hpos => (huS (.inr hpos)).trans hS.symm⟩
  · have hfirst := exec_spAbsorb hcfg hdir x
    have hsecond := exec_spAbsorb (s := okResponse [] { s with S := s.S.absorbed x }) hcfg hdir y
    exact ⟨_, _, exec_spAbsorb hcfg hdir (x ++ y), (execList_cons hfirst _).trans (execList_cons hsecond []),
      absorbed_absorbed s.S x y⟩

/-! ### The XOF -/

/-- A fresh sponge without a budget, its input and its output are the whole sponge function (41 R114, R117, R118, R120). -/
theorem execList_spongeFn {rate : Byte} (hmin : 1 ≤ rate.toNat) (hmax : rate.toNat ≤ 200) (ds : Byte) (M : Bytes) (olen : Word)
    (s : State) :
    ∃ t, execList [.spInit rate ds false 0, .spAbsorb M, .spSqueeze olen] s = some t ∧
      t.outbox = s.outbox ++
        [responseFrame .ok [], responseFrame .ok [], responseFrame .ok (spongeFn rate.toNat ds M olen.toNat)] := by
  have hinit := exec_spInit (ds := ds) (fx := false) hmin hmax (fun _ => rfl) s
  have habsorb := exec_spAbsorb (s := okResponse [] { s with S := .fresh rate ds false 0 }) rfl rfl M
  obtain ⟨t, hsqueeze, hbox, -⟩ := exec_spSqueeze_within_budget (olen := olen)
    (s := okResponse [] { okResponse [] s with S := (Sponge.fresh rate ds false 0).absorbed M }) rfl nofun
  refine ⟨t, (execList_cons hinit _).trans ((execList_cons habsorb _).trans (execList_cons hsqueeze [])), hbox.trans ?_⟩
  exact (List.append_assoc _ _ _).trans (List.append_assoc _ _ _)

/-- Settles O60: the run gives the sponge function, which at `P_XOF_RATE` and `0x1f` is the XOF. -/
theorem xofIsASpongeRun : Obligations.XofIsASpongeRun := by
  refine ⟨fun p M n => ⟨xof_eq p M n, xof_length p M n⟩,
    fun rate ds M olen s hmin hmax => execList_spongeFn hmin hmax ds M olen s, fun M olen s hp => ?_⟩
  obtain ⟨-, -, hxof, -⟩ := hp
  have hrate : (BitVec.ofNat 8 s.params.xofRate).toNat = s.params.xofRate := by
    rcases hxof with h | h <;> rw [h] <;> rfl
  obtain ⟨t, hrun, hbox⟩ := execList_spongeFn (rate := BitVec.ofNat 8 s.params.xofRate) (by omega) (by omega) 0x1f M olen s
  refine ⟨t, hrun, ?_⟩
  rw [hbox, hrate, List.getLast?_append]
  rfl

end Sys2Proof.Machine
end

section
/-! PROOFS, 42 vector MAC: the separators (42 R141), and what each command answers and writes in every phase (42 R146 to R149;
60 R225). -/

namespace Sys2Proof.Machine

/-! ### The separators -/

/-- The separator depends on the input's number modulo 128 only (42 R141). -/
theorem vmSep_toNat (i : Nat) : (vmSep i).toNat = 255 - 2 * (i % 128) := by
  have h255 : (0xff : Byte).toNat = 255 := rfl
  rw [vmSep, BitVec.toNat_sub, BitVec.toNat_ofNat, h255]
  omega

/-- Settles O31: each clause is arithmetic on `255 - 2 (i mod 128)`. -/
theorem separatorsAreOddAndDistinct : Obligations.SeparatorsAreOddAndDistinct := by
  refine ⟨fun i => ?_, fun i j => ?_⟩
  · rw [vmSep_toNat]
    omega
  · rw [← BitVec.toNat_inj, vmSep_toNat, vmSep_toNat]
    omega

/-- The separator is the spec's formula on integers, taken modulo 256 (42 R141). -/
theorem vmSep_eq_ofInt (i : Nat) : vmSep i = BitVec.ofInt 8 (0xff - 2 * (i : Int)) := by
  apply BitVec.eq_of_toNat_eq
  rw [vmSep_toNat, BitVec.toNat_ofInt]
  omega

/-! ### The commands -/

/-- An instance right after `VM.KEY`, at its snapshot (42 R146). -/
def VectorMac.primed (L : LaneFile) : VectorMac := ⟨true, L, L, 0, 0, false⟩

/-- The instance with one more input absorbed and ended by its separator (42 R142, R147). -/
def VectorMac.absorbed (v : VectorMac) (p : Params) (x : Bytes) : VectorMac :=
  { v with A := vmInputLanes p v.A v.idx x, idx := v.idx + 1 }

/-- A valid instance goes back to what `VM.KEY` left, whatever has been absorbed or refused since (42 R148, R149). -/
theorem restoreSnapshot_of_valid {v : VectorMac} (hvalid : v.valid = true) : restoreSnapshot v = .primed v.snap := by
  rw [restoreSnapshot, hvalid]
  rfl

/-- A refused operand changes nothing but `ERRLOG` and what `refusedWrite` says (60 R217, R226). -/
theorem exec_eq_configError_apply {i : Instr} {s : State} (hp : ¬ phaseErrorCause i s) (hc : configErrorCause i s) :
    exec i s = .next (errorResponse .configError ((refusedWrite i s).apply s)) := by
  rw [exec_of_configErrorCause hp hc, ← raise_eq (by decide)]
  rfl

theorem exec_vmKey {key : Bytes} (hkey : key ≠ []) (s : State) :
    exec (.vmKey key) s = .next (okResponse [] { s with V := .primed (vmPrime s.params key) }) :=
  exec_eq_okResponse (w := .vmac _) not_false (mt List.length_eq_zero_iff.mp hkey) rfl

/-- Settles O28. -/
theorem vmKeyPrimes : Obligations.VmKeyPrimes :=
  fun _ s => ⟨fun hkey => exec_vmKey hkey s, fun hkey => exec_eq_configError not_false (List.length_eq_zero_iff.mpr hkey) rfl⟩

section commands
variable {s : State} (hvalid : s.V.valid = true)
include hvalid

theorem exec_vmInput (hovf : s.V.ovf = false) (hidx : s.V.idx < s.params.vmacMaxInputs) (x : Bytes) :
    exec (.vmInput x) s = .next (okResponse [] { s with V := s.V.absorbed s.params x }) :=
  exec_eq_okResponse (w := .vmac _) (ne_false_of_eq_true hvalid)
    (not_or.mpr ⟨Nat.not_le.mpr hidx, ne_true_of_eq_false hovf⟩) rfl

theorem exec_vmInput_refused (hfull : s.V.ovf = true ∨ s.params.vmacMaxInputs ≤ s.V.idx) (x : Bytes) :
    exec (.vmInput x) s = .next (errorResponse .configError { s with V := { s.V with ovf := true } }) :=
  exec_eq_configError_apply (ne_false_of_eq_true hvalid) hfull.symm

theorem exec_vmTag (hovf : s.V.ovf = false) (tlen : Word) :
    exec (.vmTag tlen) s =
      .next (okResponse (vmTagBytes s.params s.V.A tlen.toNat) { s with V := restoreSnapshot s.V }) :=
  exec_eq_okResponse (w := .vmac _) (ne_false_of_eq_true hvalid) (ne_true_of_eq_false hovf) rfl

theorem exec_vmTag_refused (hovf : s.V.ovf = true) (tlen : Word) :
    exec (.vmTag tlen) s = .next (errorResponse .configError { s with V := restoreSnapshot s.V }) :=
  exec_eq_configError_apply (ne_false_of_eq_true hvalid) hovf

theorem exec_vmReset : exec .vmReset s = .next (okResponse [] { s with V := restoreSnapshot s.V }) :=
  exec_eq_okResponse (w := .vmac _) (ne_false_of_eq_true hvalid) not_false rfl

end commands

/-- Settles O29: the accepted input is `VmInput` with its separator as the formula on integers. -/
theorem vmInputAbsorbsOrRefuses : Obligations.VmInputAbsorbsOrRefuses := by
  refine fun x s => ⟨fun hvalid hovf hidx => ?_, fun hvalid hfull => exec_vmInput_refused hvalid hfull x,
    fun hvalid => exec_eq_phaseError hvalid⟩
  rw [← vmSep_eq_ofInt]
  exact exec_vmInput hvalid hovf hidx x

/-- Settles O30. -/
theorem vmTagAnswersAndRestores : Obligations.VmTagAnswersAndRestores :=
  fun tlen _ => ⟨fun hvalid hovf => exec_vmTag hvalid hovf tlen, fun hvalid hovf => exec_vmTag_refused hvalid hovf tlen,
    exec_vmReset, fun hvalid => ⟨exec_eq_phaseError hvalid, exec_eq_phaseError hvalid⟩⟩

end Sys2Proof.Machine
end

section
/-! PROOFS, 42 vector MAC, whole computations: `VM.KEY`, the inputs, `VM.TAG`, within the bound and beyond it (42 R144, R145,
R150). -/

namespace Sys2Proof.Machine

/-- Inputs within the bound are all absorbed, in order (42 R144, R147). -/
theorem execList_vmInput {inputs : List Bytes} {s : State} (hvalid : s.V.valid = true) (hovf : s.V.ovf = false)
    (hbound : s.V.idx + inputs.length ≤ s.params.vmacMaxInputs) :
    ∃ t, execList (inputs.map .vmInput) s = some t ∧ t.params = s.params ∧
      t.V = { s.V with A := vmInputs s.params s.V.A s.V.idx inputs, idx := s.V.idx + inputs.length } := by
  induction inputs generalizing s with
  | nil => exact ⟨s, rfl, rfl, rfl⟩
  | cons x xs ih =>
    rw [List.length_cons, Nat.add_comm xs.length, ← Nat.add_assoc] at hbound ⊢
    have hexec := exec_vmInput hvalid hovf (by omega) x
    obtain ⟨t, hrun, hparams, hV⟩ :=
      ih (s := okResponse [] { s with V := s.V.absorbed s.params x }) hvalid hovf hbound
    exact ⟨t, (execList_cons hexec _).trans hrun, hparams, hV⟩

/-- Inputs beyond the bound, or after a refused one, leave the instance with a refused input: once `V.ovf` is set, no later input
clears it (42 R145, R147). -/
theorem execList_vmInput_refused {inputs : List Bytes} {s : State} (hvalid : s.V.valid = true)
    (hidx : s.V.idx ≤ s.params.vmacMaxInputs)
    (hfull : s.V.ovf = true ∨ s.params.vmacMaxInputs < s.V.idx + inputs.length) :
    ∃ t, execList (inputs.map .vmInput) s = some t ∧ t.V.valid = true ∧ t.V.snap = s.V.snap ∧ t.V.ovf = true := by
  induction inputs generalizing s with
  | nil => exact ⟨s, rfl, hvalid, rfl, hfull.resolve_right (Nat.not_lt.mpr hidx)⟩
  | cons x xs ih =>
    by_cases hrefused : s.V.ovf = true ∨ s.params.vmacMaxInputs ≤ s.V.idx
    · have hexec := exec_vmInput_refused hvalid hrefused x
      obtain ⟨t, hrun, ht⟩ := ih (s := errorResponse .configError { s with V := { s.V with ovf := true } })
        hvalid hidx (.inl rfl)
      exact ⟨t, (execList_cons hexec _).trans hrun, ht⟩
    · obtain ⟨hovf, hlt⟩ := not_or.mp hrefused
      have hexec := exec_vmInput hvalid (eq_false_of_ne_true hovf) (Nat.not_le.mp hlt) x
      have hrest : s.params.vmacMaxInputs < s.V.idx + 1 + xs.length := by
        have hlen := hfull.resolve_left hovf
        rw [List.length_cons] at hlen
        omega
      obtain ⟨t, hrun, ht⟩ :=
        ih (s := okResponse [] { s with V := s.V.absorbed s.params x }) hvalid (Nat.not_le.mp hlt) (.inr hrest)
      exact ⟨t, (execList_cons hexec _).trans hrun, ht⟩

/-- A whole computation is its inputs run from the primed instance, and then its tag (42 R150). -/
theorem execList_computation {key : Bytes} {inputs : List Bytes} {tlen : Word} {s u t : State} (hkey : key ≠ [])
    (hrun : execList (inputs.map .vmInput) (okResponse [] { s with V := .primed (vmPrime s.params key) }) = some u)
    (htag : exec (.vmTag tlen) u = .next t) :
    execList ([.vmKey key] ++ inputs.map .vmInput ++ [.vmTag tlen]) s = some t := by
  rw [List.append_assoc, List.singleton_append, execList_cons (exec_vmKey hkey s), execList_append hrun, execList_cons htag]
  rfl

/-- Settles O32: the inputs leave the lanes that `VMAC` squeezes, and the tag restores the snapshot `VM.KEY` left. -/
theorem computationGivesTheVmac : Obligations.ComputationGivesTheVmac := by
  intro key inputs tlen s hkey hlen
  have hbound : 0 + inputs.length ≤ s.params.vmacMaxInputs := (Nat.zero_add _).trans_le hlen
  obtain ⟨u, hrun, hparams, hV⟩ :=
    execList_vmInput (s := okResponse [] { s with V := .primed (vmPrime s.params key) }) rfl rfl hbound
  have hvalid : u.V.valid = true := congrArg VectorMac.valid hV
  have hsnap : u.V.snap = vmPrime s.params key := congrArg VectorMac.snap hV
  have hanswer : vmTagBytes u.params u.V.A tlen.toNat = vmac s.params key inputs tlen.toNat := by
    rw [hparams, hV]
    rfl
  refine ⟨_, execList_computation hkey hrun (exec_vmTag hvalid (congrArg VectorMac.ovf hV) tlen), ?_, ?_⟩
  · rw [hanswer]
    exact List.getLast?_concat
  · exact (restoreSnapshot_of_valid hvalid).trans (congrArg VectorMac.primed hsnap)

/-- Settles O33: the refused input is remembered up to `VM.TAG`, which gives no tag and restores the snapshot `VM.KEY` left. -/
theorem tooManyInputsGiveNoTag : Obligations.TooManyInputsGiveNoTag := by
  intro key inputs tlen s hkey hlen
  have hbeyond : s.params.vmacMaxInputs < 0 + inputs.length := hlen.trans_eq (Nat.zero_add _).symm
  obtain ⟨u, hrun, hvalid, hsnap, hovf⟩ :=
    execList_vmInput_refused (s := okResponse [] { s with V := .primed (vmPrime s.params key) }) rfl (Nat.zero_le _)
      (.inr hbeyond)
  exact ⟨_, execList_computation hkey hrun (exec_vmTag_refused hvalid hovf tlen), List.getLast?_concat,
    (restoreSnapshot_of_valid hvalid).trans (congrArg VectorMac.primed hsnap)⟩

end Sys2Proof.Machine
end

section
/-! PROOFS, 43 AEAD-SIV: the derived key and IV, the cipher as its own inverse, the verified opening, and what each command
answers in every phase (43 R160 to R170; 60 R225). -/

namespace Sys2Proof.Machine

/-! ### The functions -/

theorem slice_zero (s : Bytes) (j : Nat) : slice s 0 j = s.take j := rfl

/-- A slice that reaches the end of the string is what is left after its first bytes (00 R12). -/
theorem slice_of_length_le {s : Bytes} {j : Nat} (i : Nat) (h : s.length ≤ j) : slice s i j = s.drop i :=
  List.take_of_length_le (by rw [List.length_drop]; exact Nat.sub_le_sub_right h i)

/-- The derived key and IV are the two parts of 48 bytes of the XOF (43 R163). -/
theorem sivDerive_eq (p : Params) (key tag : Bytes) :
    sivDerive p key tag =
      ((xof p (key ++ [0x74] ++ tag) 48).take 32, (xof p (key ++ [0x74] ++ tag) 48).drop 32) :=
  congrArg₂ Prod.mk (slice_zero _ _) (slice_of_length_le _ (xof_length p _ 48).le)

/-- The cipher with the derivation of its key and IV written out (43 R163, R164). -/
theorem sivCipher_eq (ctr : Keystream) (p : Params) (key tag m : Bytes) :
    sivCipher ctr p key tag m =
      xorBytes m (ctr ((xof p (key ++ [0x74] ++ tag) 48).take 32) ((xof p (key ++ [0x74] ++ tag) 48).drop 32) m.length) := by
  rw [sivCipher, sivDerive_eq]

theorem sivTag_length (p : Params) (key nonce ad msg : Bytes) : (sivTag p key nonce ad msg).length = 24 :=
  vmac_length p key _ 24

theorem sivCipher_length (p : Params) (key tag m : Bytes) :
    (sivCipher Config.ctrKeystream p key tag m).length = m.length := by
  rw [sivCipher, xorBytes_length, ctrKeystream_length, Nat.min_self]

/-- Enciphering twice under one tag gives the message back: the keystream depends on the tag and the length only (43 R164). -/
theorem sivCipher_sivCipher (p : Params) (key tag m : Bytes) :
    sivCipher Config.ctrKeystream p key tag (sivCipher Config.ctrKeystream p key tag m) = m := by
  rw [sivCipher, sivCipher_length]
  exact xorBytes_cancel m _ (ctrKeystream_length _ _ _).ge

/-- A tag of 24 bytes that is the one recomputed over the candidate opens to it (43 R166). -/
theorem sivUnsealFn_of_verified {ctr : Keystream} {p : Params} {key nonce ad ct tag : Bytes} (hlen : tag.length = 24)
    (htag : sivTag p key nonce ad (sivCipher ctr p key tag ct) = tag) :
    sivUnsealFn ctr p key nonce ad ct tag = some (sivCipher ctr p key tag ct) :=
  (if_neg (not_not.mpr hlen)).trans (if_pos htag)

/-- Any other tag opens to nothing (43 R166). -/
theorem sivUnsealFn_of_refused {ctr : Keystream} {p : Params} {key nonce ad ct tag : Bytes}
    (h : tag.length ≠ 24 ∨ sivTag p key nonce ad (sivCipher ctr p key tag ct) ≠ tag) :
    sivUnsealFn ctr p key nonce ad ct tag = none := by
  by_cases hlen : tag.length = 24
  · exact (if_neg (not_not.mpr hlen)).trans (if_neg (h.resolve_left (not_not.mpr hlen)))
  · exact if_pos hlen

/-! ### The commands -/

/-- An accepted opening that succeeds answers its message and changes nothing else (43 R169). -/
theorem exec_eq_okResponse_of_opened {i : Instr} {s : State} {opened : Option Bytes} {msg : Bytes}
    (hp : ¬ phaseErrorCause i s) (hc : ¬ configErrorCause i s)
    (heffect : acceptedEffect i s = .ofOpened s.entropy opened) (hopened : opened = some msg) :
    exec i s = .next (okResponse msg s) :=
  exec_eq_okResponse (w := .nothing) hp hc (by rw [heffect, hopened]; rfl)

/-- An accepted opening that fails answers `AUTH_FAIL` with no bytes and changes nothing but `ERRLOG` (43 R169, 60 R226, R236). -/
theorem exec_eq_authFail_of_opened {i : Instr} {s : State} {opened : Option Bytes}
    (hp : ¬ phaseErrorCause i s) (hc : ¬ configErrorCause i s)
    (heffect : acceptedEffect i s = .ofOpened s.entropy opened) (hopened : opened = none) :
    exec i s = .next (errorResponse .authFail s) := by
  rw [exec_of_accepted hp hc, heffect, hopened, ← raise_eq (by decide)]
  rfl

theorem exec_sivCtx {key : Bytes} (hkey : key ≠ []) (adlen : Word) (s : State) :
    exec (.sivCtx key adlen) s = .next (okResponse [] { s with SIV := ⟨true, key, adlen⟩ }) :=
  exec_eq_okResponse (w := .siv _) not_false (mt List.length_eq_zero_iff.mp hkey) rfl

section commands
variable {s : State} {ad : Bytes} (hvalid : s.SIV.valid = true) (had : ad.length = s.SIV.adlen.toNat)
include hvalid had

theorem exec_sivSeal (nonce msg : Bytes) :
    exec (.sivSeal nonce ad msg) s =
      .next (okResponse (sivTag s.params s.SIV.key nonce ad msg ++
        sivCipher Config.ctrKeystream s.params s.SIV.key (sivTag s.params s.SIV.key nonce ad msg) msg) s) :=
  exec_eq_okResponse (w := .nothing) (ne_false_of_eq_true hvalid) (not_not.mpr had) rfl

theorem exec_sivUnseal_of_verified {nonce tag ct : Bytes} (hlen : tag.length = 24)
    (htag : sivTag s.params s.SIV.key nonce ad (sivCipher Config.ctrKeystream s.params s.SIV.key tag ct) = tag) :
    exec (.sivUnseal nonce ad tag ct) s =
      .next (okResponse (sivCipher Config.ctrKeystream s.params s.SIV.key tag ct) s) :=
  exec_eq_okResponse_of_opened (ne_false_of_eq_true hvalid) (not_not.mpr had) rfl (sivUnsealFn_of_verified hlen htag)

theorem exec_sivUnseal_of_refused {nonce tag ct : Bytes}
    (h : tag.length ≠ 24 ∨
      sivTag s.params s.SIV.key nonce ad (sivCipher Config.ctrKeystream s.params s.SIV.key tag ct) ≠ tag) :
    exec (.sivUnseal nonce ad tag ct) s = .next (errorResponse .authFail s) :=
  exec_eq_authFail_of_opened (ne_false_of_eq_true hvalid) (not_not.mpr had) rfl (sivUnsealFn_of_refused h)

end commands

/-- Settles O37: the candidate under the sealed tag is the message, so the tag recomputed over it is the sealed one. -/
theorem sivUnsealRecoversSealedMessage : Obligations.SivUnsealRecoversSealedMessage := by
  intro nonce ad msg s hvalid had
  refine ⟨_, _, exec_sivSeal hvalid had nonce msg, sivTag_length _ _ _ _ _, sivCipher_length _ _ _ _, ?_⟩
  have hcand := sivCipher_sivCipher s.params s.SIV.key (sivTag s.params s.SIV.key nonce ad msg) msg
  have hunseal := exec_sivUnseal_of_verified hvalid had (sivTag_length s.params s.SIV.key nonce ad msg) (by rw [hcand])
  rwa [hcand] at hunseal

/-- Settles O34. -/
theorem sivContextLoads : Obligations.SivContextLoads :=
  fun _ adlen s => ⟨fun hkey => exec_sivCtx hkey adlen s,
    fun hkey => exec_eq_configError not_false (List.length_eq_zero_iff.mpr hkey) rfl⟩

/-- Settles O35: the statement writes out `SivTag` and the cipher; each of the two checks refuses. -/
theorem sivSealResponds : Obligations.SivSealResponds := by
  refine fun nonce ad msg s => ⟨fun hvalid had => ?_, fun hvalid => exec_eq_phaseError hvalid,
    fun hvalid had => exec_eq_configError (ne_false_of_eq_true hvalid) had rfl⟩
  intro K tag ks ct
  have hct : sivCipher Config.ctrKeystream s.params K tag msg = ct := sivCipher_eq _ _ _ _ _
  rw [← hct]
  exact ⟨exec_sivSeal hvalid had nonce msg, sivTag_length _ _ _ _ _, sivCipher_length _ _ _ _⟩

/-- Settles O36: the statement writes out the candidate and the tag recomputed over it; each of the two checks refuses. -/
theorem sivUnsealResponds : Obligations.SivUnsealResponds := by
  refine fun nonce ad tag ct s => ⟨fun hvalid had => ?_, fun hvalid => exec_eq_phaseError hvalid,
    fun hvalid had => exec_eq_configError (ne_false_of_eq_true hvalid) had rfl⟩
  intro K ks cand tag2
  have hcand : sivCipher Config.ctrKeystream s.params K tag ct = cand := sivCipher_eq _ _ _ _ _
  have htag2 : sivTag s.params K nonce ad (sivCipher Config.ctrKeystream s.params K tag ct) = tag2 :=
    congrArg (sivTag s.params K nonce ad) hcand
  rw [← hcand, ← htag2]
  exact ⟨fun ⟨hlen, htag⟩ => exec_sivUnseal_of_verified hvalid had hlen htag,
    fun h => exec_sivUnseal_of_refused hvalid had h⟩

end Sys2Proof.Machine
end

section
/-! PROOFS, 44 AEAD-Stream: the sub-keys, the cipher as its own inverse, the sealed string and its opening, a drawing command by
the source's answers, and what each command answers in every phase (44 R175 to R183; 46 R207; 60 R225). -/

namespace Sys2Proof.Machine

/-! ### The functions -/

/-- The sub-keys are the two halves of 64 bytes of the XOF (44 R176). -/
theorem stCtxFn_eq (p : Params) (key cnonce : Bytes) :
    stCtxFn p key cnonce = ((xof p (key ++ cnonce) 64).take 32, (xof p (key ++ cnonce) 64).drop 32) :=
  congrArg₂ Prod.mk (slice_zero _ _) (slice_of_length_le _ (xof_length p _ 64).le)

theorem stTag_length (p : Params) (hk nonce ad ct : Bytes) : (stTag p hk nonce ad ct).length = 32 :=
  xof_length p _ 32

/-- The cipher under one nonce and associated data, the same in both directions (44 R179). -/
def stCipher (str : Keystream) (p : Params) (hk ck nonce ad m : Bytes) : Bytes :=
  xorBytes m (str ck (stIv p hk nonce ad) m.length)

theorem stCipher_length (p : Params) (hk ck nonce ad m : Bytes) :
    (stCipher Config.streamKeystream p hk ck nonce ad m).length = m.length := by
  rw [stCipher, xorBytes_length, streamKeystream_length, Nat.min_self]

/-- Enciphering twice gives the message back: the keystream depends on the IV and the length only (44 R179). -/
theorem stCipher_stCipher (p : Params) (hk ck nonce ad m : Bytes) :
    stCipher Config.streamKeystream p hk ck nonce ad (stCipher Config.streamKeystream p hk ck nonce ad m) = m := by
  rw [stCipher, stCipher_length]
  exact xorBytes_cancel m _ (streamKeystream_length _ _ _).ge

/-- The three parts of a sealed string are cut apart at 24 and 56 (44 R179). -/
theorem parts_of_sealed {nonce tag : Bytes} (hnonce : nonce.length = 24) (htag : tag.length = 32) (ct : Bytes) :
    (nonce ++ tag ++ ct).take 24 = nonce ∧ ((nonce ++ tag ++ ct).drop 24).take 32 = tag ∧ (nonce ++ tag ++ ct).drop 56 = ct := by
  refine ⟨?_, ?_, List.drop_left' (by rw [List.length_append, hnonce, htag])⟩
  · rw [List.append_assoc, List.take_left' hnonce]
  · rw [List.append_assoc, List.drop_left' hnonce, List.take_left' htag]

/-- The sealed string is the nonce, the tag over the ciphertext, and the ciphertext (44 R179). -/
theorem stSealFn_eq (str : Keystream) (p : Params) (hk ck nonce ad pt : Bytes) :
    stSealFn str p hk ck nonce ad pt =
      nonce ++ stTag p hk nonce ad (stCipher str p hk ck nonce ad pt) ++ stCipher str p hk ck nonce ad pt := rfl

theorem stSealFn_length (p : Params) (hk ck : Bytes) {nonce : Bytes} (hnonce : nonce.length = 24) (ad pt : Bytes) :
    (stSealFn Config.streamKeystream p hk ck nonce ad pt).length = 56 + pt.length := by
  rw [stSealFn_eq, List.length_append, List.length_append, hnonce, stTag_length, stCipher_length]

/-- A sealed string of at least 56 bytes whose tag is the recomputed one opens to the deciphered bytes (44 R179). -/
theorem stOpenFn_of_verified {str : Keystream} {p : Params} {hk ck ad sealed : Bytes} (hlen : 56 ≤ sealed.length)
    (htag : stTag p hk (sealed.take 24) ad (sealed.drop 56) = (sealed.drop 24).take 32) :
    stOpenFn str p hk ck ad sealed = some (stCipher str p hk ck (sealed.take 24) ad (sealed.drop 56)) :=
  (if_neg (Nat.not_lt.mpr hlen)).trans (if_pos htag)

/-- A shorter string, or one with another tag, opens to nothing (44 R179). -/
theorem stOpenFn_of_refused {str : Keystream} {p : Params} {hk ck ad sealed : Bytes}
    (h : sealed.length < 56 ∨ stTag p hk (sealed.take 24) ad (sealed.drop 56) ≠ (sealed.drop 24).take 32) :
    stOpenFn str p hk ck ad sealed = none := by
  by_cases hlen : sealed.length < 56
  · exact if_pos hlen
  · exact (if_neg hlen).trans (if_neg (h.resolve_left hlen))

/-- What is sealed opens to its plaintext (44 R183): the tag is recomputed over the very ciphertext it was made for. -/
theorem stOpenFn_stSealFn (p : Params) (hk ck : Bytes) {nonce : Bytes} (hnonce : nonce.length = 24) (ad pt : Bytes) :
    stOpenFn Config.streamKeystream p hk ck ad (stSealFn Config.streamKeystream p hk ck nonce ad pt) = some pt := by
  have hlen : 56 ≤ (stSealFn Config.streamKeystream p hk ck nonce ad pt).length := by
    rw [stSealFn_length p hk ck hnonce]
    exact Nat.le_add_right _ _
  rw [stSealFn_eq] at hlen ⊢
  obtain ⟨hnonce', htag, hct⟩ := parts_of_sealed hnonce
    (stTag_length p hk nonce ad (stCipher Config.streamKeystream p hk ck nonce ad pt))
    (stCipher Config.streamKeystream p hk ck nonce ad pt)
  rw [stOpenFn_of_verified hlen (by rw [hnonce', htag, hct]), hnonce', hct, stCipher_stCipher]

/-! ### A drawing command by the source's answers -/

section drawing
variable {i : Instr} {s : State} {n : Nat} {f : Bytes → Bytes} (hp : ¬ phaseErrorCause i s) (hc : ¬ configErrorCause i s)
  (heffect : acceptedEffect i s = .ofDraw n f s.entropy)
include hp hc heffect

/-- An accepted draw that gets its bytes answers with them, and takes the source's answer (46 R207). -/
theorem exec_eq_okResponse_of_drawn {r : Bytes} {rest : List EntropyAnswer} (hanswer : s.entropy = .ok r :: rest)
    (hlen : r.length = n) : exec i s = .next (okResponse (f r) { s with entropy := rest }) := by
  have hdrawn : Effect.ofDraw n f (.ok r :: rest) = .answer .ok (f r) .nothing rest := if_pos hlen
  rw [exec_of_accepted hp hc, heffect, hanswer, hdrawn, ← respond_eq]
  rfl

/-- A failing source ends the command; only `ERRLOG` changes, and the source's answer is taken (46 R207, 60 R226). -/
theorem exec_eq_entropyError_of_draw_fail {rest : List EntropyAnswer} (hanswer : s.entropy = .fail :: rest) :
    exec i s = .next (errorResponse .entropyError { s with entropy := rest }) := by
  rw [exec_of_accepted hp hc, heffect, hanswer, ← raise_eq (by decide)]
  rfl

/-- A draw without an answer of its length leaves the state as it is (46 R207). -/
theorem exec_eq_self_of_draw_waiting (hwait : WaitsForEntropy n s) (hno : NoReset s) : exec i s = .next s := by
  have hheld : Effect.ofDraw n f s.entropy = .held := by
    obtain hnone | ⟨r, rest, hanswer, hlen⟩ := hwait
    · rw [hnone]; rfl
    · rw [hanswer]; exact if_neg hlen
  rw [exec_of_accepted hp hc, heffect, hheld, Effect.run, hold_of_noReset hno]

end drawing

/-! ### The commands -/

theorem exec_stCtx {key : Bytes} (hkey : key ≠ []) (cnonce : Bytes) (s : State) :
    exec (.stCtx key cnonce) s =
      .next (okResponse [] { s with
        ST := ⟨true, (stCtxFn s.params key cnonce).1, (stCtxFn s.params key cnonce).2⟩ }) :=
  exec_eq_okResponse (w := .stream _) not_false (mt List.length_eq_zero_iff.mp hkey) rfl

section commands
variable {s : State} (hvalid : s.ST.valid = true) (ad : Bytes)
include hvalid

theorem exec_stSeal (pt : Bytes) {nonce : Bytes} {rest : List EntropyAnswer} (hanswer : s.entropy = .ok nonce :: rest)
    (hnonce : nonce.length = 24) :
    exec (.stSeal ad pt) s =
      .next (okResponse (stSealFn Config.streamKeystream s.params s.ST.hashKey s.ST.cipherKey nonce ad pt)
        { s with entropy := rest }) :=
  exec_eq_okResponse_of_drawn (i := .stSeal ad pt) (ne_false_of_eq_true hvalid) not_false rfl hanswer hnonce

theorem exec_stOpen_of_opened {sealed pt : Bytes}
    (hopened : stOpenFn Config.streamKeystream s.params s.ST.hashKey s.ST.cipherKey ad sealed = some pt) :
    exec (.stOpen ad sealed) s = .next (okResponse pt s) :=
  exec_eq_okResponse_of_opened (ne_false_of_eq_true hvalid) not_false rfl hopened

end commands

/-- Settles O41: the state after `ST.SEAL` has the same context, so the opening is that of `StOpen` over `StSeal`. -/
theorem stOpenRecoversSealedPlaintext : Obligations.StOpenRecoversSealedPlaintext := by
  intro ad pt nonce rest s hvalid hanswer hnonce
  refine ⟨_, _, exec_stSeal hvalid ad pt hanswer hnonce, rfl, stSealFn_length _ _ _ hnonce ad pt, ?_⟩
  exact exec_stOpen_of_opened (s := okResponse _ { s with entropy := rest }) hvalid ad (stOpenFn_stSealFn _ _ _ hnonce ad pt)

/-- Settles O38: the statement writes out the XOF and its two halves. -/
theorem stContextDerives : Obligations.StContextDerives := by
  refine fun key cnonce s => ⟨fun hkey => ?_, fun hkey => exec_eq_configError not_false (List.length_eq_zero_iff.mpr hkey) rfl⟩
  rw [exec_stCtx hkey, stCtxFn_eq, xof_eq]

/-- Settles O39: the statement writes out `StSeal`; each of the draw's three endings, and the missing context. -/
theorem stSealResponds : Obligations.StSealResponds := fun ad pt _ =>
  ⟨fun _ _ hvalid hanswer hnonce => exec_stSeal hvalid ad pt hanswer hnonce,
    fun _ hvalid hanswer =>
      exec_eq_entropyError_of_draw_fail (i := .stSeal ad pt) (ne_false_of_eq_true hvalid) not_false rfl hanswer,
    fun hvalid hwait hno => exec_eq_self_of_draw_waiting (ne_false_of_eq_true hvalid) not_false rfl hwait hno,
    fun hvalid => exec_eq_phaseError hvalid⟩

/-- Settles O40: the statement writes out `StOpen`; the length and the tag are its two checks. -/
theorem stOpenResponds : Obligations.StOpenResponds := fun ad _ _ =>
  ⟨fun hvalid => ⟨fun ⟨hlen, htag⟩ => exec_stOpen_of_opened hvalid ad (stOpenFn_of_verified hlen htag),
      fun h => exec_eq_authFail_of_opened (ne_false_of_eq_true hvalid) not_false rfl (stOpenFn_of_refused h)⟩,
    fun hvalid => exec_eq_phaseError hvalid⟩

end Sys2Proof.Machine
end

section
/-! PROOFS, 45 AONT: the derived stream key and nonce, the cipher as its own inverse, the package and its opening, and what each
command answers (45 R190 to R199; 46 R207; 60 R225). -/

namespace Sys2Proof.Machine

/-! ### The functions -/

/-- A byte names itself: the tag length of a command is hashed as the byte the frame carries (45 R192). -/
theorem byteString_toNat (b : Byte) : byteString b.toNat = [b] :=
  congrArg (fun x : Byte => [x]) ((BitVec.ofNat_toNat 8 b).trans b.setWidth_eq)

/-- The stream key and nonce are the two parts of the XOF's bytes (45 R191). -/
theorem aoDerive_eq (p : Params) (iv : Bytes) :
    aoDerive p iv = ((xof p iv (32 + p.streamIvLen)).take 32, (xof p iv (32 + p.streamIvLen)).drop 32) :=
  congrArg₂ Prod.mk (slice_zero _ _) (slice_of_length_le _ (xof_length p iv _).le)

/-- The cipher with the derivation of its key and nonce written out (45 R191, R193). -/
theorem aoCipher_eq (str : Keystream) (p : Params) (iv m : Bytes) :
    aoCipher str p iv m =
      xorBytes m
        (str ((xof p iv (32 + p.streamIvLen)).take 32) ((xof p iv (32 + p.streamIvLen)).drop 32) m.length) := by
  rw [aoCipher, aoDerive_eq]

theorem aoCipher_length (p : Params) (iv m : Bytes) : (aoCipher Config.streamKeystream p iv m).length = m.length := by
  rw [aoCipher, xorBytes_length, streamKeystream_length, Nat.min_self]

/-- Enciphering twice under one IV gives the message back: the keystream depends on the IV and the length only (45 R194). -/
theorem aoCipher_aoCipher (p : Params) (iv m : Bytes) :
    aoCipher Config.streamKeystream p iv (aoCipher Config.streamKeystream p iv m) = m := by
  rw [aoCipher, aoCipher_length]
  exact xorBytes_cancel m _ (streamKeystream_length _ _ _).ge

theorem aoIv_length (p : Params) (K : Bytes) (t : Nat) (r msg : Bytes) : (aoIv p K t r msg).length = t :=
  vmac_length p K _ t

theorem aoMask_length (p : Params) (K : Bytes) (t : Nat) (ct : Bytes) : (aoMask p K t ct).length = t :=
  vmac_length p K _ t

/-- The tag of a package: the IV hidden under the mask of the ciphertext (45 R193). -/
def aoTag (p : Params) (K : Bytes) (t : Nat) (iv ct : Bytes) : Bytes := xorBytes iv (aoMask p K t ct)

/-- The package is the ciphertext under the IV and the tag that hides the IV (45 R193). -/
theorem aoPackageFn_eq (str : Keystream) (p : Params) (K : Bytes) (t : Nat) (r msg : Bytes) :
    aoPackageFn str p K t r msg =
      aoCipher str p (aoIv p K t r msg) msg ++ aoTag p K t (aoIv p K t r msg) (aoCipher str p (aoIv p K t r msg) msg) := rfl

theorem aoTag_length {iv : Bytes} {t : Nat} (hiv : iv.length = t) (p : Params) (K ct : Bytes) :
    (aoTag p K t iv ct).length = t := by
  rw [aoTag, xorBytes_length, hiv, aoMask_length, Nat.min_self]

/-- The mask of the same ciphertext uncovers the IV that the tag hides (45 R194). -/
theorem xorBytes_aoTag_aoMask {iv : Bytes} {t : Nat} (hiv : iv.length = t) (p : Params) (K ct : Bytes) :
    xorBytes (aoTag p K t iv ct) (aoMask p K t ct) = iv :=
  xorBytes_cancel iv _ (hiv.trans (aoMask_length p K t ct).symm).le

/-- Whatever the tag, the opening has the ciphertext's length (45 R194). -/
theorem aoUnpackageFn_length (p : Params) (K : Bytes) (t : Nat) (ct tag : Bytes) :
    (aoUnpackageFn Config.streamKeystream p K t ct tag).length = ct.length :=
  aoCipher_length p _ ct

/-- A ciphertext and the tag over it open to the message (45 R199): the mask uncovers the IV, the IV deciphers. -/
theorem aoUnpackageFn_aoTag {iv : Bytes} {t : Nat} (hiv : iv.length = t) (p : Params) (K msg : Bytes) :
    aoUnpackageFn Config.streamKeystream p K t (aoCipher Config.streamKeystream p iv msg)
      (aoTag p K t iv (aoCipher Config.streamKeystream p iv msg)) = msg := by
  rw [aoUnpackageFn, xorBytes_aoTag_aoMask hiv, aoCipher_aoCipher]

/-! ### The commands -/

theorem exec_aoKey {key : Bytes} (hkey : key.length = 32) (s : State) :
    exec (.aoKey key) s = .next (okResponse [] { s with AO := ⟨key, false⟩ }) :=
  exec_eq_okResponse (w := .aont _) not_false (not_not.mpr hkey) rfl

theorem exec_aoPackage {tlen : Byte} {r : Bytes} {rest : List EntropyAnswer} {s : State} (htlen : 32 ≤ tlen.toNat)
    (hanswer : s.entropy = .ok r :: rest) (hr : r.length = tlen.toNat) {msg iv ct : Bytes}
    (hiv : aoIv s.params s.AO.key tlen.toNat r msg = iv) (hct : aoCipher Config.streamKeystream s.params iv msg = ct) :
    exec (.aoPackage tlen msg) s =
      .next (okResponse (ct ++ aoTag s.params s.AO.key tlen.toNat iv ct) { s with entropy := rest }) := by
  have hexec := exec_eq_okResponse_of_drawn (i := .aoPackage tlen msg) not_false (Nat.not_lt.mpr htlen) rfl hanswer hr
  rwa [aoPackageFn_eq, hiv, hct] at hexec

theorem exec_aoUnpackage_of_opened {ct tag msg : Bytes} {s : State} (htag : 32 ≤ tag.length)
    (hopened : aoUnpackageFn Config.streamKeystream s.params s.AO.key tag.length ct tag = msg) :
    exec (.aoUnpackage ct tag) s = .next (okResponse msg s) :=
  exec_eq_okResponse (w := .nothing) not_false (Nat.not_lt.mpr htag) (by rw [← hopened]; rfl)

/-- Settles O45: the state after `AO.PACKAGE` has the same key, so the opening is that of the ciphertext and the tag over it. -/
theorem aoUnpackageRecoversPackagedMessage : Obligations.AoUnpackageRecoversPackagedMessage := by
  intro tlen msg r rest s htlen hanswer hr
  have hiv := aoIv_length s.params s.AO.key tlen.toNat r msg
  refine ⟨_, _, _, exec_aoPackage htlen hanswer hr rfl rfl, rfl, aoCipher_length _ _ _, aoTag_length hiv _ _ _, ?_⟩
  have hopened := aoUnpackageFn_aoTag hiv s.params s.AO.key msg
  apply exec_aoUnpackage_of_opened (s := okResponse _ { s with entropy := rest }) <;> rwa [aoTag_length hiv]

/-- Settles O42. -/
theorem aoKeyLoads : Obligations.AoKeyLoads :=
  fun _ s => ⟨fun hkey => exec_aoKey hkey s, fun hkey => exec_eq_configError not_false hkey rfl⟩

/-- Settles O43: the statement writes out `AoPackage`; each of the draw's three endings, and the tag length that is refused. -/
theorem aoPackageResponds : Obligations.AoPackageResponds := by
  refine fun tlen msg s => ⟨fun r rest htlen hanswer hr => ?_,
    fun rest htlen hanswer =>
      exec_eq_entropyError_of_draw_fail (i := .aoPackage tlen msg) not_false (Nat.not_lt.mpr htlen) rfl hanswer,
    fun htlen hwait hno => exec_eq_self_of_draw_waiting not_false (Nat.not_lt.mpr htlen) rfl hwait hno,
    fun htlen => exec_eq_configError not_false htlen rfl⟩
  intro t iv ks ct mask
  have hiv : aoIv s.params s.AO.key t r msg = iv := by rw [aoIv, byteString_toNat]
  have hct : aoCipher Config.streamKeystream s.params iv msg = ct := aoCipher_eq _ _ _ _
  have hmask : aoMask s.params s.AO.key t ct = mask := by rw [aoMask, byteString_toNat]
  rw [exec_aoPackage htlen hanswer hr hiv hct, aoTag, hmask]

/-- Settles O44: the statement writes out `AoUnpackage`; only the tag's length is refused. -/
theorem aoUnpackageResponds : Obligations.AoUnpackageResponds := by
  refine fun ct tag s _ => ⟨fun htag => ?_, fun htag => exec_eq_configError not_false htag rfl⟩
  intro mask iv ks msg
  have hmsg : aoUnpackageFn Config.streamKeystream s.params s.AO.key tag.length ct tag = msg := aoCipher_eq _ _ iv ct
  exact ⟨exec_aoUnpackage_of_opened htag hmsg, hmsg ▸ aoUnpackageFn_length _ _ _ _ _⟩

end Sys2Proof.Machine
end

section
/-! PROOFS, 46 system, `RDSR`: the value of each status register as its fields side by side (10 R37), and what is answered for
every register number (46 R205). -/

namespace Sys2Proof.Machine

/-! ### Fields side by side -/

/-- A one-bit field as a word. -/
theorem flagWord_eq_setWidth (b : Bool) : flagWord b = (BitVec.ofBool b).setWidth 32 := by cases b <;> rfl

/-- The direction is encoded as the flag that the sponge is squeezing (10 R26). -/
theorem Direction.bit_eq_flagWord (d : Direction) : d.bit = flagWord (decide (d = .squeezing)) := by cases d <;> rfl

/-- The low field stands at its place, the fields above it are shifted by its width. -/
theorem setWidth_append_eq_or_shiftLeft {m n w : Nat} (x : BitVec m) (y : BitVec n) :
    (x ++ y).setWidth w = y.setWidth w ||| x.setWidth w <<< n := by
  rw [BitVec.setWidth_append_eq_shiftLeft_setWidth_or, BitVec.or_comm]

/-- The same for fields that are shifted already, above a field `z`. -/
theorem or_setWidth_append_shiftLeft {m n w : Nat} (z : BitVec w) (x : BitVec m) (y : BitVec n) (k : Nat) :
    z ||| (x ++ y).setWidth w <<< k = z ||| y.setWidth w <<< k ||| x.setWidth w <<< (n + k) := by
  rw [setWidth_append_eq_or_shiftLeft, BitVec.shiftLeft_or_distrib, ← BitVec.or_assoc, ← BitVec.shiftLeft_add]

/-- The layout of `SP_CFG` and `VM_STAT`: two bytes, a flag in bit 16 and a flag in bit 31 (10 R37). -/
theorem bytes_or_flags_eq_append (x y : Byte) (b top : Bool) :
    y.setWidth 32 ||| x.setWidth 32 <<< 8 ||| flagWord b <<< 16 ||| flagWord top <<< 31 =
      (BitVec.ofBool top ++ 0#14 ++ BitVec.ofBool b ++ x ++ y : Word) := by
  refine Eq.trans ?_ (BitVec.setWidth_eq _)
  rw [setWidth_append_eq_or_shiftLeft, or_setWidth_append_shiftLeft, or_setWidth_append_shiftLeft,
    or_setWidth_append_shiftLeft, BitVec.setWidth_zero, BitVec.zero_shiftLeft, BitVec.or_zero, flagWord_eq_setWidth,
    flagWord_eq_setWidth]

/-- The layout of `SP_STAT`: a byte and a flag in bit 8 (10 R37). -/
theorem byte_or_flag_eq_append (y : Byte) (b : Bool) :
    y.setWidth 32 ||| flagWord b <<< 8 = (0#23 ++ BitVec.ofBool b ++ y : Word) := by
  refine Eq.trans ?_ (BitVec.setWidth_eq _)
  rw [setWidth_append_eq_or_shiftLeft, or_setWidth_append_shiftLeft, BitVec.setWidth_zero, BitVec.zero_shiftLeft,
    BitVec.or_zero, flagWord_eq_setWidth]

/-- The layout of `ERRLOG`: the mask keeps the six named bits at their places (10 R36). -/
theorem and_mask_eq_append (log : Word) : log &&& 0x7e = (0#25 ++ log.extractLsb' 1 6 ++ 0#1 : Word) := by
  refine Eq.trans ?_ (BitVec.setWidth_eq _)
  rw [setWidth_append_eq_or_shiftLeft, or_setWidth_append_shiftLeft, BitVec.setWidth_zero, BitVec.setWidth_zero,
    BitVec.zero_shiftLeft, BitVec.or_zero, BitVec.zero_or]
  ext i hi
  interval_cases i <;> simp

/-! ### The registers -/

section registers
variable (s : State)

theorem spCfg_eq :
    spCfg s = if s.S.cfg then BitVec.ofBool true ++ 0#14 ++ BitVec.ofBool s.S.fx ++ s.S.ds ++ s.S.rate else 0 := by
  unfold spCfg
  split
  next hcfg => rw [hcfg, bytes_or_flags_eq_append]
  next => rfl

theorem spStat_eq :
    spStat s =
      if s.S.cfg then 0#23 ++ BitVec.ofBool (decide (s.S.dir = .squeezing)) ++ BitVec.ofNat 8 s.S.pos else 0 := by
  rw [spStat, fieldWord, Direction.bit_eq_flagWord, byte_or_flag_eq_append]

theorem spBudget_eq : spBudget s = if s.S.cfg ∧ s.S.fx then s.S.remain else 0 := by simp only [spBudget, Bool.and_eq_true]

theorem ssStat_eq : ssStat s = 0#31 ++ BitVec.ofBool s.SS.valid := by
  unfold ssStat
  cases s.SS.valid <;> rfl

theorem vmStat_eq :
    vmStat s =
      if s.V.valid then
        BitVec.ofBool true ++ 0#14 ++ BitVec.ofBool s.V.ovf ++ BitVec.ofNat 8 s.V.pos ++ BitVec.ofNat 8 s.V.idx
      else 0 := by
  unfold vmStat
  split
  next hvalid => rw [hvalid, fieldWord, fieldWord, bytes_or_flags_eq_append]
  next => rfl

theorem ctxStat_eq :
    ctxStat s = 0#29 ++ BitVec.ofBool s.AO.dflt ++ BitVec.ofBool s.ST.valid ++ BitVec.ofBool s.SIV.valid := by
  refine Eq.trans ?_ (BitVec.setWidth_eq _)
  rw [setWidth_append_eq_or_shiftLeft, or_setWidth_append_shiftLeft, or_setWidth_append_shiftLeft, BitVec.setWidth_zero,
    BitVec.zero_shiftLeft, BitVec.or_zero, ctxStat, flagWord_eq_setWidth, flagWord_eq_setWidth, flagWord_eq_setWidth]

theorem errlogView_eq : errlogView s = 0#25 ++ s.ERRLOG.extractLsb' 1 6 ++ 0#1 := and_mask_eq_append s.ERRLOG

end registers

/-! ### The command -/

/-- `RDSR` answers the four bytes of a register that has a value, and changes no group (46 R205). -/
theorem exec_rdsr {n : Byte} {v : Word} {s : State} (hreg : statusRegister n.toNat s = some v) :
    exec (.rdsr n) s = .next (okResponse (le32 v) s) := by
  simp only [exec, execRdsr, hreg, respond_eq]

/-- Settles O46: every register's value is its fields side by side; a reserved number is a cause of a `CONFIG_ERROR`. -/
theorem rdsrReadsStatusRegisters : Obligations.RdsrReadsStatusRegisters := fun s =>
  ⟨exec_rdsr (congrArg some (spCfg_eq s)), exec_rdsr (congrArg some (spStat_eq s)), exec_rdsr (congrArg some (spBudget_eq s)),
    exec_rdsr (congrArg some (ssStat_eq s)), exec_rdsr (congrArg some (vmStat_eq s)), exec_rdsr (congrArg some (ctxStat_eq s)),
    exec_rdsr rfl, exec_rdsr (congrArg some (errlogView_eq s)),
    fun _ hn => exec_eq_configError not_false hn rfl⟩

end Sys2Proof.Machine
end

section
/-! PROOFS, 46 system, the entropy source: which commands take an answer, and how many (46 R207). -/

namespace Sys2Proof.Machine

/-! ### The answers an effect leaves -/

/-- What an effect leaves of the source's answers: a held command takes none. -/
def Effect.answersLeft (answers : List EntropyAnswer) : Effect → List EntropyAnswer
  | .answer _ _ _ left => left
  | .held => answers

@[simp] theorem GroupWrite.apply_entropy (w : GroupWrite) (s : State) : (w.apply s).entropy = s.entropy := by cases w <;> rfl

@[simp] theorem hold_entropy (s : State) : (hold s).entropy = s.entropy := by
  rcases hold_cases s with e | ⟨_, _, _, e⟩ <;> rw [e]
  rfl

theorem Effect.run_entropy (e : Effect) (s : State) : (e.run s).entropy = e.answersLeft s.entropy := by
  cases e with
  | answer st out w left => rw [Effect.run, finish_entropy, GroupWrite.apply_entropy]; rfl
  | held => exact hold_entropy s

theorem Effect.ofOpened_answersLeft (answers : List EntropyAnswer) (opened : Option Bytes) :
    (Effect.ofOpened answers opened).answersLeft answers = answers := by
  cases opened <;> rfl

/-! ### The answers a command may take -/

/-- The answers left are those a command of this draw length may leave: all of them if it draws nothing, and otherwise all, or all
but a `fail`, or all but an `ok` of exactly the length drawn (46 R207). -/
def MayLeave (draws : Option Nat) (answers left : List EntropyAnswer) : Prop :=
  (draws = none → left = answers) ∧
    ∀ n : Nat, draws = some n →
      left = answers ∨
      (answers.head? = some .fail ∧ left = answers.tail) ∨
      (∃ r : Bytes, r.length = n ∧ answers.head? = some (.ok r) ∧ left = answers.tail)

/-- A command that takes no answer, whatever it may draw. -/
theorem MayLeave.of_eq {draws : Option Nat} {answers left : List EntropyAnswer} (h : left = answers) :
    MayLeave draws answers left :=
  ⟨fun _ => h, fun _ _ => .inl h⟩

/-- A draw takes a `fail` or an answer of its length, and is held without taking anything otherwise. -/
theorem Effect.ofDraw_mayLeave (n : Nat) (f : Bytes → Bytes) (answers : List EntropyAnswer) :
    MayLeave (some n) answers ((Effect.ofDraw n f answers).answersLeft answers) := by
  unfold Effect.ofDraw
  split
  · exact .of_eq rfl
  · exact ⟨nofun, fun _ _ => .inr (.inl ⟨rfl, rfl⟩)⟩
  next r left =>
    split
    next hlen => exact ⟨nofun, fun _ hn => .inr (.inr ⟨r, hlen.trans (Option.some.inj hn), rfl, rfl⟩)⟩
    next => exact .of_eq rfl

theorem acceptedEffect_mayLeave (i : Instr) (s : State) :
    MayLeave (drawLength i) s.entropy ((acceptedEffect i s).answersLeft s.entropy) := by
  cases i
  case stSeal | aoPackage => exact Effect.ofDraw_mayLeave _ _ _
  case sivUnseal | stOpen => exact .of_eq (Effect.ofOpened_answersLeft _ _)
  all_goals exact .of_eq rfl

/-- A command takes answers only by its accepted work: the checks before it make no draw (60 R225). -/
theorem HasEffect.mayLeave {i : Instr} {s : State} {e : Effect} (he : HasEffect i s e) :
    MayLeave (drawLength i) s.entropy (e.answersLeft s.entropy) := by
  cases he with
  | phaseError hp => exact .of_eq rfl
  | configError hp hc => exact .of_eq rfl
  | accepted hp hc => exact acceptedEffect_mayLeave i s

/-- Settles O59: the answers after a command are those its effect leaves. -/
theorem onlyTwoCommandsDraw : Obligations.OnlyTwoCommandsDraw := by
  intro i s t hexec
  obtain ⟨e, he⟩ := exists_hasEffect i s
  obtain rfl : e.run s = t := Host.Outcome.next.inj (he.exec_eq.symm.trans hexec)
  rw [e.run_entropy s]
  exact he.mayLeave

end Sys2Proof.Machine
end

section
/-! PROOFS, 60 exceptions: what the response to a command tells of the checks it passed (60 R217, R221, R225) and of what it
changed (60 R226). -/

namespace Sys2Proof.Machine

/-! ### What a write and a hold leave of the outbox -/

@[simp] theorem GroupWrite.apply_outbox (w : GroupWrite) (s : State) : (w.apply s).outbox = s.outbox := by cases w <;> rfl

@[simp] theorem hold_outbox (s : State) : (hold s).outbox = s.outbox := by
  rcases hold_cases s with e | ⟨_, _, _, e⟩ <;> rw [e]
  rfl

/-! ### The response tells the effect -/

/-- A state whose outbox has grown by a response comes from an effect that answers with that status. -/
theorem exists_hasEffect_of_response {i : Instr} {s t : State} {st : Status} {out : Bytes} (hexec : exec i s = .next t)
    (hbox : t.outbox = s.outbox ++ [responseFrame st out]) :
    ∃ out' w left, HasEffect i s (.answer st out' w left) ∧ t = (Effect.answer st out' w left).run s := by
  obtain ⟨e, he⟩ := exists_hasEffect i s
  obtain rfl : e.run s = t := Host.Outcome.next.inj (he.exec_eq.symm.trans hexec)
  cases e with
  | held => simp [Effect.run] at hbox
  | answer st' out' w left =>
    rw [Effect.run, finish_outbox, GroupWrite.apply_outbox] at hbox
    obtain rfl := status_of_outbox hbox
    exact ⟨out', w, left, he, rfl⟩

/-- The status of an accepted command, and its write if that is an error: the checks of 60 R217 and R221 are behind it. -/
def Effect.PastChecks : Effect → Prop
  | .answer st _ w _ => st = .ok ∨ st = .budgetExceeded ∨ (st = .authFail ∨ st = .entropyError) ∧ w = .nothing
  | .held => True

theorem Effect.ofDraw_pastChecks (n : Nat) (f : Bytes → Bytes) (answers : List EntropyAnswer) :
    (Effect.ofDraw n f answers).PastChecks := by
  unfold Effect.ofDraw
  split
  · trivial
  · exact .inr (.inr ⟨.inr rfl, rfl⟩)
  · split
    · exact .inl rfl
    · trivial

theorem Effect.ofOpened_pastChecks (left : List EntropyAnswer) (opened : Option Bytes) :
    (Effect.ofOpened left opened).PastChecks := by
  cases opened with
  | none => exact .inr (.inr ⟨.inl rfl, rfl⟩)
  | some msg => exact .inl rfl

theorem acceptedEffect_pastChecks (i : Instr) (s : State) : (acceptedEffect i s).PastChecks := by
  cases i
  case spSqueeze olen =>
    show squeezeStatus s.S olen = .ok ∨ squeezeStatus s.S olen = .budgetExceeded ∨ _
    unfold squeezeStatus
    split
    · exact .inr (.inl rfl)
    · exact .inl rfl
  case sivUnseal | stOpen => exact Effect.ofOpened_pastChecks _ _
  case stSeal | aoPackage => exact Effect.ofDraw_pastChecks _ _ _
  all_goals exact .inl rfl

/-- What the status of a response tells: the phase check refused, the operand check refused after it, or the command's own work
gave it (60 R225). -/
theorem HasEffect.status_cases {i : Instr} {s : State} {st : Status} {out : Bytes} {w : GroupWrite} {left : List EntropyAnswer}
    (he : HasEffect i s (.answer st out w left)) :
    (st = .phaseError ∧ phaseErrorCause i s ∧ w = .nothing) ∨
      (st = .configError ∧ ¬ phaseErrorCause i s ∧ configErrorCause i s ∧ w = refusedWrite i s ∧ left = s.entropy) ∨
      (Effect.answer st out w left).PastChecks := by
  generalize heq : Effect.answer st out w left = e at he
  cases he with
  | phaseError hp =>
    cases heq
    exact .inl ⟨rfl, hp, rfl⟩
  | configError hp hc =>
    cases heq
    exact .inr (.inl ⟨rfl, hp, hc, rfl, rfl⟩)
  | accepted hp hc => exact .inr (.inr (acceptedEffect_pastChecks i s))

/-- An error writes no group, but for what a refused operand writes (60 R226). -/
theorem HasEffect.write_of_error {i : Instr} {s : State} {st : Status} {out : Bytes} {w : GroupWrite} {left : List EntropyAnswer}
    (he : HasEffect i s (.answer st out w left)) (hok : st ≠ .ok) (hbudget : st ≠ .budgetExceeded) :
    w = .nothing ∨ st = .configError ∧ w = refusedWrite i s := by
  rcases he.status_cases with ⟨-, -, hw⟩ | ⟨hst, -, -, hw, -⟩ | h | h | ⟨-, hw⟩
  · exact .inl hw
  · exact .inr ⟨hst, hw⟩
  · exact absurd h hok
  · exact absurd h hbudget
  · exact .inl hw

/-- A refused operand writes nothing, or it is one of the two exceptions of 60 R226. -/
theorem refusedWrite_cases (i : Instr) (s : State) :
    refusedWrite i s = .nothing ∨
      (i.command.op = .vmInput ∧ refusedWrite i s = .vmac { s.V with ovf := true }) ∨
      (i.command.op = .vmTag ∧ refusedWrite i s = .vmac (restoreSnapshot s.V)) := by
  cases i
  case vmInput => exact .inr (.inl ⟨rfl, rfl⟩)
  case vmTag => exact .inr (.inr ⟨rfl, rfl⟩)
  all_goals exact .inl rfl

/-- Settles O53: an error's effect writes nothing, or the vector MAC in the two exceptions. -/
theorem errorsChangeNothingElse : Obligations.ErrorsChangeNothingElse := by
  intro i s t st hexec hbox hok hbudget
  obtain ⟨out, w, left, he, rfl⟩ := exists_hasEffect_of_response hexec hbox
  have herrlog : ((Effect.answer st out w left).run s).ERRLOG = s.ERRLOG ||| (1#32 <<< st.code) := by
    rw [Effect.run, finish_ERRLOG, GroupWrite.apply_ERRLOG, errlogAfter, logBit_eq hok]
  refine ⟨herrlog, ?_⟩
  rcases he.write_of_error hok hbudget with rfl | ⟨rfl, rfl⟩
  · exact ⟨rfl, rfl, rfl, rfl, rfl, .inl rfl⟩
  · rcases refusedWrite_cases i s with hw | ⟨hop, hw⟩ | ⟨hop, hw⟩ <;> rw [hw]
    · exact ⟨rfl, rfl, rfl, rfl, rfl, .inl rfl⟩
    · exact ⟨rfl, rfl, rfl, rfl, rfl, .inr (.inl ⟨hop, rfl, rfl⟩)⟩
    · exact ⟨rfl, rfl, rfl, rfl, rfl, .inr (.inr ⟨hop, rfl, rfl⟩)⟩

/-- Only the phase check answers `PHASE_ERROR` (60 R221). -/
theorem HasEffect.phaseErrorCause_of_status {i : Instr} {s : State} {out : Bytes} {w : GroupWrite} {left : List EntropyAnswer}
    (he : HasEffect i s (.answer .phaseError out w left)) : phaseErrorCause i s := by
  rcases he.status_cases with ⟨-, hp, -⟩ | ⟨hst, -⟩ | hpast
  · exact hp
  · cases hst
  · simp [Effect.PastChecks] at hpast

/-- Only the operand check answers `CONFIG_ERROR`, after the phase check and before any draw (60 R217, R225). -/
theorem HasEffect.configErrorCause_of_status {i : Instr} {s : State} {out : Bytes} {w : GroupWrite} {left : List EntropyAnswer}
    (he : HasEffect i s (.answer .configError out w left)) :
    ¬ phaseErrorCause i s ∧ configErrorCause i s ∧ left = s.entropy := by
  rcases he.status_cases with ⟨hst, -⟩ | ⟨-, hp, hc, -, hleft⟩ | hpast
  · cases hst
  · exact ⟨hp, hc, hleft⟩
  · simp [Effect.PastChecks] at hpast

/-- Settles O54: the phase check raises, and no other effect has this status. -/
theorem phaseErrorsMatchTheTable : Obligations.PhaseErrorsMatchTheTable := by
  refine fun i s => ⟨exec_eq_phaseError, fun hp t hexec hbox => ?_⟩
  obtain ⟨_, _, _, he, -⟩ := exists_hasEffect_of_response hexec hbox
  exact hp he.phaseErrorCause_of_status

/-- Settles O55: the operand check raises after the phase check, and no other effect has this status. -/
theorem configErrorsMatchTheTable : Obligations.ConfigErrorsMatchTheTable := by
  refine fun i s => ⟨⟨fun ⟨t, hexec, hbox⟩ => ?_, fun ⟨hp, hc⟩ => ?_⟩, fun t hexec hbox => ?_⟩
  · obtain ⟨_, _, _, he, -⟩ := exists_hasEffect_of_response hexec hbox
    obtain ⟨hp, hc, -⟩ := he.configErrorCause_of_status
    exact ⟨hp, hc⟩
  · refine ⟨_, exec_eq_configError_apply hp hc, ?_⟩
    exact congrArg (· ++ [responseFrame .configError []]) (GroupWrite.apply_outbox _ s)
  · obtain ⟨out, w, left, he, rfl⟩ := exists_hasEffect_of_response hexec hbox
    obtain ⟨-, -, hleft⟩ := he.configErrorCause_of_status
    exact (Effect.run_entropy _ s).trans hleft

end Sys2Proof.Machine
end

section
/-! PROOFS, 60 exceptions and 70 reset: one response to each frame, or the hold of a blocked draw (60 R215, 46 R207), the step
relation of 10 R43, and the hardware reset (70 R245). -/

namespace Sys2Proof.Machine

/-! ### The hold of a blocked draw -/

/-- A held command changes nothing while the hardware reset signal does not come next (46 R207). -/
theorem hold_of_head_ne {s : State} {e : HostEvent} {rest : List HostEvent} (hin : s.inbox = e :: rest)
    (hno : rest.head? ≠ some .hardwareReset) : hold s = s := by
  rcases hold_cases s with h | ⟨_, _, hreset, -⟩
  · exact h
  · rw [hin] at hreset
    obtain ⟨-, rfl⟩ := List.cons.inj hreset
    exact absurd rfl hno

/-- The hardware reset signal that comes next ends the hold and loses the command (70 R245). -/
theorem hold_of_hardwareReset {s : State} {e : HostEvent} {rest : List HostEvent} (hin : s.inbox = e :: .hardwareReset :: rest) :
    hold s = { s with toArch := Arch.reset, inbox := rest } := by
  simp only [hold, hin, hardwareReset]

/-- A draw without an answer of its length holds the command (46 R207). -/
theorem Effect.ofDraw_eq_held {n : Nat} {s : State} (hwait : WaitsForEntropy n s) (f : Bytes → Bytes) :
    Effect.ofDraw n f s.entropy = .held := by
  obtain hnone | ⟨r, rest, hanswer, hlen⟩ := hwait
  · rw [hnone]; rfl
  · rw [hanswer]; exact if_neg hlen

/-- The accepted work of a command that draws is a draw of that length (46 R207). -/
theorem acceptedEffect_of_drawLength {i : Instr} {n : Nat} (hdraw : drawLength i = some n) (s : State) :
    ∃ f, acceptedEffect i s = .ofDraw n f s.entropy := by
  cases i
  case stSeal | aoPackage =>
    obtain rfl := Option.some.inj hdraw
    exact ⟨_, rfl⟩
  all_goals exact nomatch hdraw

/-- Settles O48: each thing the host can have sent, the reset signal also behind a held command. -/
theorem stepWaitsOrResets : Obligations.StepWaitsOrResets := by
  refine ⟨fun s hin => ?_, fun s rest hin => ?_, fun s F rest i n hin hdec hdraw hwait hp hc => ?_⟩
  · simp only [step, fetch, hin]
  · simp only [step, fetch, hin, hardwareReset]
  · obtain ⟨f, heffect⟩ := acceptedEffect_of_drawLength hdraw s
    rw [step_eq_exec (fetch_eq_command hin hdec), exec_of_accepted hp hc, heffect, Effect.ofDraw_eq_held hwait, Effect.run,
      hold_of_hardwareReset hin]

/-! ### The effect of a frame -/

/-- The effect of taking a frame: `ILLEGAL` if it does not decode, otherwise its command's (00 R15, 60 R222). -/
inductive FrameEffect (F : Frame) (s : State) : Effect → Prop where
  | illegal {why : Illegal} (hdec : decode F = .error why) : FrameEffect F s (.answer .illegal [] .nothing s.entropy)
  | command {i : Instr} {e : Effect} (hdec : decode F = .ok i) (he : HasEffect i s e) : FrameEffect F s e

theorem exists_frameEffect (F : Frame) (s : State) : ∃ e, FrameEffect F s e := by
  cases hdec : decode F with
  | error why => exact ⟨_, .illegal hdec⟩
  | ok i =>
    obtain ⟨e, he⟩ := exists_hasEffect i s
    exact ⟨e, .command hdec he⟩

theorem FrameEffect.step_eq {F : Frame} {s : State} {e : Effect} (h : FrameEffect F s e) {rest : List HostEvent}
    (hin : s.inbox = .frame F :: rest) : step s = .next (e.run s) := by
  cases h with
  | illegal hdec =>
    rw [step_of_decode_error hin hdec, ← raise_eq (by decide)]
    rfl
  | command hdec he => exact (step_eq_exec (fetch_eq_command hin hdec)).trans he.exec_eq

/-- The response that an effect gives and the groups after it; nothing while the command is held. -/
def Effect.given (s : State) : Effect → Option (Frame × Arch)
  | .answer st out w _ => some (responseFrame st out, (finish st out (w.apply s)).toArch)
  | .held => none

theorem Effect.run_of_given {e : Effect} {s : State} {response : Frame} {a : Arch} (h : e.given s = some (response, a)) :
    (e.run s).toArch = a ∧ (e.run s).outbox = s.outbox ++ [response] ∧ (e.run s).inbox = s.inbox.tail ∧
      (e.run s).params = s.params := by
  cases e with
  | held => cases h
  | answer st out w left =>
    cases h
    cases w <;> exact ⟨rfl, rfl, rfl, rfl⟩

theorem Effect.eq_held_of_given {e : Effect} {s : State} (h : e.given s = none) : e = .held := by
  cases e with
  | held => rfl
  | answer => cases h

/-! ### The step relation of the groups alone -/

/-- The machine that `coreStep` runs for the frame `F` at `s`: the groups, the parameters and the source's next answer of `s`
(10 R43). -/
def coreState (F : Frame) (s : State) : State :=
  { toArch := s.toArch, params := s.params, inbox := [.frame F], outbox := [], entropy := s.entropy.head?.toList }

/-- The groups given are read off the groups alone. -/
theorem Effect.given_coreState (e : Effect) (F : Frame) (s : State) : e.given (coreState F s) = e.given s := by
  cases e with
  | held => rfl
  | answer st out w left => cases w <;> rfl

/-- `coreStep` gives what the frame's effect at its machine gives. -/
theorem FrameEffect.coreStep_eq {F : Frame} {s : State} {e : Effect} (h : FrameEffect F (coreState F s) e) :
    coreStep s.params s.entropy.head? F s.toArch = e.given s := by
  have hstep := h.step_eq rfl
  unfold coreState at hstep
  rw [coreStep, hstep, ← e.given_coreState F s]
  cases e with
  | held => rfl
  | answer st out w left => cases w <;> rfl

/-- A draw looks at the source's next answer alone (46 R207). -/
theorem Effect.ofDraw_given (n : Nat) (f : Bytes → Bytes) (answers : List EntropyAnswer) (s : State) :
    (Effect.ofDraw n f answers.head?.toList).given s = (Effect.ofDraw n f answers).given s := by
  cases answers with
  | nil => rfl
  | cons answer rest =>
    cases answer with
    | fail => rfl
    | ok r =>
      simp only [List.head?_cons, Option.toList_some, Effect.ofDraw]
      split <;> rfl

theorem Effect.ofOpened_given (left left' : List EntropyAnswer) (opened : Option Bytes) (s : State) :
    (Effect.ofOpened left opened).given s = (Effect.ofOpened left' opened).given s := by
  cases opened <;> rfl

/-- The work of an accepted command reads the groups, the parameters and the source's next answer alone. -/
theorem acceptedEffect_coreState_given (i : Instr) (F : Frame) (s : State) :
    (acceptedEffect i (coreState F s)).given s = (acceptedEffect i s).given s := by
  cases i
  case stSeal | aoPackage => exact Effect.ofDraw_given _ _ _ s
  case sivUnseal | stOpen => exact Effect.ofOpened_given _ _ _ s
  all_goals rfl

/-- The machine that `coreStep` runs answers a frame as the whole machine does. -/
theorem FrameEffect.exists_coreState {F : Frame} {s : State} {e : Effect} (h : FrameEffect F s e) :
    ∃ e', FrameEffect F (coreState F s) e' ∧ e'.given s = e.given s := by
  cases h with
  | illegal hdec => exact ⟨_, .illegal hdec, rfl⟩
  | @command i _ hdec he =>
    cases he with
    | phaseError hp => exact ⟨_, .command hdec (.phaseError hp), rfl⟩
    | configError hp hc => exact ⟨_, .command hdec (.configError hp hc), rfl⟩
    | accepted hp hc => exact ⟨_, .command hdec (.accepted hp hc), acceptedEffect_coreState_given i F s⟩

theorem FrameEffect.coreStep_eq_given {F : Frame} {s : State} {e : Effect} (h : FrameEffect F s e) :
    coreStep s.params s.entropy.head? F s.toArch = e.given s := by
  obtain ⟨e', he', hgiven⟩ := h.exists_coreState
  exact he'.coreStep_eq.trans hgiven

/-! ### One response to each frame -/

theorem Quiet.answered {s u : State} (h : Quiet s u) (st : Status) (out : Bytes) : Answered st out s (finish st out u) where
  outbox := congrArg (· ++ [responseFrame st out]) h.outbox
  inbox := congrArg List.tail h.inbox
  errlog := congrArg (errlogAfter st) h.errlog

/-- A frame is answered, with an output only if the status is `OK` or `BUDGET_EXCEEDED`, or its command is held (60 R215, R236). -/
theorem step_frame_cases {s : State} {F : Frame} {rest : List HostEvent} (hin : s.inbox = .frame F :: rest) :
    (∃ st out t, step s = .next t ∧ Answered st out s t ∧ (st ≠ .ok → st ≠ .budgetExceeded → out = [])) ∨
      (∃ i n, decode F = .ok i ∧ drawLength i = some n ∧ WaitsForEntropy n s ∧ step s = .next (hold s)) := by
  cases hdec : decode F with
  | error why =>
    have hstep := (FrameEffect.illegal hdec).step_eq hin
    exact .inl ⟨_, _, _, hstep, (Quiet.refl s).answered .illegal [], fun _ _ => rfl⟩
  | ok i =>
    rw [step_eq_exec (fetch_eq_command hin hdec)]
    rcases exec_cases i s with ⟨st, out, u, hexec, hquiet, hempty⟩ | ⟨n, hdraw, hwait, hexec⟩
    · exact .inl ⟨st, out, _, hexec, hquiet.answered st out, hempty⟩
    · exact .inr ⟨i, n, rfl, hdraw, hwait, hexec⟩

/-- Settles O52: a frame has one effect, which the step takes and `coreStep` gives; every effect is one response or the hold. -/
theorem everyFrameGetsOneResponse : Obligations.EveryFrameGetsOneResponse := by
  refine ⟨fun s F rest hin hno => ?_, fun s => ?_⟩
  · obtain ⟨e, he⟩ := exists_frameEffect F s
    rw [he.coreStep_eq_given]
    cases hgiven : e.given s with
    | none =>
      refine .inr ⟨rfl, ?_⟩
      rw [he.step_eq hin, Effect.eq_held_of_given hgiven, Effect.run, hold_of_head_ne hin hno]
    | some given =>
      obtain ⟨harch, hbox, htail, hparams⟩ := Effect.run_of_given hgiven
      exact .inl ⟨given.1, given.2, e.run s, rfl, he.step_eq hin, harch, hbox, htail.trans (by rw [hin]; rfl), hparams⟩
  · obtain ⟨t, hstep⟩ := step_next s
    refine ⟨t, hstep, fun F rest hin => ?_⟩
    rcases step_frame_cases hin with ⟨st, out, u, hu, hanswered, hempty⟩ | ⟨i, n, hdec, hdraw, hwait, hheld⟩
    · obtain rfl := Host.Outcome.next.inj (hstep.symm.trans hu)
      exact .inl ⟨st, out, hanswered, hempty⟩
    · obtain rfl := Host.Outcome.next.inj (hstep.symm.trans hheld)
      refine .inr ⟨i, n, hdec, hdraw, hwait, ?_⟩
      by_cases hreset : rest.head? = some .hardwareReset
      · obtain ⟨rest', rfl⟩ := List.head?_eq_some_iff.mp hreset
        exact .inr ⟨rest', rfl, hold_of_hardwareReset hin⟩
      · exact .inl ⟨hreset, hold_of_head_ne hin hreset⟩

end Sys2Proof.Machine
end
